-- ==== Sys2Proof/Word.lean ====
section
/-! DEFINITION. The engine's word types (00_scope.md R8, R11): everything is unsigned. -/

namespace Sys2Proof

/-- A byte: 8 bits, unsigned (R8). -/
abbrev Byte := BitVec 8

/-- A 16-bit value: voltages, years, checksums. -/
abbrev Half := BitVec 16

/-- A 32-bit value: powers, currents, energies, context words. -/
abbrev Word := BitVec 32

/-- A byte sequence of a fixed length: identifiers, texts, the tag (20_memory.md R58). -/
abbrev Bytes (n : Nat) := Vector Byte n

/-- The 6 identifier bytes `ID[0..5]` of a field (10_state.md R37, R38). -/
abbrev Ident := Bytes 6

end Sys2Proof
end

