-- ==== Sys2Proof/Config.lean ====
section
/-! DEFINITION. The configuration record `CFG` (10_state.md R20-R29) and the two values the spec leaves open. -/

namespace Sys2Proof

/-- `CFG.FRAMING`: the condition of validator check 2 (R24). -/
inductive Framing where
  | bothSentinel
  | leadingZero
  | off
deriving DecidableEq, Repr

/-- `CFG.TS_CODING`: how timestamp components are coded (R25). -/
inductive TsCoding where
  | binary
  | bcd
deriving DecidableEq, Repr

/-- `CFG.TS_SUB`: offsets of the components relative to a timestamp's value offset (R26); `year` names two bytes. -/
structure TsSub where
  year : Nat
  month : Nat
  day : Nat
  weekday : Nat
  hour : Nat
  minute : Nat
  second : Nat
deriving DecidableEq, Repr

/-- `COMMON_OFF`: absolute value offsets of the common fields (R27). -/
structure CommonOff where
  capTs : Nat
  listVersion : Nat
  meterSerial : Nat
  meterType : Nat
  pImp : Nat
  pExp : Nat
  qImp : Nat
  qExp : Nat
  currentL1 : Nat
  voltageL1 : Nat
deriving DecidableEq, Repr

/-- `PH23_REL`: value offsets relative to the first byte of the phase-2/3 block (R27). -/
structure Ph23Rel where
  currentL2 : Nat
  voltageL2 : Nat
  currentL3 : Nat
  voltageL3 : Nat
deriving DecidableEq, Repr

/-- `LONG_REL`: value offsets relative to the first byte of the long block (R27). -/
structure LongRel where
  meterTs : Nat
  eaImp : Nat
  eaExp : Nat
  erImp : Nat
  erExp : Nat
deriving DecidableEq, Repr

/-- `CFG.LAYOUT`: the offset table (R27). -/
structure Layout where
  commonOff : CommonOff
  ph1End : Nat
  ph23Len : Nat
  ph23Rel : Ph23Rel
  longLen : Nat
  longRel : LongRel
deriving DecidableEq, Repr

/-- `CFG` (R20): read-only; no operation writes it. -/
structure Config where
  sentinel : Byte
  tag : Bytes 4
  discOff : Nat
  framing : Framing
  tsCoding : TsCoding
  tsSub : TsSub
  layout : Layout
  bufCap : Nat
  cntW : Nat
deriving DecidableEq, Repr

/-- The context word of a failure whose value (R231) does not fit the 32 bits of R34.
DESIGN CHOICE: a free value, log entry 11; no legal candidate below 2^32 bytes meets it. -/
opaque Config.freeContext : Int → Word

/-- The bits of `RD.KIND` after a failure, where the register is not valid (10_state.md R35, R39, U2).
DESIGN CHOICE: a free value, log entry 6; the argument counts the free values taken before (`State.draws`). -/
opaque Config.freeKind : Nat → BitVec 2

end Sys2Proof
end

