-- ==== Sys2Proof/Syntax.lean ====
section
/-! DEFINITION. The operations of the engine, one constructor a row of spec/opcode_table.json, and the
input events that select them (30_encoding.md R72, R83). -/

namespace Sys2Proof

/-- LayoutKind (30_encoding.md R78). -/
inductive LayoutKind where
  | shortSinglePhase
  | longSinglePhase
  | shortThreePhase
  | longThreePhase
deriving DecidableEq, Repr

/-- The fields of a Reading (10_state.md R38, 44_decoder.md R195), in the spec's table order. -/
inductive Field where
  | capTs | listVersion | meterSerial | meterType
  | pImp | pExp | qImp | qExp
  | currentL1 | voltageL1
  | currentL2 | voltageL2 | currentL3 | voltageL3
  | meterTs | eaImp | eaExp | erImp | erExp
deriving DecidableEq, Repr

/-- A one-byte operand (43_extract.md R164, R166): the byte itself, or the candidate's byte at an offset
(the opcode table's `o`). DEDUCED: log entry 15. -/
inductive ByteOperand where
  | lit (x : Byte)
  | byteAt (o : Nat)
deriving DecidableEq, Repr

/-- The operations. The docstring of a constructor names its row of the opcode table. -/
inductive Instr where
  /-- ASM.BYTE -/
  | asmByte (v : Byte)
  /-- ASM.OPEN -/
  | asmOpen (v : Byte)
  /-- ASM.CLOSE -/
  | asmClose (v : Byte)
  /-- ASM.EMPTY -/
  | asmEmpty
  /-- RESET -/
  | reset
  /-- CRC.X25 over `b[lo..hi]` -/
  | crcX25 (lo hi : Nat)
  /-- VAL.SIZE -/
  | valSize
  /-- VAL.FRAMING -/
  | valFraming
  /-- VAL.HCS -/
  | valHcs
  /-- VAL.FCS -/
  | valFcs
  /-- VAL.TAG -/
  | valTag
  /-- VAL.LEN -/
  | valLen
  /-- VAL.RUN -/
  | valRun
  /-- EXT.U8 -/
  | extU8 (o : Nat)
  /-- EXT.BE16 -/
  | extBe16 (o : Nat)
  /-- EXT.BE32 -/
  | extBe32 (o : Nat)
  /-- EXT.LE16 -/
  | extLe16 (o : Nat)
  /-- EXT.BCD8 -/
  | extBcd8 (x : ByteOperand)
  /-- EXT.BCD16 -/
  | extBcd16 (o : Nat)
  /-- EXT.WDAY -/
  | extWday (x : ByteOperand)
  /-- EXT.TS -/
  | extTs (o : Nat)
  /-- EXT.TEXT -/
  | extText (o n : Nat)
  /-- EXT.ID -/
  | extId (o : Nat)
  /-- EXT.FIELD -/
  | extField (f : Field) (o : Nat)
  /-- DEC.DISC -/
  | decDisc
  /-- DEC.FIT -/
  | decFit (k : LayoutKind)
  /-- DEC.COMMON -/
  | decCommon (k : LayoutKind)
  /-- DEC.THREE -/
  | decThree (k : LayoutKind)
  /-- DEC.LONG -/
  | decLong (k : LayoutKind)
  /-- DEC.RUN -/
  | decRun
  /-- DISC.ShortSinglePhase -/
  | discShortSinglePhase
  /-- DISC.LongSinglePhase -/
  | discLongSinglePhase
  /-- DISC.ShortThreePhase -/
  | discShortThreePhase
  /-- DISC.LongThreePhase -/
  | discLongThreePhase
  /-- DISC.UNKNOWN -/
  | discUnknown (d : Byte)
  /-- WDAY.Monday -/
  | wdayMonday
  /-- WDAY.Tuesday -/
  | wdayTuesday
  /-- WDAY.Wednesday -/
  | wdayWednesday
  /-- WDAY.Thursday -/
  | wdayThursday
  /-- WDAY.Friday -/
  | wdayFriday
  /-- WDAY.Saturday -/
  | wdaySaturday
  /-- WDAY.Sunday -/
  | wdaySunday
  /-- WDAY.ABSENT -/
  | wdayAbsent (x : Byte)
deriving DecidableEq, Repr

/-- What the engine takes in one step (30_encoding.md R72): a byte, an empty read or the reset input.
`direct` is the model's own operation port, log entry 9: one internal operation given by its operation word. -/
inductive Stimulus where
  | byte (v : Byte)
  | empty
  | reset
  | direct (word : List Byte)
deriving DecidableEq, Repr

/-- The spec's own input events are all stimuli but those of the model's operation port. -/
def Stimulus.isInput : Stimulus → Bool
  | .byte _ => true
  | .empty => true
  | .reset => true
  | .direct _ => false

end Sys2Proof
end

