-- ==== Sys2Proof/Machine/Layout.lean ====
section
/-! DEFINITION. The fixed numbers (00_scope.md R7), the layout structure (44_decoder.md R191-R195) and the legality of a
configuration (10_state.md R23, R26, R28, R29; 44_decoder.md R194; 70_reset_and_hazards.md R263). -/

namespace Sys2Proof

/-- `MIN_LEN` (R7). -/
abbrev minLen : Nat := 180

/-- `MAX_LEN` (R7). -/
abbrev maxLen : Nat := 302

/-- `LEN_OFFSET` (R7). -/
abbrev lenOffset : Nat := 2

/-- The kinds of field (R195). -/
inductive FieldKind where
  | u32
  | u16
  | text (n : Nat)
  | timestamp
deriving DecidableEq, Repr

/-- The blocks of a frame's payload (R195). -/
inductive Block where
  | common
  | three
  | long
deriving DecidableEq, Repr

/-- The kind of each field (R195). -/
def Field.kind : Field → FieldKind
  | .capTs => .timestamp
  | .listVersion => .text 14
  | .meterSerial => .text 16
  | .meterType => .text 18
  | .pImp => .u32
  | .pExp => .u32
  | .qImp => .u32
  | .qExp => .u32
  | .currentL1 => .u32
  | .voltageL1 => .u16
  | .currentL2 => .u32
  | .voltageL2 => .u16
  | .currentL3 => .u32
  | .voltageL3 => .u16
  | .meterTs => .timestamp
  | .eaImp => .u32
  | .eaExp => .u32
  | .erImp => .u32
  | .erExp => .u32

/-- The bytes a timestamp names, as offsets (10_state.md R26). -/
def TsSub.offsets (t : TsSub) : List Nat :=
  [t.year, t.year + 1, t.month, t.day, t.weekday, t.hour, t.minute, t.second]

/-- `TS_LEN`: one more than the largest byte offset (10_state.md R26). -/
def TsSub.len (t : TsSub) : Nat := t.offsets.foldr max 0 + 1

/-- `w(f)`: the width of a field in bytes (R195). -/
def Config.width (c : Config) (f : Field) : Nat :=
  match f.kind with
  | .u32 => 4
  | .u16 => 2
  | .text n => n
  | .timestamp => c.tsSub.len

/-- `THREE(k)` by explicit membership (R191). -/
def LayoutKind.three : LayoutKind → Bool
  | .shortSinglePhase => false
  | .longSinglePhase => false
  | .shortThreePhase => true
  | .longThreePhase => true

/-- `LONG(k)` by explicit membership (R191). -/
def LayoutKind.long : LayoutKind → Bool
  | .shortSinglePhase => false
  | .longSinglePhase => true
  | .shortThreePhase => false
  | .longThreePhase => true

/-- `RD.KIND` as its two bits: bit 1 three-phase, bit 0 long (10_state.md R35). -/
def LayoutKind.bits : LayoutKind → BitVec 2
  | .shortSinglePhase => 0b00#2
  | .longSinglePhase => 0b01#2
  | .shortThreePhase => 0b10#2
  | .longThreePhase => 0b11#2

/-- `phase_end(k)` (R192). -/
def Config.phaseEnd (c : Config) (k : LayoutKind) : Nat :=
  c.layout.ph1End + if k.three then c.layout.ph23Len else 0

/-- `ph23_start` (R192). -/
def Config.ph23Start (c : Config) : Nat := c.layout.ph1End + 1

/-- `long_start(k)` (R192). -/
def Config.longStart (c : Config) (k : LayoutKind) : Nat := c.phaseEnd k + 1

/-- `extent(k)` (R192). -/
def Config.extent (c : Config) (k : LayoutKind) : Nat :=
  c.phaseEnd k + if k.long then c.layout.longLen else 0

/-- The block of a field and its offset inside the offset table (R27, R195). -/
def Layout.place (l : Layout) : Field → Block × Nat
  | .capTs => (.common, l.commonOff.capTs)
  | .listVersion => (.common, l.commonOff.listVersion)
  | .meterSerial => (.common, l.commonOff.meterSerial)
  | .meterType => (.common, l.commonOff.meterType)
  | .pImp => (.common, l.commonOff.pImp)
  | .pExp => (.common, l.commonOff.pExp)
  | .qImp => (.common, l.commonOff.qImp)
  | .qExp => (.common, l.commonOff.qExp)
  | .currentL1 => (.common, l.commonOff.currentL1)
  | .voltageL1 => (.common, l.commonOff.voltageL1)
  | .currentL2 => (.three, l.ph23Rel.currentL2)
  | .voltageL2 => (.three, l.ph23Rel.voltageL2)
  | .currentL3 => (.three, l.ph23Rel.currentL3)
  | .voltageL3 => (.three, l.ph23Rel.voltageL3)
  | .meterTs => (.long, l.longRel.meterTs)
  | .eaImp => (.long, l.longRel.eaImp)
  | .eaExp => (.long, l.longRel.eaExp)
  | .erImp => (.long, l.longRel.erImp)
  | .erExp => (.long, l.longRel.erExp)

/-- `off(k, f)`: the value offset of a field in a kind, `none` where the kind has no such field (R193). -/
def Config.off (c : Config) (k : LayoutKind) (f : Field) : Option Nat :=
  match c.layout.place f with
  | (.common, o) => some o
  | (.three, r) => if k.three then some (c.ph23Start + r) else none
  | (.long, r) => if k.long then some (c.longStart k + r) else none

/-! ### Legality -/

/-- All fields of a Reading. -/
def Field.all : List Field :=
  [.capTs, .listVersion, .meterSerial, .meterType, .pImp, .pExp, .qImp, .qExp, .currentL1, .voltageL1] ++
  [.currentL2, .voltageL2, .currentL3, .voltageL3, .meterTs, .eaImp, .eaExp, .erImp, .erExp]

/-- All kinds. -/
def LayoutKind.all : List LayoutKind :=
  [.shortSinglePhase, .longSinglePhase, .shortThreePhase, .longThreePhase]

/-- No two entries of a list of offsets are equal. -/
def allDistinct : List Nat → Bool
  | [] => true
  | a :: as => as.all (fun b => a != b) && allDistinct as

/-- `TS_SUB` is legal when its eight bytes are distinct (10_state.md R26). -/
def TsSub.legal (t : TsSub) : Bool := allDistinct t.offsets

/-- W1, W3 and W4 for one field: it lies, identifier included, in its block (R194). -/
def Config.fieldInBlock (c : Config) (f : Field) : Bool :=
  match c.layout.place f with
  | (.common, o) => decide (7 ≤ o) && decide (o + c.width f ≤ c.layout.ph1End + 1)
  | (.three, r) => decide (6 ≤ r) && decide (r + c.width f ≤ c.layout.ph23Len)
  | (.long, r) => decide (6 ≤ r) && decide (r + c.width f ≤ c.layout.longLen)

/-- W1, W3 and W4 (R194): every field in its block, the two optional blocks not empty. -/
def Config.fieldsInBlocks (c : Config) : Bool :=
  Field.all.all c.fieldInBlock && decide (1 ≤ c.layout.ph23Len) && decide (1 ≤ c.layout.longLen)

/-- Two value ranges, each an offset and a width, share no byte. -/
def rangesApart (a b : Nat × Nat) : Bool := decide (a.1 + a.2 ≤ b.1) || decide (b.1 + b.2 ≤ a.1)

/-- The value ranges of a list share no byte pairwise. -/
def allApart : List (Nat × Nat) → Bool
  | [] => true
  | a :: as => as.all (rangesApart a) && allApart as

/-- The value ranges of the fields a kind has. -/
def Config.valueRanges (c : Config) (k : LayoutKind) : List (Nat × Nat) :=
  Field.all.filterMap fun f => (c.off k f).map fun o => (o, c.width f)

/-- W5 for one kind (R194): the value ranges are disjoint and none contains `DISC_OFF`. -/
def Config.rangesDisjoint (c : Config) (k : LayoutKind) : Bool :=
  allApart (c.valueRanges k) && (c.valueRanges k).all (rangesApart (c.discOff, 1))

/-- `LAYOUT` is well-formed: W1-W6 (R194). -/
def Config.layoutLegal (c : Config) : Bool :=
  c.fieldsInBlocks &&
  decide (c.layout.ph1End ≤ minLen - 4) &&
  LayoutKind.all.all c.rangesDisjoint &&
  decide (c.layout.ph1End + c.layout.ph23Len + c.layout.longLen ≤ maxLen - 4)

/-- A configuration the engine may run with (70_reset_and_hazards.md R263). -/
def Config.legal (c : Config) : Bool :=
  decide (12 ≤ c.discOff) && decide (c.discOff ≤ minLen - 4) &&
  c.tsSub.legal &&
  c.layoutLegal &&
  decide (maxLen ≤ c.bufCap) &&
  decide (9 ≤ c.cntW)

end Sys2Proof
end

