-- ==== Sys2Proof/Machine/Reference.lean ====
section
/-! DEFINITION. The reference configuration REF (00_scope.md R6, 44_decoder.md R196). -/

namespace Sys2Proof

/-- The reference timestamp sub-layout (10_state.md R26). -/
def TsSub.ref : TsSub :=
  { year := 0, month := 2, day := 3, weekday := 4, hour := 5, minute := 6, second := 7 }

/-- The reference layout (44_decoder.md R196). -/
def Layout.ref : Layout :=
  { commonOff :=
      { capTs := 17, listVersion := 33, meterSerial := 57, meterType := 83,
        pImp := 110, pExp := 123, qImp := 136, qExp := 149, currentL1 := 162, voltageL1 := 175 }
    ph1End := 176
    ph23Len := 48
    ph23Rel := { currentL2 := 9, voltageL2 := 22, currentL3 := 33, voltageL3 := 46 }
    longLen := 74
    longRel := { meterTs := 10, eaImp := 31, eaExp := 44, erImp := 57, erExp := 70 } }

/-- The reference configuration REF (00_scope.md R6). DESIGN CHOICE that `State.reset` holds it: log entry 1. -/
def Config.ref : Config :=
  { sentinel := 0x7E#8
    tag := #v[0xE6#8, 0xE7#8, 0x00#8, 0x0F#8]
    discOff := 30
    framing := .bothSentinel
    tsCoding := .binary
    tsSub := TsSub.ref
    layout := Layout.ref
    bufCap := 302
    cntW := 16 }

end Sys2Proof
end

