-- ==== Sys2Proof/WellFormed.lean ====
section
/-! DEFINITION. Which operand values the operations have. -/

namespace Sys2Proof

/-- Offsets fit the four offset bytes of an operation word (log entry 9). -/
def offsetFits (o : Nat) : Bool := decide (o < 4294967296)

/-- The discriminant codes 17, 27, 25, 35 (30_encoding.md R78). -/
def isDiscCode (d : Byte) : Bool := d == 17#8 || d == 27#8 || d == 25#8 || d == 35#8

/-- The weekday codes 1..7 (30_encoding.md R81). -/
def isWdayCode (x : Byte) : Bool := decide (1 ≤ x.toNat) && decide (x.toNat ≤ 7)

/-- The operand conditions of a byte operand. -/
def ByteOperand.wf : ByteOperand → Bool
  | .lit _ => true
  | .byteAt o => offsetFits o

/-- The operand conditions of each operation: R122 (`1 ≤ lo`), R168 (`n` is 14, 16 or 18), R169 (`o ≥ 7`),
R78 and R81 (the rows for the other byte values). -/
def Instr.wf : Instr → Bool
  | .asmByte _ => true
  | .asmOpen _ => true
  | .asmClose _ => true
  | .asmEmpty => true
  | .reset => true
  | .crcX25 lo hi => decide (1 ≤ lo) && offsetFits lo && offsetFits hi
  | .valSize => true
  | .valFraming => true
  | .valHcs => true
  | .valFcs => true
  | .valTag => true
  | .valLen => true
  | .valRun => true
  | .extU8 o => offsetFits o
  | .extBe16 o => offsetFits o
  | .extBe32 o => offsetFits o
  | .extLe16 o => offsetFits o
  | .extBcd8 x => x.wf
  | .extBcd16 o => offsetFits o
  | .extWday x => x.wf
  | .extTs o => offsetFits o
  | .extText o n => offsetFits o && (n == 14 || n == 16 || n == 18)
  | .extId o => offsetFits o && decide (7 ≤ o)
  | .extField _ o => offsetFits o && decide (7 ≤ o)
  | .decDisc => true
  | .decFit _ => true
  | .decCommon _ => true
  | .decThree _ => true
  | .decLong _ => true
  | .decRun => true
  | .discShortSinglePhase => true
  | .discLongSinglePhase => true
  | .discShortThreePhase => true
  | .discLongThreePhase => true
  | .discUnknown d => !isDiscCode d
  | .wdayMonday => true
  | .wdayTuesday => true
  | .wdayWednesday => true
  | .wdayThursday => true
  | .wdayFriday => true
  | .wdaySaturday => true
  | .wdaySunday => true
  | .wdayAbsent x => !isWdayCode x

end Sys2Proof
end

