-- ==== Sys2Proof/Decode.lean ====
section
/-! DEFINITION. The decode tables of 30_encoding.md (input events R72, discriminant R78, weekday byte R81) and,
for the operations to which the spec gives no encoding, the model's own operation words (log entry 9); then the encoder. -/

namespace Sys2Proof

/-- Why bytes are no operation word. -/
inductive DecodeError where
  /-- the first byte is neither a table code nor the operation mark 0xFF -/
  | notAnOperationWord (b : Byte)
  /-- no row of the opcode table has this number -/
  | unknownOperation (op : Byte)
  /-- an operand byte is missing -/
  | truncated
  /-- bytes other than 0 follow the operation word -/
  | trailingBytes
  /-- a checksum range that starts below byte 1 (41_crc.md R122) -/
  | badRangeStart
  /-- a text length other than 14, 16 and 18 (43_extract.md R168) -/
  | badTextLength
  /-- an identifier offset below 7 (43_extract.md R169) -/
  | badIdentOffset
  /-- a byte operand that is neither a value nor an offset -/
  | badOperandForm (b : Byte)
  /-- no LayoutKind has this number -/
  | badKind (b : Byte)
  /-- no field has this number -/
  | badField (b : Byte)
  /-- DISC.UNKNOWN with one of the four layout codes -/
  | knownDiscriminant (b : Byte)
  /-- WDAY.ABSENT with one of the codes 1..7 -/
  | presentWeekday (b : Byte)
deriving DecidableEq, Repr

/-! ### The spec's own tables -/

/-- The operation an input byte selects, by the sentinel and the byte counter (R72). -/
def decodeByteEvent (sentinel : Byte) (cnt : Nat) (v : Byte) : Instr :=
  if v = sentinel then
    if cnt = 0 then .asmOpen v else .asmClose v
  else .asmByte v

/-- The discriminant table (R78): exact match on all eight bits, `none` for the other 252 values. -/
def kindOfDisc (d : Byte) : Option LayoutKind :=
  if d = 0x11#8 then some .shortSinglePhase
  else if d = 0x1B#8 then some .longSinglePhase
  else if d = 0x19#8 then some .shortThreePhase
  else if d = 0x23#8 then some .longThreePhase
  else none

/-- The row of the opcode table a discriminant byte selects (R78). -/
def decodeDisc (d : Byte) : Instr :=
  match kindOfDisc d with
  | some .shortSinglePhase => .discShortSinglePhase
  | some .longSinglePhase => .discLongSinglePhase
  | some .shortThreePhase => .discShortThreePhase
  | some .longThreePhase => .discLongThreePhase
  | none => .discUnknown d

/-- The row of the opcode table a weekday byte selects (R81). -/
def decodeWday (x : Byte) : Instr :=
  if x = 1#8 then .wdayMonday
  else if x = 2#8 then .wdayTuesday
  else if x = 3#8 then .wdayWednesday
  else if x = 4#8 then .wdayThursday
  else if x = 5#8 then .wdayFriday
  else if x = 6#8 then .wdaySaturday
  else if x = 7#8 then .wdaySunday
  else .wdayAbsent x

/-! ### Operand bytes of the model's operation words (log entry 9) -/

/-- A byte with the bytes after it. -/
def takeByte : List Byte → Except DecodeError (Byte × List Byte)
  | b :: rest => .ok (b, rest)
  | [] => .error .truncated

/-- Four bytes, least significant first, as an offset. -/
def takeOffset : List Byte → Except DecodeError (Nat × List Byte)
  | a :: b :: c :: d :: rest =>
    .ok (a.toNat + 256 * b.toNat + 65536 * c.toNat + 16777216 * d.toNat, rest)
  | _ => .error .truncated

/-- The four bytes of an offset. -/
def offsetBytes (o : Nat) : List Byte :=
  [BitVec.ofNat 8 o, BitVec.ofNat 8 (o / 256), BitVec.ofNat 8 (o / 65536), BitVec.ofNat 8 (o / 16777216)]

/-- A byte operand: form 0 is the value, form 1 the offset of the byte. -/
def takeByteOperand : List Byte → Except DecodeError (ByteOperand × List Byte)
  | [] => .error .truncated
  | form :: rest =>
    if form = 0#8 then (takeByte rest).map fun p => (.lit p.1, p.2)
    else if form = 1#8 then (takeOffset rest).map fun p => (.byteAt p.1, p.2)
    else .error (.badOperandForm form)

/-- The bytes of a byte operand. -/
def byteOperandBytes : ByteOperand → List Byte
  | .lit x => [0#8, x]
  | .byteAt o => 1#8 :: offsetBytes o

/-- The number of a kind is `RD.KIND`'s (10_state.md R35). -/
def kindNumber : LayoutKind → Byte
  | .shortSinglePhase => 0#8
  | .longSinglePhase => 1#8
  | .shortThreePhase => 2#8
  | .longThreePhase => 3#8

/-- A kind's number with the bytes after it. -/
def takeKind : List Byte → Except DecodeError (LayoutKind × List Byte)
  | [] => .error .truncated
  | b :: rest =>
    if b = 0#8 then .ok (.shortSinglePhase, rest)
    else if b = 1#8 then .ok (.longSinglePhase, rest)
    else if b = 2#8 then .ok (.shortThreePhase, rest)
    else if b = 3#8 then .ok (.longThreePhase, rest)
    else .error (.badKind b)

/-- The fields in the order of 44_decoder.md R195. -/
def fieldTable : List Field :=
  [.capTs, .listVersion, .meterSerial, .meterType, .pImp, .pExp, .qImp, .qExp, .currentL1, .voltageL1] ++
  [.currentL2, .voltageL2, .currentL3, .voltageL3, .meterTs, .eaImp, .eaExp, .erImp, .erExp]

/-- A field's place in `fieldTable`. -/
def fieldNumber : Field → Byte
  | .capTs => 0#8
  | .listVersion => 1#8
  | .meterSerial => 2#8
  | .meterType => 3#8
  | .pImp => 4#8
  | .pExp => 5#8
  | .qImp => 6#8
  | .qExp => 7#8
  | .currentL1 => 8#8
  | .voltageL1 => 9#8
  | .currentL2 => 10#8
  | .voltageL2 => 11#8
  | .currentL3 => 12#8
  | .voltageL3 => 13#8
  | .meterTs => 14#8
  | .eaImp => 15#8
  | .eaExp => 16#8
  | .erImp => 17#8
  | .erExp => 18#8

/-- A field's number with the bytes after it. -/
def takeField : List Byte → Except DecodeError (Field × List Byte)
  | [] => .error .truncated
  | b :: rest =>
    match fieldTable[b.toNat]? with
    | some f => .ok (f, rest)
    | none => .error (.badField b)

/-! ### Operation words -/

/-- Operands that are one byte. -/
def withByte (mk : Byte → Instr) (bs : List Byte) : Except DecodeError (Instr × List Byte) :=
  (takeByte bs).map fun p => (mk p.1, p.2)

/-- Operands that are one offset. -/
def withOffset (mk : Nat → Instr) (bs : List Byte) : Except DecodeError (Instr × List Byte) :=
  (takeOffset bs).map fun p => (mk p.1, p.2)

/-- Operands that are one byte operand. -/
def withByteOperand (mk : ByteOperand → Instr) (bs : List Byte) : Except DecodeError (Instr × List Byte) :=
  (takeByteOperand bs).map fun p => (mk p.1, p.2)

/-- Operands that are one kind. -/
def withKind (mk : LayoutKind → Instr) (bs : List Byte) : Except DecodeError (Instr × List Byte) :=
  (takeKind bs).map fun p => (mk p.1, p.2)

/-- The range of CRC.X25, which starts at byte 1 or later (R122). -/
def takeCrc (bs : List Byte) : Except DecodeError (Instr × List Byte) :=
  match takeOffset bs with
  | .error e => .error e
  | .ok (lo, bs) =>
    match takeOffset bs with
    | .error e => .error e
    | .ok (hi, rest) => if 1 ≤ lo then .ok (.crcX25 lo hi, rest) else .error .badRangeStart

/-- Offset and length of EXT.TEXT (R168). -/
def takeText (bs : List Byte) : Except DecodeError (Instr × List Byte) :=
  match takeOffset bs with
  | .error e => .error e
  | .ok (o, bs) =>
    match takeByte bs with
    | .error e => .error e
    | .ok (n, rest) =>
      if n = 14#8 ∨ n = 16#8 ∨ n = 18#8 then .ok (.extText o n.toNat, rest) else .error .badTextLength

/-- The offset of EXT.ID (R169). -/
def takeIdent (bs : List Byte) : Except DecodeError (Instr × List Byte) :=
  match takeOffset bs with
  | .error e => .error e
  | .ok (o, rest) => if 7 ≤ o then .ok (.extId o, rest) else .error .badIdentOffset

/-- Field and offset of EXT.FIELD (R170, with R169's bound). -/
def takeFieldAt (bs : List Byte) : Except DecodeError (Instr × List Byte) :=
  match takeField bs with
  | .error e => .error e
  | .ok (f, bs) =>
    match takeOffset bs with
    | .error e => .error e
    | .ok (o, rest) => if 7 ≤ o then .ok (.extField f o, rest) else .error .badIdentOffset

/-- The byte of DISC.UNKNOWN: none of the four codes (R78). -/
def takeUnknown (bs : List Byte) : Except DecodeError (Instr × List Byte) :=
  match takeByte bs with
  | .error e => .error e
  | .ok (d, rest) => if kindOfDisc d = none then .ok (.discUnknown d, rest) else .error (.knownDiscriminant d)

/-- The byte of WDAY.ABSENT: 0 or 8..255 (R81). -/
def takeAbsent (bs : List Byte) : Except DecodeError (Instr × List Byte) :=
  match takeByte bs with
  | .error e => .error e
  | .ok (x, rest) => if isWdayCode x then .error (.presentWeekday x) else .ok (.wdayAbsent x, rest)

/-- The operation of row `op` of spec/opcode_table.json (rows counted from 1), with its operand bytes.
The rows that the table gives an exact byte (DISC.*, WDAY.*) are reached by that byte, not by number. -/
def decodeRow (op : Byte) (bs : List Byte) : Except DecodeError (Instr × List Byte) :=
  match op.toNat with
  | 1 => withByte .asmByte bs
  | 2 => withByte .asmOpen bs
  | 3 => withByte .asmClose bs
  | 4 => .ok (.asmEmpty, bs)
  | 5 => .ok (.reset, bs)
  | 6 => takeCrc bs
  | 7 => .ok (.valSize, bs)
  | 8 => .ok (.valFraming, bs)
  | 9 => .ok (.valHcs, bs)
  | 10 => .ok (.valFcs, bs)
  | 11 => .ok (.valTag, bs)
  | 12 => .ok (.valLen, bs)
  | 13 => .ok (.valRun, bs)
  | 14 => withOffset .extU8 bs
  | 15 => withOffset .extBe16 bs
  | 16 => withOffset .extBe32 bs
  | 17 => withOffset .extLe16 bs
  | 18 => withByteOperand .extBcd8 bs
  | 19 => withOffset .extBcd16 bs
  | 20 => withByteOperand .extWday bs
  | 21 => withOffset .extTs bs
  | 22 => takeText bs
  | 23 => takeIdent bs
  | 24 => takeFieldAt bs
  | 25 => .ok (.decDisc, bs)
  | 26 => withKind .decFit bs
  | 27 => withKind .decCommon bs
  | 28 => withKind .decThree bs
  | 29 => withKind .decLong bs
  | 30 => .ok (.decRun, bs)
  | 35 => takeUnknown bs
  | 43 => takeAbsent bs
  | _ => .error (.unknownOperation op)

/-- The mark that begins an operation word of more than one byte. -/
def operationMark : Byte := 0xFF#8

/-- One operation word and the bytes after it: a byte that the table matches exactly (R78, R81), or the mark, a row
number and operands. Total; everything else is rejected by name. -/
def decodeWord : List Byte → Except DecodeError (Instr × List Byte)
  | [] => .error .truncated
  | b :: bs =>
    if b = operationMark then
      match bs with
      | [] => .error .truncated
      | op :: rest => decodeRow op rest
    else if isDiscCode b then .ok (decodeDisc b, bs)
    else if isWdayCode b then .ok (decodeWday b, bs)
    else .error (.notAnOperationWord b)

/-- The operation of a whole word: nothing but 0 bytes may follow it. -/
def decodeWholeWord (word : List Byte) : Except DecodeError Instr :=
  match decodeWord word with
  | .error e => .error e
  | .ok (i, rest) => if rest.all (· == 0#8) then .ok i else .error .trailingBytes

/-- The operation a stimulus selects (R72), by the sentinel and the byte counter. -/
def decodeStimulus (sentinel : Byte) (cnt : Nat) : Stimulus → Except DecodeError Instr
  | .byte v => .ok (decodeByteEvent sentinel cnt v)
  | .empty => .ok .asmEmpty
  | .reset => .ok .reset
  | .direct word => decodeWholeWord word

/-! ### The encoder -/

/-- The operation word of an instruction. -/
def encode : Instr → List Byte
  | .asmByte v => [operationMark, 1#8, v]
  | .asmOpen v => [operationMark, 2#8, v]
  | .asmClose v => [operationMark, 3#8, v]
  | .asmEmpty => [operationMark, 4#8]
  | .reset => [operationMark, 5#8]
  | .crcX25 lo hi => [operationMark, 6#8] ++ offsetBytes lo ++ offsetBytes hi
  | .valSize => [operationMark, 7#8]
  | .valFraming => [operationMark, 8#8]
  | .valHcs => [operationMark, 9#8]
  | .valFcs => [operationMark, 10#8]
  | .valTag => [operationMark, 11#8]
  | .valLen => [operationMark, 12#8]
  | .valRun => [operationMark, 13#8]
  | .extU8 o => [operationMark, 14#8] ++ offsetBytes o
  | .extBe16 o => [operationMark, 15#8] ++ offsetBytes o
  | .extBe32 o => [operationMark, 16#8] ++ offsetBytes o
  | .extLe16 o => [operationMark, 17#8] ++ offsetBytes o
  | .extBcd8 x => [operationMark, 18#8] ++ byteOperandBytes x
  | .extBcd16 o => [operationMark, 19#8] ++ offsetBytes o
  | .extWday x => [operationMark, 20#8] ++ byteOperandBytes x
  | .extTs o => [operationMark, 21#8] ++ offsetBytes o
  | .extText o n => [operationMark, 22#8] ++ offsetBytes o ++ [BitVec.ofNat 8 n]
  | .extId o => [operationMark, 23#8] ++ offsetBytes o
  | .extField f o => [operationMark, 24#8, fieldNumber f] ++ offsetBytes o
  | .decDisc => [operationMark, 25#8]
  | .decFit k => [operationMark, 26#8, kindNumber k]
  | .decCommon k => [operationMark, 27#8, kindNumber k]
  | .decThree k => [operationMark, 28#8, kindNumber k]
  | .decLong k => [operationMark, 29#8, kindNumber k]
  | .decRun => [operationMark, 30#8]
  | .discShortSinglePhase => [0x11#8]
  | .discLongSinglePhase => [0x1B#8]
  | .discShortThreePhase => [0x19#8]
  | .discLongThreePhase => [0x23#8]
  | .discUnknown d => [operationMark, 35#8, d]
  | .wdayMonday => [0x01#8]
  | .wdayTuesday => [0x02#8]
  | .wdayWednesday => [0x03#8]
  | .wdayThursday => [0x04#8]
  | .wdayFriday => [0x05#8]
  | .wdaySaturday => [0x06#8]
  | .wdaySunday => [0x07#8]
  | .wdayAbsent x => [operationMark, 43#8, x]

/-! ### Words numbered as the opcode table numbers them -/

/-- The longest operation word (CRC.X25): mark, row number and two offsets. -/
def maxWordBytes : Nat := 10

/-- `n` bytes of a number, least significant first. -/
def bytesOfNat : Nat → Nat → List Byte
  | 0, _ => []
  | n + 1, w => BitVec.ofNat 8 w :: bytesOfNat n (w / 256)

/-- What the engine is given for an instruction whose bits are `w` (bit 0 the least significant of the first byte):
no bits are an empty read; a word with only a first byte is that byte as an input event, unless the opcode table
matches it exactly (DISC.*, WDAY.*); anything longer is an operation word. Log entry 9. -/
def stimulusOfTableWord (nbits w : Nat) : Stimulus :=
  if nbits = 0 ∧ w = 0 then .empty
  else if w < 256 ∧ ¬ isDiscCode (BitVec.ofNat 8 w) ∧ ¬ isWdayCode (BitVec.ofNat 8 w) then .byte (BitVec.ofNat 8 w)
  else .direct (bytesOfNat maxWordBytes w)

/-- The instruction the decoder reads from a table word, as the first input after reset (REF, `CNT = 0`). -/
def decodeTableWord (nbits w : Nat) : Option Instr :=
  match decodeStimulus Config.ref.sentinel 0 (stimulusOfTableWord nbits w) with
  | .ok i => some i
  | .error _ => none

end Sys2Proof
end

