-- ==== Sys2Proof/Machine/State.lean ====
section
/-! DEFINITION. The engine's state as plain data (10_state.md), its stops, and the state after reset (R44). -/

namespace Sys2Proof.Machine

/-! ### Frame buffer -/

/-- `BUF` (10_state.md R30): the entries that hold a value, by index, indexes strictly rising.
An index that is not listed holds no value, as R30 has a model represent it (log entry 3). -/
abbrev Memory := List Host.Cell

/-! ### Result register -/

/-- The result codes 0..8 (60_exceptions.md R230); the reserved codes 9..15 do not exist (U3). -/
inductive Code where
  | ok
  | sizeOutOfRange
  | framingMismatch
  | headerChecksumMismatch
  | frameChecksumMismatch
  | unexpectedPayloadTag
  | lengthFieldMismatch
  | unknownLayout
  | layoutExceedsFrame
deriving DecidableEq, Repr

/-- `RES` (10_state.md R34): the outcome of the most recent candidate. -/
structure ResultReg where
  valid : Bool
  ok : Bool
  code : Code
  obs : Word
  exp : Word
deriving DecidableEq, Repr

/-- A failure with its context: what `raise Reject(code, obs, exp)` carries (00_scope.md R10, 60_exceptions.md R231). -/
structure Reject where
  code : Code
  obs : Word
  exp : Word
deriving DecidableEq, Repr

/-! ### Reading register file -/

/-- The components of a timestamp register group (10_state.md R37). -/
structure Timestamp where
  year : Half
  month : Byte
  day : Byte
  hour : Byte
  minute : Byte
  second : Byte
  wdayP : Bool
  wday : BitVec 3
deriving DecidableEq, Repr

/-- A value register with its 48-bit identifier register (10_state.md R37, R38). -/
structure Tagged (α : Type) where
  ident : Ident
  val : α
deriving DecidableEq, Repr

/-- `RD` (10_state.md R35-R39). `none` is the spec's explicit absent value. `kind` is the 2-bit register `RD.KIND`,
coded as `LayoutKind.bits`; while it is not valid (R35, U2) it holds bits without a meaning (log entry 6). -/
structure Reading where
  kind : BitVec 2
  threeP : Bool
  longP : Bool
  capTs : Option (Tagged Timestamp)
  listVersion : Option (Tagged (Bytes 14))
  meterSerial : Option (Tagged (Bytes 16))
  meterType : Option (Tagged (Bytes 18))
  pImp : Option (Tagged Word)
  pExp : Option (Tagged Word)
  qImp : Option (Tagged Word)
  qExp : Option (Tagged Word)
  currentL1 : Option (Tagged Word)
  voltageL1 : Option (Tagged Half)
  currentL2 : Option (Tagged Word)
  voltageL2 : Option (Tagged Half)
  currentL3 : Option (Tagged Word)
  voltageL3 : Option (Tagged Half)
  meterTs : Option (Tagged Timestamp)
  eaImp : Option (Tagged Word)
  eaExp : Option (Tagged Word)
  erImp : Option (Tagged Word)
  erExp : Option (Tagged Word)
deriving DecidableEq, Repr

/-- `RD` with every field `none` and both presence flags 0 (10_state.md R39, R44), and some bits in `RD.KIND`. -/
def Reading.absent (kind : BitVec 2) : Reading :=
  { kind := kind, threeP := false, longP := false
    capTs := none, listVersion := none, meterSerial := none, meterType := none
    pImp := none, pExp := none, qImp := none, qExp := none, currentL1 := none, voltageL1 := none
    currentL2 := none, voltageL2 := none, currentL3 := none, voltageL3 := none
    meterTs := none, eaImp := none, eaExp := none, erImp := none, erExp := none }

/-! ### Output log -/

/-- A result record (30_encoding.md R73). -/
structure Record where
  ok : Bool
  code : Code
  obs : Word
  exp : Word
  reading : Reading
deriving DecidableEq, Repr

/-! ### Returned values -/

/-- The pair `(ID, VAL)` that EXT.FIELD returns (43_extract.md R170). -/
inductive FieldValue where
  | u32 (v : Tagged Word)
  | u16 (v : Tagged Half)
  | text (ident : Ident) (chars : List Byte)
  | timestamp (v : Tagged Timestamp)
deriving DecidableEq, Repr

/-- What an internal operation returned to its caller (log entry 8); `none` for an operation that returns nothing. -/
inductive Ret where
  | none
  | byte (v : Byte)
  | half (v : Half)
  | word (v : Word)
  | weekday (p : Bool) (d : BitVec 3)
  | timestamp (t : Timestamp)
  | bytes (bs : List Byte)
  | field (v : FieldValue)
  | kind (k : LayoutKind)
  | pass
  | reject (r : Reject)
  | reading (rd : Reading)
deriving DecidableEq, Repr

/-! ### The state -/

/-- The engine's state: `CFG`, `BUF`, `CNT`, `RES`, `RD`, `OUT` (10_state.md), and the model's own `inq` (input not yet
taken, log entry 7), `ret` (log entry 8) and `draws` (how many free values were taken, log entry 6). `CNT` is a Nat that never passes `2^CNT_W - 1` (log entry 4). -/
structure State where
  cfg : Config
  buf : Memory
  cnt : Nat
  res : ResultReg
  rd : Reading
  out : List Record
  inq : List Stimulus
  ret : Ret
  draws : Nat
deriving DecidableEq, Repr

/-- Where the model stops. Both are 93_implementation_defined.md's treatment `fault`, and safe: the model stops where
no rule gives a value, and no state the engine reaches gets there. -/
inductive Fault where
  /-- Raised by every operation that reads the candidate, for a byte range that is not inside it
  (20_memory.md R54, U6). Safe. -/
  | readOutsideCandidate
  /-- Raised by every operation that reads the candidate, for an entry that holds no value (10_state.md R30, U1). Safe. -/
  | readUnstored
deriving DecidableEq, Repr

/-- What the model refuses. -/
inductive Refusal where
  /-- Raised by `exec` for an operation that has no meaning yet. Safe. -/
  | notModelled (mnemonic : String)
  /-- Raised by `step` before anything else, for a configuration that is not legal (70_reset_and_hazards.md R263, U4). Safe. -/
  | illegalConfiguration
  /-- Raised by `step` for a word of the model's own operation port that is no operation (log entry 9). Safe. -/
  | illegalWord (e : DecodeError)
deriving DecidableEq, Repr

/-- The values of 10_state.md R44 under the reference configuration (log entry 1); `RD.KIND`, for which R44 gives no
value, is 0 (log entry 6). -/
def State.reset : State :=
  { cfg := Config.ref
    buf := []
    cnt := 0
    res := { valid := false, ok := false, code := .ok, obs := 0#32, exp := 0#32 }
    rd := Reading.absent 0#2
    out := []
    inq := []
    ret := .none
    draws := 0 }

end Sys2Proof.Machine
end

