-- ==== Sys2Proof/Machine/Ops.lean ====
section
/-! DEFINITION. The shared operations: the frame buffer (20_memory.md), the append (40_assembler.md R104), reporting a
failure and finishing a candidate (60_exceptions.md R234, R235), taking the next input event. -/

namespace Sys2Proof.Machine

/-! ### The frame buffer -/

/-- The canonical form: indexes strictly rise. -/
def Memory.wf : Memory → Bool
  | [] => true
  | [_] => true
  | a :: b :: m => decide (a.1 < b.1) && Memory.wf (b :: m)

/-- The value an entry holds, if it holds one (10_state.md R30). -/
def Memory.get? : Memory → Nat → Option Byte
  | [], _ => none
  | (a, v) :: m, i => if a = i then some v else Memory.get? m i

/-- Entry `i` takes value `v`, at its place in the rising order. -/
def Memory.write : Memory → Nat → Byte → Memory
  | [], i, v => [(i, v)]
  | (a, w) :: m, i, v =>
    if i < a then (i, v) :: (a, w) :: m
    else if i = a then (i, v) :: m
    else (a, w) :: Memory.write m i v

/-- A byte in front of a byte sequence. -/
def consBytes {n : Nat} (v : Byte) (r : Bytes n) : Bytes (n + 1) :=
  ⟨(v :: r.toList).toArray, by simp⟩

/-- `BUF[i] … BUF[i+n-1]`. -/
def Memory.readRun (m : Memory) : Nat → (n : Nat) → Except Fault (Bytes n)
  | _, 0 => .ok #v[]
  | i, n + 1 =>
    match m.get? i with
    | none => .error .readUnstored
    | some v =>
      match Memory.readRun m (i + 1) n with
      | .error e => .error e
      | .ok r => .ok (consBytes v r)

/-- `MemRead(i, n)` of the candidate under processing, whose length `N` is `CNT` (20_memory.md R51, R54). -/
def memRead (s : State) (i n : Nat) : Except Fault (Bytes n) :=
  if i + n ≤ s.cnt then s.buf.readRun i n else .error .readOutsideCandidate

/-- `b[i]`. -/
def readByte (s : State) (i : Nat) : Except Fault Byte :=
  if i < s.cnt then
    match s.buf.get? i with
    | none => .error .readUnstored
    | some v => .ok v
  else .error .readOutsideCandidate

/-! ### Append -/

/-- The largest value of `CNT` (10_state.md R31). -/
def cntMax (c : Config) : Nat := 2 ^ c.cntW - 1

/-- `APPEND(v)` (40_assembler.md R104): the byte is stored while there is room, and counted until `CNT` saturates.
A saturated `CNT` stores nothing (R101; log entry 5). -/
def State.append (v : Byte) (s : State) : State :=
  { s with
    buf := if s.cnt < s.cfg.bufCap ∧ s.cnt < cntMax s.cfg then s.buf.write s.cnt v else s.buf
    cnt := if s.cnt < cntMax s.cfg then s.cnt + 1 else s.cnt }

/-! ### Failures: entry and recovery -/

/-- A number as a 32-bit context word, zero-extended (60_exceptions.md R231); a free value where it does not fit
(log entry 11). -/
def contextWord (z : Int) : Word :=
  if 0 ≤ z ∧ z < 4294967296 then BitVec.ofNat 32 z.toNat else Config.freeContext z

/-- Reporting a failure: items 1 and 2 of 60_exceptions.md R234. `RES` takes the code and its context, every field of
`RD` becomes `none`; `RD.KIND`, then not valid, takes a free value (R39, U2, log entry 6). -/
def State.takeReject (r : Reject) (s : State) : State :=
  { s with
    res := { valid := true, ok := false, code := r.code, obs := r.obs, exp := r.exp }
    rd := Reading.absent (Config.freeKind s.draws)
    draws := s.draws + 1
    ret := .reject r }

/-- Reporting a Reading: the last lines of DEC.RUN (44_decoder.md R203). -/
def State.takeReading (rd : Reading) (s : State) : State :=
  { s with
    res := { valid := true, ok := true, code := .ok, obs := 0#32, exp := 0#32 }
    rd := rd
    ret := .reading rd }

/-- The result record of the current `RES` and `RD` (30_encoding.md R73). -/
def State.record (s : State) : Record :=
  { ok := s.res.ok, code := s.res.code, obs := s.res.obs, exp := s.res.exp, reading := s.rd }

/-- Items 3 and 4 of 60_exceptions.md R234 and the end of ASM.CLOSE (40_assembler.md R103): the record is emitted and the
buffer is empty again. Recovery (R235) needs nothing more: the next event finds `CNT = 0`. -/
def State.finishCandidate (s : State) : State :=
  { s with out := s.out ++ [s.record], cnt := 0, buf := [], ret := .none }

/-! ### Outcomes of internal operations -/

/-- A function that reads the candidate returns its value to the caller. -/
def returning {α : Type} (s : State) (r : Except Fault α) (f : α → Ret) : Host.Outcome State Fault Refusal :=
  match r with
  | .error e => .fault e
  | .ok a => .next { s with ret := f a }

/-- A check passes, or ends the candidate with a failure (42_validator.md). -/
def checking (s : State) (r : Except Fault (Option Reject)) : Host.Outcome State Fault Refusal :=
  match r with
  | .error e => .fault e
  | .ok none => .next { s with ret := .pass }
  | .ok (some j) => .next (s.takeReject j)

/-- A block of fields is decoded into `RD` (44_decoder.md R199-R201). -/
def writingRd (s : State) (r : Except Fault Reading) : Host.Outcome State Fault Refusal :=
  match r with
  | .error e => .fault e
  | .ok rd => .next { s with rd := rd, ret := .none }

/-! ### Input -/

/-- The next stimulus, and the state with it taken. Where none is pending, the read returns no bytes (30_encoding.md R70). -/
def fetch (s : State) : Stimulus × State :=
  match s.inq with
  | [] => (.empty, s)
  | e :: rest => (e, { s with inq := rest })

end Sys2Proof.Machine
end

