-- ==== Sys2Proof/Machine/Operands.lean ====
section
/-! DEFINITION. Operand forms: how bytes of the candidate become values (20_memory.md R55-R58). -/

namespace Sys2Proof.Machine

/-- `BE(s)`: the unsigned big-endian value of a byte sequence (00_scope.md R10). -/
def bigEndian (bs : List Byte) : Nat := bs.foldl (fun acc b => 256 * acc + b.toNat) 0

/-- `LE16(lo, hi)` (00_scope.md R10). -/
def le16 (lo hi : Byte) : Half := BitVec.ofNat 16 (lo.toNat + 256 * hi.toNat)

/-- `10·x[7:4] + x[3:0]` (43_extract.md R164). -/
def bcdByte (x : Byte) : Nat := 10 * (x.toNat / 16) + x.toNat % 16

/-- A one-byte operand: the value itself, or `b[o]` (log entry 15). -/
def readOperand (s : State) : ByteOperand → Except Fault Byte
  | .lit x => .ok x
  | .byteAt o => readByte s o

/-- Two bytes big-endian. -/
def readBe16 (s : State) (o : Nat) : Except Fault Half :=
  (memRead s o 2).map fun bs => BitVec.ofNat 16 (bigEndian bs.toList)

/-- Four bytes big-endian. -/
def readBe32 (s : State) (o : Nat) : Except Fault Word :=
  (memRead s o 4).map fun bs => BitVec.ofNat 32 (bigEndian bs.toList)

/-- Two bytes little-endian: the stored checksums (R56). -/
def readLe16 (s : State) (o : Nat) : Except Fault Half :=
  match readByte s o with
  | .error e => .error e
  | .ok lo =>
    match readByte s (o + 1) with
    | .error e => .error e
    | .ok hi => .ok (le16 lo hi)

/-- A two-byte BCD year (43_extract.md R165). -/
def readBcd16 (s : State) (o : Nat) : Except Fault Half :=
  match readByte s o with
  | .error e => .error e
  | .ok hi =>
    match readByte s (o + 1) with
    | .error e => .error e
    | .ok lo => .ok (BitVec.ofNat 16 (100 * bcdByte hi + bcdByte lo))

/-- The declared length `DECL` of `b[1]` and `b[2]` (30_encoding.md R76). -/
def declaredLength (b1 b2 : Byte) : Nat := 256 * (b1.toNat % 16) + b2.toNat + lenOffset

end Sys2Proof.Machine
end

