-- ==== Sys2Proof/Machine/Flags.lean ====
section
/-! DEFINITION. The 1-bit status flags (10_state.md R41): how each is computed. `RES.VALID` and `RES.OK` are written by
`State.takeReject` and `State.takeReading` alone. -/

namespace Sys2Proof.Machine

/-- `(WDAY_P, WDAY)` of a weekday byte, compared raw (43_extract.md R166, 30_encoding.md R81). -/
def weekdayFlags (x : Byte) : Bool × BitVec 3 :=
  if 1 ≤ x.toNat ∧ x.toNat ≤ 7 then (true, BitVec.ofNat 3 x.toNat) else (false, 0#3)

/-- `RD.cap_ts.WDAY_P` as software reads it: 0 while the field is `none` (10_state.md R36, R37). -/
def Reading.capWdayP (rd : Reading) : Bool :=
  match rd.capTs with
  | none => false
  | some t => t.val.wdayP

/-- `RD.meter_ts.WDAY_P` as software reads it: 0 while the field is `none`. -/
def Reading.meterWdayP (rd : Reading) : Bool :=
  match rd.meterTs with
  | none => false
  | some t => t.val.wdayP

/-- `RES.CODE` as its four bits (60_exceptions.md R230). -/
def Code.bits : Code → BitVec 4
  | .ok => 0#4
  | .sizeOutOfRange => 1#4
  | .framingMismatch => 2#4
  | .headerChecksumMismatch => 3#4
  | .frameChecksumMismatch => 4#4
  | .unexpectedPayloadTag => 5#4
  | .lengthFieldMismatch => 6#4
  | .unknownLayout => 7#4
  | .layoutExceedsFrame => 8#4

end Sys2Proof.Machine
end

