-- ==== Sys2Proof/Machine/Extract.lean ====
section
/-! DEFINITION. The field extraction primitives (43_extract.md): pure functions of the candidate's bytes and `CFG`. -/

namespace Sys2Proof.Machine

/-- The 6 identifier bytes before a value offset (R169). Below 6 there are no six bytes to read. -/
def extractIdent (s : State) (o : Nat) : Except Fault Ident :=
  if o < 6 then .error .readOutsideCandidate else memRead s (o - 6) 6

/-- The year of a timestamp (R167). -/
def extractYear (s : State) (o : Nat) : Except Fault Half :=
  match s.cfg.tsCoding with
  | .binary => readBe16 s (o + s.cfg.tsSub.year)
  | .bcd => readBcd16 s (o + s.cfg.tsSub.year)

/-- `C(k)`: a one-byte component of a timestamp (R167). -/
def extractComponent (s : State) (i : Nat) : Except Fault Byte :=
  match s.cfg.tsCoding with
  | .binary => readByte s i
  | .bcd => (readByte s i).map fun x => BitVec.ofNat 8 (bcdByte x)

/-- A timestamp group at a value offset, without its identifier (R167). No component is range-checked. -/
def extractTimestamp (s : State) (o : Nat) : Except Fault Timestamp := do
  let year ← extractYear s o
  let month ← extractComponent s (o + s.cfg.tsSub.month)
  let day ← extractComponent s (o + s.cfg.tsSub.day)
  let hour ← extractComponent s (o + s.cfg.tsSub.hour)
  let minute ← extractComponent s (o + s.cfg.tsSub.minute)
  let second ← extractComponent s (o + s.cfg.tsSub.second)
  let weekday ← readByte s (o + s.cfg.tsSub.weekday)
  return { year := year, month := month, day := day, hour := hour, minute := minute, second := second,
           wdayP := (weekdayFlags weekday).1, wday := (weekdayFlags weekday).2 }

/-- A value with the identifier before it (R170). -/
def extractTagged {α : Type} (s : State) (o : Nat) (value : Except Fault α) : Except Fault (Tagged α) := do
  let ident ← extractIdent s o
  let val ← value
  return { ident := ident, val := val }

/-- A 32-bit field with its identifier (R162, R170). -/
def extractU32 (s : State) (o : Nat) : Except Fault (Tagged Word) := extractTagged s o (readBe32 s o)

/-- A 16-bit field with its identifier (R161, R170). -/
def extractU16 (s : State) (o : Nat) : Except Fault (Tagged Half) := extractTagged s o (readBe16 s o)

/-- A text field with its identifier (R168, R170). -/
def extractText (s : State) (o n : Nat) : Except Fault (Tagged (Bytes n)) := extractTagged s o (memRead s o n)

/-- A timestamp field with its identifier (R167, R170). -/
def extractTs (s : State) (o : Nat) : Except Fault (Tagged Timestamp) := extractTagged s o (extractTimestamp s o)

/-- `EXT.FIELD(f, o)` (R170): the extractor of the field's kind. -/
def extractField (s : State) (f : Field) (o : Nat) : Except Fault FieldValue :=
  match f.kind with
  | .u32 => (extractU32 s o).map .u32
  | .u16 => (extractU16 s o).map .u16
  | .text n => (extractText s o n).map fun t => .text t.ident t.val.toList
  | .timestamp => (extractTs s o).map .timestamp

/-- EXT.U8 (R160). -/
def execExtU8 (o : Nat) (s : State) : Host.Outcome State Fault Refusal := returning s (readByte s o) .byte

/-- EXT.BE16 (R161). -/
def execExtBe16 (o : Nat) (s : State) : Host.Outcome State Fault Refusal := returning s (readBe16 s o) .half

/-- EXT.BE32 (R162). -/
def execExtBe32 (o : Nat) (s : State) : Host.Outcome State Fault Refusal := returning s (readBe32 s o) .word

/-- EXT.LE16 (R163). -/
def execExtLe16 (o : Nat) (s : State) : Host.Outcome State Fault Refusal := returning s (readLe16 s o) .half

/-- EXT.BCD8 (R164). -/
def execExtBcd8 (x : ByteOperand) (s : State) : Host.Outcome State Fault Refusal :=
  returning s (readOperand s x) fun b => .byte (BitVec.ofNat 8 (bcdByte b))

/-- EXT.BCD16 (R165). -/
def execExtBcd16 (o : Nat) (s : State) : Host.Outcome State Fault Refusal := returning s (readBcd16 s o) .half

/-- EXT.WDAY (R166). -/
def execExtWday (x : ByteOperand) (s : State) : Host.Outcome State Fault Refusal :=
  returning s (readOperand s x) fun b => .weekday (weekdayFlags b).1 (weekdayFlags b).2

/-- EXT.TS (R167). -/
def execExtTs (o : Nat) (s : State) : Host.Outcome State Fault Refusal := returning s (extractTimestamp s o) .timestamp

/-- EXT.TEXT (R168). -/
def execExtText (o n : Nat) (s : State) : Host.Outcome State Fault Refusal :=
  returning s (memRead s o n) fun bs => .bytes bs.toList

/-- EXT.ID (R169). -/
def execExtId (o : Nat) (s : State) : Host.Outcome State Fault Refusal :=
  returning s (extractIdent s o) fun bs => .bytes bs.toList

/-- EXT.FIELD (R170). -/
def execExtField (f : Field) (o : Nat) (s : State) : Host.Outcome State Fault Refusal :=
  returning s (extractField s f o) .field

end Sys2Proof.Machine
end

