-- ==== Sys2Proof/Machine/FieldDecoder.lean ====
section
/-! DEFINITION. The Field Decoder (44_decoder.md). -/

namespace Sys2Proof.Machine

/-- `raise Reject(UnknownLayout, d, 0x111B1923)` (R190). -/
def unknownLayout (d : Byte) : Reject := ⟨.unknownLayout, d.zeroExtend 32, 0x111B1923#32⟩

/-- `DEC.FIT(k)`: the layout must fit the frame (R198). -/
def checkFit (k : LayoutKind) (s : State) : Option Reject :=
  if s.cnt < s.cfg.extent k + 4 then
    some ⟨.layoutExceedsFrame, contextWord (s.cfg.extent k), contextWord ((s.cnt : Int) - 4)⟩
  else none

/-- The common fields at `COMMON_OFF` into a reading (R199). -/
def decodeCommon (s : State) (rd : Reading) : Except Fault Reading := do
  let capTs ← extractTs s s.cfg.layout.commonOff.capTs
  let listVersion ← extractText s s.cfg.layout.commonOff.listVersion 14
  let meterSerial ← extractText s s.cfg.layout.commonOff.meterSerial 16
  let meterType ← extractText s s.cfg.layout.commonOff.meterType 18
  let pImp ← extractU32 s s.cfg.layout.commonOff.pImp
  let pExp ← extractU32 s s.cfg.layout.commonOff.pExp
  let qImp ← extractU32 s s.cfg.layout.commonOff.qImp
  let qExp ← extractU32 s s.cfg.layout.commonOff.qExp
  let currentL1 ← extractU32 s s.cfg.layout.commonOff.currentL1
  let voltageL1 ← extractU16 s s.cfg.layout.commonOff.voltageL1
  return { rd with
    capTs := some capTs, listVersion := some listVersion, meterSerial := some meterSerial, meterType := some meterType
    pImp := some pImp, pExp := some pExp, qImp := some qImp, qExp := some qExp
    currentL1 := some currentL1, voltageL1 := some voltageL1 }

/-- The phase-2/3 fields, or `none` for a single-phase kind (R200). -/
def decodeThree (k : LayoutKind) (s : State) (rd : Reading) : Except Fault Reading :=
  if k.three then do
    let currentL2 ← extractU32 s (s.cfg.ph23Start + s.cfg.layout.ph23Rel.currentL2)
    let voltageL2 ← extractU16 s (s.cfg.ph23Start + s.cfg.layout.ph23Rel.voltageL2)
    let currentL3 ← extractU32 s (s.cfg.ph23Start + s.cfg.layout.ph23Rel.currentL3)
    let voltageL3 ← extractU16 s (s.cfg.ph23Start + s.cfg.layout.ph23Rel.voltageL3)
    return { rd with
      threeP := true
      currentL2 := some currentL2, voltageL2 := some voltageL2
      currentL3 := some currentL3, voltageL3 := some voltageL3 }
  else
    .ok { rd with threeP := false, currentL2 := none, voltageL2 := none, currentL3 := none, voltageL3 := none }

/-- The long fields, or `none` for a short kind (R201). -/
def decodeLong (k : LayoutKind) (s : State) (rd : Reading) : Except Fault Reading :=
  if k.long then do
    let meterTs ← extractTs s (s.cfg.longStart k + s.cfg.layout.longRel.meterTs)
    let eaImp ← extractU32 s (s.cfg.longStart k + s.cfg.layout.longRel.eaImp)
    let eaExp ← extractU32 s (s.cfg.longStart k + s.cfg.layout.longRel.eaExp)
    let erImp ← extractU32 s (s.cfg.longStart k + s.cfg.layout.longRel.erImp)
    let erExp ← extractU32 s (s.cfg.longStart k + s.cfg.layout.longRel.erExp)
    return { rd with
      longP := true
      meterTs := some meterTs, eaImp := some eaImp, eaExp := some eaExp, erImp := some erImp, erExp := some erExp }
  else
    .ok { rd with longP := false, meterTs := none, eaImp := none, eaExp := none, erImp := none, erExp := none }

/-- The blocks of a kind into a fresh Reading, then its kind (R203). -/
def decodeBlocks (k : LayoutKind) (s : State) : Except Fault Reading := do
  let rd ← decodeCommon s (Reading.absent 0#2)
  let rd ← decodeThree k s rd
  let rd ← decodeLong k s rd
  return { rd with kind := k.bits }

/-- The decode sequence (R203): a failure with its context, or a Reading. -/
def decodeFrame (s : State) : Except Fault (Except Reject Reading) :=
  match readByte s s.cfg.discOff with
  | .error e => .error e
  | .ok d =>
    match kindOfDisc d with
    | none => .ok (.error (unknownLayout d))
    | some k =>
      match checkFit k s with
      | some j => .ok (.error j)
      | none => (decodeBlocks k s).map .ok

/-- DEC.DISC (R190). -/
def execDecDisc (s : State) : Host.Outcome State Fault Refusal :=
  match readByte s s.cfg.discOff with
  | .error e => .fault e
  | .ok d =>
    match kindOfDisc d with
    | none => .next (s.takeReject (unknownLayout d))
    | some k => .next { s with ret := .kind k }

/-- DEC.FIT (R198). -/
def execDecFit (k : LayoutKind) (s : State) : Host.Outcome State Fault Refusal := checking s (.ok (checkFit k s))

/-- DEC.COMMON (R199): the same offsets for all four kinds. -/
def execDecCommon (_k : LayoutKind) (s : State) : Host.Outcome State Fault Refusal := writingRd s (decodeCommon s s.rd)

/-- DEC.THREE (R200). -/
def execDecThree (k : LayoutKind) (s : State) : Host.Outcome State Fault Refusal := writingRd s (decodeThree k s s.rd)

/-- DEC.LONG (R201). -/
def execDecLong (k : LayoutKind) (s : State) : Host.Outcome State Fault Refusal := writingRd s (decodeLong k s s.rd)

/-- DEC.RUN (R203). -/
def execDecRun (s : State) : Host.Outcome State Fault Refusal :=
  match decodeFrame s with
  | .error e => .fault e
  | .ok (.error j) => .next (s.takeReject j)
  | .ok (.ok rd) => .next (s.takeReading rd)

end Sys2Proof.Machine
end

