-- ==== Sys2Proof/Machine/Crc.lean ====
section
/-! DEFINITION. The CRC-16/X25 unit (41_crc.md). -/

namespace Sys2Proof.Machine

/-- The polynomial in reflected form (R120). -/
def crcPoly : Half := 0x8408#16

/-- One shift of the CRC register (R121). -/
def crcBit (crc : Half) : Half :=
  if crc.getLsbD 0 then (crc >>> 1) ^^^ crcPoly else crc >>> 1

/-- Eight shifts of the CRC register (R121). -/
def crcShift8 (crc : Half) : Half :=
  crcBit (crcBit (crcBit (crcBit (crcBit (crcBit (crcBit (crcBit crc)))))))

/-- One byte into the CRC register (R121). -/
def crcByte (crc : Half) (x : Byte) : Half := crcShift8 (crc ^^^ x.zeroExtend 16)

/-- The CRC register after a byte sequence, from a start value (R121, without the final XOR). -/
def crcRegister : Half → List Byte → Half
  | crc, [] => crc
  | crc, x :: xs => crcRegister (crcByte crc x) xs

/-- `CRC16X25(s)` (R121). -/
def crc16x25 (s : List Byte) : Half := crcRegister 0xFFFF#16 s ^^^ 0xFFFF#16

/-- The checksum of `b[lo..hi]` (R122). The range is empty when `hi < lo` (00_scope.md R9), wherever it lies: no byte is
read and the checksum is 0x0000. -/
def crcOfRange (s : State) (lo hi : Nat) : Except Fault Half :=
  if hi < lo then .ok (crc16x25 []) else (memRead s lo (hi + 1 - lo)).map fun bs => crc16x25 bs.toList

/-- CRC.X25 (R122). The spec bounds its range by `1 ≤ lo` and `hi ≤ N - 4` and says nothing of a range outside them:
DESIGN CHOICE (log entry 20), any bytes inside the candidate have their checksum, also with `hi` in `N-3..N-1` and
with `lo = 0`, and only a byte at or beyond `N` faults; a word with `lo = 0` is refused in decoding. -/
def execCrcX25 (lo hi : Nat) (s : State) : Host.Outcome State Fault Refusal :=
  returning s (crcOfRange s lo hi) .half

end Sys2Proof.Machine
end

