-- ==== Sys2Proof/Machine/Validator.lean ====
section
/-! DEFINITION. The Frame Validator (42_validator.md). A check answers no failure, a failure with its context
(60_exceptions.md R231), or a model fault when it reads outside the candidate. -/

namespace Sys2Proof.Machine

/-- Check 1 (R130). Reads no byte. -/
def checkSize (s : State) : Except Fault (Option Reject) :=
  if s.cnt < minLen ∨ maxLen < s.cnt then
    .ok (some ⟨.sizeOutOfRange, contextWord s.cnt, contextWord (65536 * minLen + maxLen : Nat)⟩)
  else .ok none

/-- The condition of check 2 that fails the candidate (R131). -/
def framingFails (c : Config) (first last : Byte) : Bool :=
  match c.framing with
  | .bothSentinel => first != c.sentinel || last != c.sentinel
  | .leadingZero => first == 0#8 && last == c.sentinel
  | .off => false

/-- Check 2 (R131). -/
def checkFraming (s : State) : Except Fault (Option Reject) :=
  match readByte s 0 with
  | .error e => .error e
  | .ok first =>
    match readByte s (s.cnt - 1) with
    | .error e => .error e
    | .ok last =>
      if framingFails s.cfg first last then
        .ok (some ⟨.framingMismatch, contextWord (256 * first.toNat + last.toNat : Nat),
          contextWord (256 * s.cfg.sentinel.toNat + s.cfg.sentinel.toNat : Nat)⟩)
      else .ok none

/-- Compare a stored checksum with the computed one (R132, R133). -/
def compareChecksum (code : Code) (computed stored : Except Fault Half) : Except Fault (Option Reject) :=
  match computed with
  | .error e => .error e
  | .ok c =>
    match stored with
    | .error e => .error e
    | .ok t => if c ≠ t then .ok (some ⟨code, t.zeroExtend 32, c.zeroExtend 32⟩) else .ok none

/-- Check 3 (R132): the header checksum over bytes 1..5, stored at bytes 6..7. -/
def checkHcs (s : State) : Except Fault (Option Reject) :=
  compareChecksum .headerChecksumMismatch (crcOfRange s 1 5) (readLe16 s 6)

/-- Check 4 (R133): the frame checksum over bytes 1..N-4, stored at bytes N-3..N-2. A candidate shorter than four bytes
has no such range. -/
def checkFcs (s : State) : Except Fault (Option Reject) :=
  if s.cnt < 4 then .error .readOutsideCandidate
  else compareChecksum .frameChecksumMismatch (crcOfRange s 1 (s.cnt - 4)) (readLe16 s (s.cnt - 3))

/-- Check 5 (R134): the payload tag at bytes 8..11. -/
def checkTag (s : State) : Except Fault (Option Reject) :=
  match memRead s 8 4 with
  | .error e => .error e
  | .ok bs =>
    if bs.toList ≠ s.cfg.tag.toList then
      .ok (some ⟨.unexpectedPayloadTag, contextWord (bigEndian bs.toList), contextWord (bigEndian s.cfg.tag.toList)⟩)
    else .ok none

/-- Check 6 (R135): the declared length. -/
def checkLen (s : State) : Except Fault (Option Reject) :=
  match readByte s 1 with
  | .error e => .error e
  | .ok b1 =>
    match readByte s 2 with
    | .error e => .error e
    | .ok b2 =>
      if declaredLength b1 b2 ≠ s.cnt then
        .ok (some ⟨.lengthFieldMismatch, contextWord (declaredLength b1 b2), contextWord s.cnt⟩)
      else .ok none

/-- The first failure of a sequence of checks; a later check is not run (R136, 60_exceptions.md R233). -/
def firstFailure : List (State → Except Fault (Option Reject)) → State → Except Fault (Option Reject)
  | [], _ => .ok none
  | c :: cs, s =>
    match c s with
    | .error e => .error e
    | .ok (some j) => .ok (some j)
    | .ok none => firstFailure cs s

/-- The six checks in order (R136). -/
def validate (s : State) : Except Fault (Option Reject) :=
  firstFailure [checkSize, checkFraming, checkHcs, checkFcs, checkTag, checkLen] s

/-- VAL.SIZE (R130). -/
def execValSize (s : State) : Host.Outcome State Fault Refusal := checking s (checkSize s)

/-- VAL.FRAMING (R131). -/
def execValFraming (s : State) : Host.Outcome State Fault Refusal := checking s (checkFraming s)

/-- VAL.HCS (R132). -/
def execValHcs (s : State) : Host.Outcome State Fault Refusal := checking s (checkHcs s)

/-- VAL.FCS (R133). -/
def execValFcs (s : State) : Host.Outcome State Fault Refusal := checking s (checkFcs s)

/-- VAL.TAG (R134). -/
def execValTag (s : State) : Host.Outcome State Fault Refusal := checking s (checkTag s)

/-- VAL.LEN (R135). -/
def execValLen (s : State) : Host.Outcome State Fault Refusal := checking s (checkLen s)

/-- VAL.RUN (R136): `Accept`, or the first failure, which `RES` and `RD` take. -/
def execValRun (s : State) : Host.Outcome State Fault Refusal := checking s (validate s)

end Sys2Proof.Machine
end

