-- ==== Sys2Proof/Machine/Assembler.lean ====
section
/-! DEFINITION. The Frame Assembler (40_assembler.md) and the reset input (70_reset_and_hazards.md R260). -/

namespace Sys2Proof.Machine

/-- ASM.BYTE (R101). -/
def execAsmByte (v : Byte) (s : State) : Host.Outcome State Fault Refusal := .next (s.append v)

/-- ASM.OPEN (R102). -/
def execAsmOpen (v : Byte) (s : State) : Host.Outcome State Fault Refusal := .next (s.append v)

/-- Validate the candidate, decode it if it is accepted, and write `RES` and `RD` from the result (R103). -/
def processCandidate (s : State) : Except Fault State :=
  match validate s with
  | .error e => .error e
  | .ok (some j) => .ok (s.takeReject j)
  | .ok none =>
    match decodeFrame s with
    | .error e => .error e
    | .ok (.error j) => .ok (s.takeReject j)
    | .ok (.ok rd) => .ok (s.takeReading rd)

/-- ASM.CLOSE (R103): append, process, emit and empty the buffer, in one step. -/
def execAsmClose (v : Byte) (s : State) : Host.Outcome State Fault Refusal :=
  match processCandidate (s.append v) with
  | .error e => .fault e
  | .ok t => .next t.finishCandidate

/-- ASM.EMPTY (R105): no state changes. -/
def execAsmEmpty (s : State) : Host.Outcome State Fault Refusal := .next s

/-- RESET (R260): the values of 10_state.md R44; `CFG` is unchanged, no pending input byte is consumed, and
no free value is taken a second time (log entry 6). -/
def execReset (s : State) : Host.Outcome State Fault Refusal :=
  .next { State.reset with cfg := s.cfg, inq := s.inq, draws := s.draws }

end Sys2Proof.Machine
end

