-- ==== Sys2Proof/Machine/Codes.lean ====
section
/-! DEFINITION. The rows of the two code tables: the discriminant (30_encoding.md R78) and the weekday byte (R81). -/

namespace Sys2Proof.Machine

/-- `k <- kind` (44_decoder.md R190). -/
def selectKind (k : LayoutKind) (s : State) : Host.Outcome State Fault Refusal := .next { s with ret := .kind k }

/-- `return (WDAY_P 1, WDAY d)` (43_extract.md R166). -/
def weekdayPresent (d : BitVec 3) (s : State) : Host.Outcome State Fault Refusal :=
  .next { s with ret := .weekday true d }

/-- DISC.ShortSinglePhase. -/
def execDiscShortSinglePhase (s : State) : Host.Outcome State Fault Refusal := selectKind .shortSinglePhase s

/-- DISC.LongSinglePhase. -/
def execDiscLongSinglePhase (s : State) : Host.Outcome State Fault Refusal := selectKind .longSinglePhase s

/-- DISC.ShortThreePhase. -/
def execDiscShortThreePhase (s : State) : Host.Outcome State Fault Refusal := selectKind .shortThreePhase s

/-- DISC.LongThreePhase. -/
def execDiscLongThreePhase (s : State) : Host.Outcome State Fault Refusal := selectKind .longThreePhase s

/-- DISC.UNKNOWN: the failure UnknownLayout. -/
def execDiscUnknown (d : Byte) (s : State) : Host.Outcome State Fault Refusal := .next (s.takeReject (unknownLayout d))

/-- WDAY.Monday. -/
def execWdayMonday (s : State) : Host.Outcome State Fault Refusal := weekdayPresent 1#3 s

/-- WDAY.Tuesday. -/
def execWdayTuesday (s : State) : Host.Outcome State Fault Refusal := weekdayPresent 2#3 s

/-- WDAY.Wednesday. -/
def execWdayWednesday (s : State) : Host.Outcome State Fault Refusal := weekdayPresent 3#3 s

/-- WDAY.Thursday. -/
def execWdayThursday (s : State) : Host.Outcome State Fault Refusal := weekdayPresent 4#3 s

/-- WDAY.Friday. -/
def execWdayFriday (s : State) : Host.Outcome State Fault Refusal := weekdayPresent 5#3 s

/-- WDAY.Saturday. -/
def execWdaySaturday (s : State) : Host.Outcome State Fault Refusal := weekdayPresent 6#3 s

/-- WDAY.Sunday. -/
def execWdaySunday (s : State) : Host.Outcome State Fault Refusal := weekdayPresent 7#3 s

/-- WDAY.ABSENT: `return (WDAY_P 0, WDAY 0)`; the byte's value does not matter beyond selecting the row. -/
def execWdayAbsent (_x : Byte) (s : State) : Host.Outcome State Fault Refusal :=
  .next { s with ret := .weekday false 0#3 }

end Sys2Proof.Machine
end

