-- ==== Sys2Proof/Machine/Dispatch.lean ====
section
/-! DEFINITION. One arm a constructor: each operation's meaning. -/

namespace Sys2Proof.Machine

def exec (i : Instr) (s : State) : Host.Outcome State Fault Refusal :=
  match i with
  -- input events (40_assembler.md, 70_reset_and_hazards.md)
  | .asmByte v => Sys2Proof.Machine.execAsmByte v s
  | .asmOpen v => Sys2Proof.Machine.execAsmOpen v s
  | .asmClose v => Sys2Proof.Machine.execAsmClose v s
  | .asmEmpty => Sys2Proof.Machine.execAsmEmpty s
  | .reset => Sys2Proof.Machine.execReset s
  -- checksum unit (41_crc.md)
  | .crcX25 lo hi => Sys2Proof.Machine.execCrcX25 lo hi s
  -- validator (42_validator.md)
  | .valSize => Sys2Proof.Machine.execValSize s
  | .valFraming => Sys2Proof.Machine.execValFraming s
  | .valHcs => Sys2Proof.Machine.execValHcs s
  | .valFcs => Sys2Proof.Machine.execValFcs s
  | .valTag => Sys2Proof.Machine.execValTag s
  | .valLen => Sys2Proof.Machine.execValLen s
  | .valRun => Sys2Proof.Machine.execValRun s
  -- extraction (43_extract.md)
  | .extU8 o => Sys2Proof.Machine.execExtU8 o s
  | .extBe16 o => Sys2Proof.Machine.execExtBe16 o s
  | .extBe32 o => Sys2Proof.Machine.execExtBe32 o s
  | .extLe16 o => Sys2Proof.Machine.execExtLe16 o s
  | .extBcd8 x => Sys2Proof.Machine.execExtBcd8 x s
  | .extBcd16 o => Sys2Proof.Machine.execExtBcd16 o s
  | .extWday x => Sys2Proof.Machine.execExtWday x s
  | .extTs o => Sys2Proof.Machine.execExtTs o s
  | .extText o n => Sys2Proof.Machine.execExtText o n s
  | .extId o => Sys2Proof.Machine.execExtId o s
  | .extField f o => Sys2Proof.Machine.execExtField f o s
  -- field decoder (44_decoder.md)
  | .decDisc => Sys2Proof.Machine.execDecDisc s
  | .decFit k => Sys2Proof.Machine.execDecFit k s
  | .decCommon k => Sys2Proof.Machine.execDecCommon k s
  | .decThree k => Sys2Proof.Machine.execDecThree k s
  | .decLong k => Sys2Proof.Machine.execDecLong k s
  | .decRun => Sys2Proof.Machine.execDecRun s
  -- discriminant codes (30_encoding.md R78)
  | .discShortSinglePhase => Sys2Proof.Machine.execDiscShortSinglePhase s
  | .discLongSinglePhase => Sys2Proof.Machine.execDiscLongSinglePhase s
  | .discShortThreePhase => Sys2Proof.Machine.execDiscShortThreePhase s
  | .discLongThreePhase => Sys2Proof.Machine.execDiscLongThreePhase s
  | .discUnknown d => Sys2Proof.Machine.execDiscUnknown d s
  -- weekday codes (30_encoding.md R81)
  | .wdayMonday => Sys2Proof.Machine.execWdayMonday s
  | .wdayTuesday => Sys2Proof.Machine.execWdayTuesday s
  | .wdayWednesday => Sys2Proof.Machine.execWdayWednesday s
  | .wdayThursday => Sys2Proof.Machine.execWdayThursday s
  | .wdayFriday => Sys2Proof.Machine.execWdayFriday s
  | .wdaySaturday => Sys2Proof.Machine.execWdaySaturday s
  | .wdaySunday => Sys2Proof.Machine.execWdaySunday s
  | .wdayAbsent x => Sys2Proof.Machine.execWdayAbsent x s

end Sys2Proof.Machine
end

