-- ==== Sys2Proof/Machine/Step.lean ====
section
/-! DEFINITION. One step: an input event is taken, decoded and executed (00_scope.md R5). -/

namespace Sys2Proof.Machine

/-- One step. An illegal configuration is refused before anything is taken (70_reset_and_hazards.md R263). -/
def step (s : State) : Host.Outcome State Fault Refusal :=
  if s.cfg.legal then
    match decodeStimulus s.cfg.sentinel s.cnt (fetch s).1 with
    | .ok i => exec i (fetch s).2
    | .error e => .refused (.illegalWord e)
  else .refused .illegalConfiguration

/-- The state with one more input, placed where the next step takes it (log entry 9). -/
def State.withFetchWord (s : State) (nbits w : Nat) : State :=
  { s with inq := stimulusOfTableWord nbits w :: s.inq }

end Sys2Proof.Machine
end

