-- ==== Sys2Proof/Machine/Interface.lean ====
section
/-! DEFINITION. What the environment does to the engine (30_encoding.md R70-R72, R85; 70_reset_and_hazards.md R263, R264):
it supplies a configuration at power-on, and appends reads and resets to the pending input. -/

namespace Sys2Proof.Machine

/-- Power-on with a configuration (R260, R263); a new configuration is taken no other way (R264). -/
def State.powerOn (c : Config) : State := { State.reset with cfg := c }

/-- The input events of one read: one a byte, or one empty read (R71). -/
def readEvents : List Byte → List Stimulus
  | [] => [.empty]
  | b :: bs => (b :: bs).map .byte

/-- The byte source answers a read (R70, R71). -/
def State.offerRead (s : State) (bs : List Byte) : State := { s with inq := s.inq ++ readEvents bs }

/-- The reset input (R72). -/
def State.offerReset (s : State) : State := { s with inq := s.inq ++ [.reset] }

/-- One line of a stimulus script (R85); `frame` carries the bytes of the named frame. -/
inductive ScriptLine where
  | reset
  | bytes (bs : List Byte)
  | empty
  | frame (bs : List Byte)
  | comment
deriving DecidableEq, Repr

/-- The events of a script line (R85); FRAME expands to BYTES. -/
def scriptEvents : ScriptLine → List Stimulus
  | .reset => [.reset]
  | .bytes bs => bs.map .byte
  | .empty => [.empty]
  | .frame bs => bs.map .byte
  | .comment => []

/-- A whole script is offered in order (R85). -/
def State.offerScript (s : State) (script : List ScriptLine) : State :=
  { s with inq := s.inq ++ script.flatMap scriptEvents }

end Sys2Proof.Machine
end

