-- ==== Sys2Proof/Safety.lean ====
section
/-! DEFINITION. The terms the claims use: what a candidate's bytes are, what a register shows, and the invariant of the
states the engine reaches by input events. -/

namespace Sys2Proof.Machine

/-! ### Bytes of the candidate -/

/-- The candidate's bytes at `i, i+1, …` are `bs`: they lie below `CNT` and `BUF` holds them (20_memory.md R51). -/
def State.holds (s : State) (i : Nat) (bs : List Byte) : Prop :=
  i + bs.length ≤ s.cnt ∧ ∀ k, k < bs.length → s.buf.get? (i + k) = bs[k]?

/-- The candidate has bytes at `i, …, i+n-1`, and `BUF` holds them. -/
def State.readable (s : State) (i n : Nat) : Prop :=
  i + n ≤ s.cnt ∧ ∀ k, k < n → (s.buf.get? (i + k)).isSome = true

/-- `BUF` holds a value exactly below `min(CNT, BUF_CAP)` (10_state.md R30, R32). -/
def State.bufferFilled (s : State) : Prop :=
  ∀ i, (s.buf.get? i).isSome = true ↔ i < min s.cnt s.cfg.bufCap

/-- Every byte of the candidate is held by `BUF`. -/
def State.candidateStored (s : State) : Prop :=
  ∀ i, i < s.cnt → (s.buf.get? i).isSome = true

/-! ### Registers -/

/-- The state of a failed candidate (60_exceptions.md R234, items 1 and 2), with the failure returned to the caller. -/
def State.rejectedAs (s : State) (code : Code) (obs exp : Word) : State :=
  { s with
    res := { valid := true, ok := false, code := code, obs := obs, exp := exp }
    rd := Reading.absent (Config.freeKind s.draws)
    draws := s.draws + 1
    ret := .reject { code := code, obs := obs, exp := exp } }

/-- The state in which a check has passed: nothing is written but the value returned to the caller. -/
def State.passed (s : State) : State := { s with ret := .pass }

/-- A field of `RD` as the pair EXT.FIELD returns, `none` where the field is absent (10_state.md R36, R38). -/
def Reading.field? (rd : Reading) : Field → Option FieldValue
  | .capTs => rd.capTs.map .timestamp
  | .listVersion => rd.listVersion.map fun t => .text t.ident t.val.toList
  | .meterSerial => rd.meterSerial.map fun t => .text t.ident t.val.toList
  | .meterType => rd.meterType.map fun t => .text t.ident t.val.toList
  | .pImp => rd.pImp.map .u32
  | .pExp => rd.pExp.map .u32
  | .qImp => rd.qImp.map .u32
  | .qExp => rd.qExp.map .u32
  | .currentL1 => rd.currentL1.map .u32
  | .voltageL1 => rd.voltageL1.map .u16
  | .currentL2 => rd.currentL2.map .u32
  | .voltageL2 => rd.voltageL2.map .u16
  | .currentL3 => rd.currentL3.map .u32
  | .voltageL3 => rd.voltageL3.map .u16
  | .meterTs => rd.meterTs.map .timestamp
  | .eaImp => rd.eaImp.map .u32
  | .eaExp => rd.eaExp.map .u32
  | .erImp => rd.erImp.map .u32
  | .erExp => rd.erExp.map .u32

/-- A Reading of a decoded candidate: its kind, its two flags and its present fields agree (10_state.md R35, R36, R38). -/
def Reading.complete (rd : Reading) (c : Config) : Prop :=
  ∃ k, rd.kind = k.bits ∧ rd.threeP = k.three ∧ rd.longP = k.long ∧
    ∀ f, (rd.field? f).isSome = (c.off k f).isSome

/-- A result record as R73 has it: an Ok record has code and context 0 and a complete Reading, a failure record a code
and no Reading. -/
def Record.wf (r : Record) (c : Config) : Prop :=
  (r.ok = true → r.code = .ok ∧ r.obs = 0#32 ∧ r.exp = 0#32 ∧ r.reading.complete c) ∧
  (r.ok = false → r.code ≠ .ok ∧ ∃ kind, r.reading = Reading.absent kind)

/-! ### The invariant -/

/-- What holds in every state that input events reach from power-on with a legal configuration. -/
structure State.Inv (s : State) : Prop where
  /-- the configuration is legal (70_reset_and_hazards.md R263) -/
  legal : s.cfg.legal = true
  /-- `BUF` is in canonical form -/
  canonical : s.buf.wf = true
  /-- `BUF` holds exactly the first `min(CNT, BUF_CAP)` entries (10_state.md R32) -/
  filled : s.bufferFilled
  /-- `CNT` has not passed its largest value (10_state.md R31) -/
  bounded : s.cnt ≤ cntMax s.cfg
  /-- every record is well-formed (30_encoding.md R73) -/
  records : ∀ r ∈ s.out, r.wf s.cfg
  /-- `RES` and `RD` are the latest record's, or at their reset values while there is none (10_state.md R34, R40, R44) -/
  latest : s.out.getLast? = if s.res.valid then some s.record else none
  /-- before the first record `RES` and `RD` are at their reset values, which give `RD.KIND` no value (10_state.md R44) -/
  untouched : s.res.valid = false → s.res = State.reset.res ∧ ∃ kind, s.rd = Reading.absent kind
  /-- only the spec's own input events are pending (30_encoding.md R72) -/
  input : ∀ e ∈ s.inq, e.isInput = true
  /-- no value is left over between steps (10_state.md R33) -/
  idle : s.ret = .none

end Sys2Proof.Machine
end

