-- ==== Sys2Proof/Certificates/Slice0/Obligations.lean ====
section
/-! DEFINITION. The statements about the engine. A docstring names the rule a statement formalises; where a clause rests on a
choice of the model, it names the log entry. -/

open Sys2Proof Sys2Proof.Machine

/-! ### Reset, configuration, invariant -/

/-- R260: on the RESET input and at power-on the engine takes its reset values, `CFG` is unchanged, and a step that takes a
RESET consumes nothing else. -/
def Obligations.ResetInputRestoresResetValues : Prop :=
  (∀ s : State, ∃ t, exec .reset s = .next t ∧
    t.cnt = 0 ∧ t.res = { valid := false, ok := false, code := .ok, obs := 0#32, exp := 0#32 } ∧
    (∀ f, t.rd.field? f = none) ∧ t.rd.threeP = false ∧ t.rd.longP = false ∧
    t.rd.capWdayP = false ∧ t.rd.meterWdayP = false ∧ t.out = [] ∧ t.cfg = s.cfg ∧ t.inq = s.inq) ∧
  (∀ (s : State) rest, s.cfg.legal = true → s.inq = .reset :: rest → step s = exec .reset { s with inq := rest }) ∧
  (∀ c : Config, (State.powerOn c).cfg = c ∧ (State.powerOn c).cnt = 0 ∧
    (State.powerOn c).res = { valid := false, ok := false, code := .ok, obs := 0#32, exp := 0#32 } ∧
    (∀ f, (State.powerOn c).rd.field? f = none) ∧ (State.powerOn c).rd.threeP = false ∧
    (State.powerOn c).rd.longP = false ∧ (State.powerOn c).rd.capWdayP = false ∧
    (State.powerOn c).rd.meterWdayP = false ∧ (State.powerOn c).out = [])

/-- The invariant holds at State.reset, and at power-on with every legal configuration. -/
def Obligations.PowerOnSatisfiesTheEngineInvariant : Prop :=
  State.reset.Inv ∧ ∀ c : Config, c.legal = true → (State.powerOn c).Inv

/-- Every step keeps the invariant: from every state that meets it, not only from states a run reaches. -/
def Obligations.EveryStepKeepsTheEngineInvariant : Prop :=
  ∀ s t : State, s.Inv → step s = .next t → t.Inv

/-- R236: no failure is fatal; whatever the input, a step answers a next state. -/
def Obligations.EngineNeverStopsOnAnyInput : Prop :=
  ∀ s : State, s.Inv → ∃ t, step s = .next t

/-- Every operation, also one run by itself, keeps the frame buffer in canonical form. -/
def Obligations.EveryOperationKeepsBufferCanonical : Prop :=
  ∀ (i : Instr) (s t : State), s.buf.wf = true → exec i s = .next t → t.buf.wf = true

/-- R20: no operation writes `CFG`, and it holds for the whole run. -/
def Obligations.NoOperationWritesConfiguration : Prop :=
  (∀ (i : Instr) (s t : State), exec i s = .next t → t.cfg = s.cfg) ∧
  ∀ (k : Nat) (s t : State), core.run k s = .next t → t.cfg = s.cfg

/-- R194 with R263: a step refuses exactly the configurations that break W1 to W6 or one of the other legal ranges R263 names
(those of R23, R26, R28 and R29). That every step makes the check, and `exec` none, is the model's choice (log entry 14). -/
def Obligations.IllegalConfigurationsAreRefused : Prop :=
  ∀ s : State, step s = .refused .illegalConfiguration ↔
    ¬ (12 ≤ s.cfg.discOff ∧ s.cfg.discOff ≤ 176 ∧
      [s.cfg.tsSub.year, s.cfg.tsSub.year + 1, s.cfg.tsSub.month, s.cfg.tsSub.day, s.cfg.tsSub.weekday, s.cfg.tsSub.hour,
        s.cfg.tsSub.minute, s.cfg.tsSub.second].Nodup ∧
      (∀ f o, s.cfg.layout.place f = (.common, o) → 7 ≤ o ∧ o + s.cfg.width f - 1 ≤ s.cfg.layout.ph1End) ∧
      s.cfg.layout.ph1End ≤ 176 ∧
      1 ≤ s.cfg.layout.ph23Len ∧
      (∀ f r, s.cfg.layout.place f = (.three, r) → 6 ≤ r ∧ r + s.cfg.width f - 1 ≤ s.cfg.layout.ph23Len - 1) ∧
      1 ≤ s.cfg.layout.longLen ∧
      (∀ f r, s.cfg.layout.place f = (.long, r) → 6 ≤ r ∧ r + s.cfg.width f - 1 ≤ s.cfg.layout.longLen - 1) ∧
      (∀ k f g o p i, s.cfg.off k f = some o → s.cfg.off k g = some p → o ≤ i → i < o + s.cfg.width f →
        p ≤ i → i < p + s.cfg.width g → f = g) ∧
      (∀ k f o, s.cfg.off k f = some o → ¬ (o ≤ s.cfg.discOff ∧ s.cfg.discOff < o + s.cfg.width f)) ∧
      s.cfg.layout.ph1End + s.cfg.layout.ph23Len + s.cfg.layout.longLen ≤ 298 ∧
      302 ≤ s.cfg.bufCap ∧ 302 < 2 ^ s.cfg.cntW - 1)

/-- R192: the blocks and the extent of every kind. -/
def Obligations.BlocksFollowEachOther : Prop :=
  ∀ (c : Config) (k : LayoutKind),
    let three : Prop := k = .shortThreePhase ∨ k = .longThreePhase
    let long : Prop := k = .longSinglePhase ∨ k = .longThreePhase
    c.phaseEnd k = c.layout.ph1End + (if three then c.layout.ph23Len else 0) ∧
    c.ph23Start = c.layout.ph1End + 1 ∧
    c.longStart k = c.phaseEnd k + 1 ∧
    c.extent k = c.phaseEnd k + (if long then c.layout.longLen else 0)

/-- The offsets that the spec infers from R192 (its R193): where each field of each kind is, and which kinds have it. -/
def Obligations.FieldOffsetsAreComputedFromBlocks : Prop :=
  ∀ (c : Config) (k : LayoutKind),
    let three : Prop := k = .shortThreePhase ∨ k = .longThreePhase
    let long : Prop := k = .longSinglePhase ∨ k = .longThreePhase
    let lay := c.layout
    (∀ p ∈ [(Field.capTs, lay.commonOff.capTs), (.listVersion, lay.commonOff.listVersion),
        (.meterSerial, lay.commonOff.meterSerial), (.meterType, lay.commonOff.meterType), (.pImp, lay.commonOff.pImp),
        (.pExp, lay.commonOff.pExp), (.qImp, lay.commonOff.qImp), (.qExp, lay.commonOff.qExp),
        (.currentL1, lay.commonOff.currentL1), (.voltageL1, lay.commonOff.voltageL1)], c.off k p.1 = some p.2) ∧
    (∀ p ∈ [(Field.currentL2, lay.ph23Rel.currentL2), (.voltageL2, lay.ph23Rel.voltageL2),
        (.currentL3, lay.ph23Rel.currentL3), (.voltageL3, lay.ph23Rel.voltageL3)],
      c.off k p.1 = if three then some (c.ph23Start + p.2) else none) ∧
    (∀ p ∈ [(Field.meterTs, lay.longRel.meterTs), (.eaImp, lay.longRel.eaImp), (.eaExp, lay.longRel.eaExp),
        (.erImp, lay.longRel.erImp), (.erExp, lay.longRel.erExp)],
      c.off k p.1 = if long then some (c.longStart k + p.2) else none)

/-- What the spec infers from its layout rules (R197): the extents under REF, and under any layout the shift of the long block
by `PH23_LEN`. -/
def Obligations.LongBlockShiftsByThePhaseBlock : Prop :=
  (Config.ref.extent .shortSinglePhase = 176 ∧ Config.ref.extent .shortThreePhase = 224 ∧
    Config.ref.extent .longSinglePhase = 250 ∧ Config.ref.extent .longThreePhase = 298) ∧
  ∀ (c : Config) (f : Field), f ∈ [Field.meterTs, .eaImp, .eaExp, .erImp, .erExp] →
    ∃ o, c.off .longSinglePhase f = some o ∧ c.off .longThreePhase f = some (o + c.layout.ph23Len)

/-- The reference layout, the spec's own choice, with the offsets it infers per kind (R196), legal with W2 and W6 met with
equality. -/
def Obligations.ReferenceLayoutHasTheTabulatedOffsets : Prop :=
  Config.ref.legal = true ∧ Config.ref.layout.ph1End = 176 ∧ Config.ref.layout.ph23Len = 48 ∧
  Config.ref.layout.longLen = 74 ∧
  Config.ref.layout.ph1End + Config.ref.layout.ph23Len + Config.ref.layout.longLen = 298 ∧
  ∀ row ∈ [
      (Field.capTs, some 17, some 17, some 17, some 17), (.listVersion, some 33, some 33, some 33, some 33),
      (.meterSerial, some 57, some 57, some 57, some 57), (.meterType, some 83, some 83, some 83, some 83),
      (.pImp, some 110, some 110, some 110, some 110), (.pExp, some 123, some 123, some 123, some 123),
      (.qImp, some 136, some 136, some 136, some 136), (.qExp, some 149, some 149, some 149, some 149),
      (.currentL1, some 162, some 162, some 162, some 162), (.voltageL1, some 175, some 175, some 175, some 175),
      (.currentL2, none, none, some 186, some 186), (.voltageL2, none, none, some 199, some 199),
      (.currentL3, none, none, some 210, some 210), (.voltageL3, none, none, some 223, some 223),
      (.meterTs, none, some 187, none, some 235), (.eaImp, none, some 208, none, some 256),
      (.eaExp, none, some 221, none, some 269), (.erImp, none, some 234, none, some 282),
      (.erExp, none, some 247, none, some 295)],
    Config.ref.off .shortSinglePhase row.1 = row.2.1 ∧ Config.ref.off .longSinglePhase row.1 = row.2.2.1 ∧
    Config.ref.off .shortThreePhase row.1 = row.2.2.2.1 ∧ Config.ref.off .longThreePhase row.1 = row.2.2.2.2

/-! ### Steps and input events -/

/-- R72: what each input event selects, by the byte, the sentinel and `CNT`. -/
def Obligations.InputEventsSelectTheirOperation : Prop :=
  ∀ (s : State) (rest : List Stimulus), s.cfg.legal = true →
    (∀ v : Byte, s.inq = .byte v :: rest → v ≠ s.cfg.sentinel → step s = exec (.asmByte v) { s with inq := rest }) ∧
    (∀ v : Byte, s.inq = .byte v :: rest → v = s.cfg.sentinel → s.cnt = 0 →
      step s = exec (.asmOpen v) { s with inq := rest }) ∧
    (∀ v : Byte, s.inq = .byte v :: rest → v = s.cfg.sentinel → 1 ≤ s.cnt →
      step s = exec (.asmClose v) { s with inq := rest }) ∧
    (s.inq = .empty :: rest → step s = exec .asmEmpty { s with inq := rest }) ∧
    (s.inq = .reset :: rest → step s = exec .reset { s with inq := rest })

/-- A step takes the next stimulus and executes the operation it decodes to. The pending input, the empty read of an engine
with nothing pending and the operation words are the model's (log entries 7 and 9). -/
def Obligations.StepExecutesTheDecodedOperation : Prop :=
  (∀ (s : State) (i : Instr), s.cfg.legal = true → decodeStimulus s.cfg.sentinel s.cnt (fetch s).1 = .ok i →
    step s = exec i (fetch s).2) ∧
  (∀ s : State, (fetch s).1 = s.inq.headD .empty ∧ (fetch s).2 = { s with inq := s.inq.tail }) ∧
  (∀ s : State, s.cfg.legal = true → s.inq = [] → step s = .next s) ∧
  (∀ (s : State) (i : Instr) (rest : List Stimulus), s.cfg.legal = true → i.wf = true →
    s.inq = .direct (encode i) :: rest → step s = exec i { s with inq := rest })

/-- R105: an empty read changes no state, however many stand between two bytes. -/
def Obligations.EmptyReadsChangeNothing : Prop :=
  (∀ s : State, exec .asmEmpty s = .next s) ∧
  (∀ (k : Nat) (s : State) (rest : List Stimulus), s.cfg.legal = true → s.inq = List.replicate k .empty ++ rest →
    core.run k s = .next { s with inq := rest })

/-- R71: a chunk of bytes is its bytes one at a time, so where one read ends and the next begins changes nothing. -/
def Obligations.ChunkBoundariesHaveNoEffect : Prop :=
  (∀ (s : State) (b : Byte) (bs cs : List Byte), cs ≠ [] →
    s.offerRead (b :: (bs ++ cs)) = (s.offerRead (b :: bs)).offerRead cs) ∧
  (∀ (s : State) (b : Byte) (bs : List Byte), s.offerRead (b :: bs) = (b :: bs).foldl (fun u v => u.offerRead [v]) s) ∧
  (∀ (s : State) (b : Byte) (bs : List Byte), (s.offerRead (b :: bs)).inq = s.inq ++ (b :: bs).map .byte) ∧
  (∀ s : State, (s.offerRead []).inq = s.inq ++ [.empty])

/-- R101: ASM.BYTE appends its byte at `CNT` while there is room, counts it until `CNT` saturates, and changes nothing else. -/
def Obligations.NonSentinelByteIsAppended : Prop :=
  ∀ (s : State) (v : Byte), ∃ t, exec (.asmByte v) s = .next t ∧
    t.cnt = (if s.cnt < 2 ^ s.cfg.cntW - 1 then s.cnt + 1 else s.cnt) ∧
    (∀ a, t.buf.get? a =
      if a = s.cnt ∧ s.cnt < s.cfg.bufCap ∧ s.cnt < 2 ^ s.cfg.cntW - 1 then some v else s.buf.get? a) ∧
    t.cfg = s.cfg ∧ t.res = s.res ∧ t.rd = s.rd ∧ t.out = s.out ∧ t.inq = s.inq ∧ t.ret = s.ret ∧ t.draws = s.draws

/-- R102: ASM.OPEN on the empty buffer makes the sentinel `b[0]` of the next candidate and emits nothing. -/
def Obligations.SentinelOpensACandidate : Prop :=
  ∀ (s : State) (v : Byte), s.cfg.legal = true → s.cnt = 0 → ∃ t, exec (.asmOpen v) s = .next t ∧
    t.cnt = 1 ∧ t.buf.get? 0 = some v ∧ (∀ a, a ≠ 0 → t.buf.get? a = s.buf.get? a) ∧
    t.cfg = s.cfg ∧ t.res = s.res ∧ t.rd = s.rd ∧ t.out = s.out ∧ t.inq = s.inq ∧ t.ret = s.ret ∧ t.draws = s.draws

/-- R73: a close answers for every filled buffer and emits exactly one record, a copy of `RES` and `RD`, of the form R73 gives. -/
def Obligations.ClosingEmitsExactlyOneRecord : Prop :=
  ∀ (s : State) (v : Byte), s.cfg.legal = true → s.bufferFilled → ∃ t r, exec (.asmClose v) s = .next t ∧
    t.out = s.out ++ [r] ∧ t.cnt = 0 ∧ t.res.valid = true ∧
    r = { ok := t.res.ok, code := t.res.code, obs := t.res.obs, exp := t.res.exp, reading := t.rd } ∧
    (r.ok = true → r.code = .ok ∧ r.obs = 0#32 ∧ r.exp = 0#32) ∧
    (r.ok = false → r.code ≠ .ok ∧ ∃ kind, r.reading = Reading.absent kind) ∧
    t.cfg = s.cfg ∧ t.inq = s.inq

/-- R103: a close appends, runs VAL.RUN, runs DEC.RUN on an accepted candidate, writes `RES` and `RD` from the result, emits
the record and clears `CNT`, in one step. -/
def Obligations.ClosingRunsValidatorThenDecoder : Prop :=
  ∀ (s a u : State) (v : Byte), exec (.asmByte v) s = .next a → exec .valRun a = .next u →
    let closesWith (r : State) : Prop := ∃ t, exec (.asmClose v) s = .next t ∧ t.res = r.res ∧ t.rd = r.rd ∧
      t.out = s.out ++ [{ ok := r.res.ok, code := r.res.code, obs := r.res.obs, exp := r.res.exp, reading := r.rd }] ∧
      t.cnt = 0 ∧ t.cfg = s.cfg ∧ t.inq = s.inq
    (∀ j, u.ret = .reject j → closesWith u) ∧
    (u.ret = .pass → ∀ w, exec .decRun u = .next w → closesWith w)

/-- A closed or reset buffer holds no value at any entry: the model's choice (log entry 3). -/
def Obligations.ClosedBufferHoldsNoValue : Prop :=
  ∀ (s t : State) (v : Byte), exec (.asmClose v) s = .next t ∨ exec .reset s = .next t → ∀ a, t.buf.get? a = none

/-- R234: what the failure of a candidate does, whether a check of the validator or the decoder reports it: `RES` with its
code and context, `RD` all none, one record, the bytes discarded, nothing else changed. `RD.KIND` is then not valid (R35),
and the statement says nothing of its bits. -/
def Obligations.FailedCandidateLeavesOnlyItsRecord : Prop :=
  ∀ (s a u : State) (v : Byte) (j : Reject), exec (.asmByte v) s = .next a →
    ((exec .valRun a = .next u ∧ u.ret = .reject j) ∨
      ∃ p, exec .valRun a = .next p ∧ p.ret = .pass ∧ exec .decRun p = .next u ∧ u.ret = .reject j) →
    ∃ t, exec (.asmClose v) s = .next t ∧
      t.res = { valid := true, ok := false, code := j.code, obs := j.obs, exp := j.exp } ∧ j.code ≠ .ok ∧
      (∀ f, t.rd.field? f = none) ∧ t.rd.threeP = false ∧ t.rd.longP = false ∧
      t.rd.capWdayP = false ∧ t.rd.meterWdayP = false ∧
      t.out = s.out ++ [{ ok := false, code := j.code, obs := j.obs, exp := j.exp, reading := t.rd }] ∧
      t.cnt = 0 ∧ t.cfg = s.cfg ∧ t.inq = s.inq

/-- R40: a step that closes a candidate appends one record, a reset empties `OUT`, and no other step writes `OUT`,
`RES` or `RD`; `OUT` is never read. -/
def Obligations.OnlyAClosingStepWritesResults : Prop :=
  ∀ s t : State, (∀ e ∈ s.inq, e.isInput = true) → step s = .next t →
    (s.inq.head? = some (.byte s.cfg.sentinel) → 1 ≤ s.cnt → ∃ r, t.out = s.out ++ [r]) ∧
    (s.inq.head? = some .reset → t.out = []) ∧
    (¬ (s.inq.head? = some (.byte s.cfg.sentinel) ∧ 1 ≤ s.cnt) → s.inq.head? ≠ some .reset →
      t.out = s.out ∧ t.res = s.res ∧ t.rd = s.rd) ∧
    (∀ o, ∃ u, step { s with out := o } = .next u ∧ { u with out := [] } = { t with out := [] })

/-- R42: a step depends on `CFG`, `BUF`, `CNT` and the input alone; what `RES`, `RD` and `OUT` held before
changes neither the next assembler state nor the result of a candidate. After a failure `RD.KIND` is not valid (R35), and
its free bits (log entry 6) are no part of the result. -/
def Obligations.ResultsDependOnTheCandidateAlone : Prop :=
  ∀ s s' t : State, (∀ e ∈ s.inq, e.isInput = true) → s'.cfg = s.cfg → s'.buf = s.buf → s'.cnt = s.cnt → s'.inq = s.inq →
    step s = .next t → ∃ t', step s' = .next t' ∧
      t'.cfg = t.cfg ∧ t'.buf = t.buf ∧ t'.cnt = t.cnt ∧ t'.inq = t.inq ∧
      (s.inq.head? = some (.byte s.cfg.sentinel) → 1 ≤ s.cnt →
        t'.res = t.res ∧ { t'.rd with kind := 0#2 } = { t.rd with kind := 0#2 } ∧ (t.res.ok = true → t'.rd = t.rd) ∧
        t.out = s.out ++ [t.record] ∧ t'.out = s'.out ++ [t'.record])

/-- What the spec infers from R102 and R103 (its R110): a run of `k` sentinels on an empty buffer emits `⌊k/2⌋` records, each of a candidate of length 2, and leaves
`CNT = k mod 2`. -/
def Obligations.SentinelRunEmitsHalfAsManyRecords : Prop :=
  ∀ (k : Nat) (s : State) (rest : List Stimulus), s.cfg.legal = true → s.cnt = 0 → s.bufferFilled →
    s.inq = List.replicate k (.byte s.cfg.sentinel) ++ rest →
    ∃ t, core.run k s = .next t ∧ t.cnt = k % 2 ∧ t.inq = rest ∧ t.cfg = s.cfg ∧
      ∃ recs, t.out = s.out ++ recs ∧ recs.length = k / 2 ∧ ∀ r ∈ recs, ∃ kind,
        r = { ok := false, code := .sizeOutOfRange, obs := 2#32, exp := 0x00B4012E#32, reading := Reading.absent kind }

/-- The invariant of the assembler registers that the spec infers (its R32): after bytes that close no candidate, `CNT` is their number, saturated, `BUF` holds the first `min(CNT, BUF_CAP)` of
them in order of arrival, and a candidate longer than the buffer fails check 1 with no byte read. -/
def Obligations.BufferHoldsTheFirstBytesInOrder : Prop :=
  ∀ (b : Byte) (bs : List Byte) (s : State) (rest : List Stimulus), s.cfg.legal = true → s.cnt = 0 → s.bufferFilled →
    (∀ x ∈ bs, x ≠ s.cfg.sentinel) → s.inq = (b :: bs).map .byte ++ rest →
    ∃ t, core.run (bs.length + 1) s = .next t ∧ t.cnt = min (bs.length + 1) (2 ^ s.cfg.cntW - 1) ∧
      (∀ i, i < min t.cnt s.cfg.bufCap → t.buf.get? i = (b :: bs)[i]?) ∧
      t.inq = rest ∧ t.out = s.out ∧ t.res = s.res ∧ t.rd = s.rd ∧
      (s.cfg.bufCap < t.cnt → ∀ m : Memory, ∃ u, exec .valRun { t with buf := m } = .next u ∧ u.res.code = .sizeOutOfRange)

/-! ### The checksum unit -/

/-- R121 and R122: CRC.X25 returns the CRC-16/X25 of its range, bit by bit as R121 has it, 0x0000 for an empty range wherever
it lies, and changes nothing else. -/
def Obligations.ChecksumFollowsTheBitSerialDefinition : Prop :=
  let bit (crc : Half) : Half := if crc &&& 1#16 = 1#16 then (crc >>> 1) ^^^ 0x8408#16 else crc >>> 1
  (∀ (s : State) (lo hi : Nat) (bs : List Byte), 1 ≤ lo → hi + 4 ≤ s.cnt → s.holds lo bs → bs.length = hi + 1 - lo →
    let checksum : Half := bs.foldl (fun crc x => bit^[8] (crc ^^^ x.setWidth 16)) 0xFFFF#16 ^^^ 0xFFFF#16
    exec (.crcX25 lo hi) s = .next { s with ret := .half checksum }) ∧
  ∀ (s : State) (lo hi : Nat), 1 ≤ lo → hi + 4 ≤ s.cnt → hi < lo →
    exec (.crcX25 lo hi) s = .next { s with ret := .half 0x0000#16 }

/-- CRC.X25 on a range that R122's bounds `1 ≤ lo` and `hi ≤ N - 4` leave out: it returns the checksum as inside them, while
every byte of the range is held. This is the model's choice (log entry 20). -/
def Obligations.ChecksumRangeMayPassItsBounds : Prop :=
  ∀ (s : State) (lo hi : Nat), lo = 0 ∨ s.cnt < hi + 4 →
    (∀ bs : List Byte, s.holds lo bs → bs.length = hi + 1 - lo →
      exec (.crcX25 lo hi) s = .next { s with ret := .half (crc16x25 bs) }) ∧
    (hi < lo → exec (.crcX25 lo hi) s = .next { s with ret := .half 0x0000#16 })

/-- The residue the spec notes in R124: bytes followed by their own checksum, low byte first, leave 0xF0B8. -/
def Obligations.ChecksumResidueIsConstant : Prop :=
  ∀ bs : List Byte, crcRegister 0xFFFF#16
    (bs ++ [(crc16x25 bs).extractLsb' 0 8, (crc16x25 bs).extractLsb' 8 8]) = 0xF0B8#16

/-- The spec's note R125: a change of one byte always changes the checksum. -/
def Obligations.ChecksumDetectsOneChangedByte : Prop :=
  ∀ (as bs : List Byte) (x y : Byte), x ≠ y → crc16x25 (as ++ x :: bs) ≠ crc16x25 (as ++ y :: bs)

/-! ### The validator -/

/-- VAL.SIZE (R130). The observed word of a length of 2^32 or more is a free value (log entry 11). -/
def Obligations.SizeCheckBoundsTheLength : Prop :=
  ∀ s : State, ∃ obs : Word, (s.cnt < 4294967296 → obs = BitVec.ofNat 32 s.cnt) ∧
    exec .valSize s = .next
      (if s.cnt < 180 ∨ 302 < s.cnt then s.rejectedAs .sizeOutOfRange obs 0x00B4012E#32 else s.passed)

/-- R131: VAL.FRAMING in its three modes. -/
def Obligations.FramingCheckFollowsItsMode : Prop :=
  ∀ (s : State) (first last : Byte), s.holds 0 [first] → s.holds (s.cnt - 1) [last] →
    let fails : Prop := match s.cfg.framing with
      | .bothSentinel => first ≠ s.cfg.sentinel ∨ last ≠ s.cfg.sentinel
      | .leadingZero => first = 0#8 ∧ last = s.cfg.sentinel
      | .off => False
    (fails → exec .valFraming s = .next (s.rejectedAs .framingMismatch
      (first.setWidth 32 <<< 8 ||| last.setWidth 32) (s.cfg.sentinel.setWidth 32 <<< 8 ||| s.cfg.sentinel.setWidth 32))) ∧
    (¬ fails → exec .valFraming s = .next s.passed)

/-- R132: VAL.HCS. -/
def Obligations.HeaderChecksumIsCompared : Prop :=
  ∀ (s : State) (hdr : List Byte) (lo hi : Byte), hdr.length = 5 → s.holds 1 (hdr ++ [lo, hi]) →
    let stored : Half := BitVec.ofNat 16 (lo.toNat + 256 * hi.toNat)
    (crc16x25 hdr = stored → exec .valHcs s = .next s.passed) ∧
    (crc16x25 hdr ≠ stored → exec .valHcs s = .next
      (s.rejectedAs .headerChecksumMismatch (stored.setWidth 32) ((crc16x25 hdr).setWidth 32)))

/-- R133: VAL.FCS. -/
def Obligations.FrameChecksumIsCompared : Prop :=
  ∀ (s : State) (body : List Byte) (lo hi : Byte), 4 ≤ s.cnt → body.length = s.cnt - 4 → s.holds 1 (body ++ [lo, hi]) →
    let stored : Half := BitVec.ofNat 16 (lo.toNat + 256 * hi.toNat)
    (crc16x25 body = stored → exec .valFcs s = .next s.passed) ∧
    (crc16x25 body ≠ stored → exec .valFcs s = .next
      (s.rejectedAs .frameChecksumMismatch (stored.setWidth 32) ((crc16x25 body).setWidth 32)))

/-- R134: VAL.TAG. -/
def Obligations.PayloadTagIsCompared : Prop :=
  ∀ (s : State) (b8 b9 b10 b11 : Byte), s.holds 8 [b8, b9, b10, b11] →
    ([b8, b9, b10, b11] = s.cfg.tag.toList → exec .valTag s = .next s.passed) ∧
    ([b8, b9, b10, b11] ≠ s.cfg.tag.toList → exec .valTag s = .next
      (s.rejectedAs .unexpectedPayloadTag (b8 ++ b9 ++ b10 ++ b11)
        (s.cfg.tag[0] ++ s.cfg.tag[1] ++ s.cfg.tag[2] ++ s.cfg.tag[3])))

/-- VAL.LEN (R135 with R76). The expected word of a length of 2^32 or more is a free value (log entry 11). -/
def Obligations.DeclaredLengthIsCompared : Prop :=
  ∀ (s : State) (b1 b2 : Byte), s.holds 1 [b1, b2] →
    let decl : Nat := (((b1 &&& 0x0F#8).setWidth 12 <<< 8) ||| b2.setWidth 12).toNat + 2
    (decl = s.cnt → exec .valLen s = .next s.passed) ∧
    (decl ≠ s.cnt → ∃ exp : Word, (s.cnt < 4294967296 → exp = BitVec.ofNat 32 s.cnt) ∧
      exec .valLen s = .next (s.rejectedAs .lengthFieldMismatch (BitVec.ofNat 32 decl) exp))

/-- R136: the six checks run in order, the first that fails is the result, and a later one is not run. -/
def Obligations.ValidatorReportsTheFirstFailure : Prop :=
  ∀ s : State,
    ((∀ i ∈ [Instr.valSize, .valFraming, .valHcs, .valFcs, .valTag, .valLen], exec i s = .next s.passed) →
      exec .valRun s = .next s.passed) ∧
    (∀ (pre post : List Instr) (i : Instr) (u : State),
      [Instr.valSize, .valFraming, .valHcs, .valFcs, .valTag, .valLen] = pre ++ i :: post →
      (∀ j ∈ pre, exec j s = .next s.passed) → exec i s = .next u → u ≠ s.passed →
      exec .valRun s = .next u ∧ ∃ code obs exp, u = s.rejectedAs code obs exp)

/-- What the spec infers from the checks (its R137): VAL.RUN answers for every candidate of a filled buffer; on a wrong length it is VAL.SIZE whatever `BUF` holds. -/
def Obligations.ValidatorAnswersOnEveryCandidate : Prop :=
  (∀ s : State, s.cfg.legal = true → s.bufferFilled → ∃ t, exec .valRun s = .next t ∧
    (t = s.passed ∨ ∃ code obs exp, 1 ≤ code.bits.toNat ∧ code.bits.toNat ≤ 6 ∧ t = s.rejectedAs code obs exp)) ∧
  (∀ s : State, s.cnt < 180 ∨ 302 < s.cnt → ∃ t, exec .valSize s = .next t ∧ t.res.code = .sizeOutOfRange ∧
    exec .valRun s = .next t)

/-- What the spec infers from the checks (its R138): an accepted candidate has every property the checks name. -/
def Obligations.AcceptedCandidateMeetsEveryCheck : Prop :=
  ∀ (s : State) (b : Nat → Byte), (∀ i, i < s.cnt → s.buf.get? i = some (b i)) → exec .valRun s = .next s.passed →
    180 ≤ s.cnt ∧ s.cnt ≤ 302 ∧
    (s.cfg.framing = .bothSentinel → b 0 = s.cfg.sentinel ∧ b (s.cnt - 1) = s.cfg.sentinel) ∧
    (s.cfg.framing = .leadingZero → b 0 ≠ 0#8 ∨ b (s.cnt - 1) ≠ s.cfg.sentinel) ∧
    crc16x25 ((List.range' 1 5).map b) = BitVec.ofNat 16 ((b 6).toNat + 256 * (b 7).toNat) ∧
    crc16x25 ((List.range' 1 (s.cnt - 4)).map b) =
      BitVec.ofNat 16 ((b (s.cnt - 3)).toNat + 256 * (b (s.cnt - 2)).toNat) ∧
    [b 8, b 9, b 10, b 11] = s.cfg.tag.toList ∧
    256 * ((b 1).toNat % 16) + (b 2).toNat + 2 = s.cnt

/-- What the spec infers from the checks and its note R125 (its R139): the code a single corrupted byte of an accepted
candidate produces. R125 is a statement of its own here (ChecksumDetectsOneChangedByte). -/
def Obligations.OneCorruptedByteIsReportedByItsCheck : Prop :=
  ∀ (s s' : State) (b : Nat → Byte) (j : Nat) (x : Byte),
    (∀ i, i < s.cnt → s.buf.get? i = some (b i)) → exec .valRun s = .next s.passed →
    s'.cfg = s.cfg → s'.cnt = s.cnt → j < s.cnt → x ≠ b j →
    (∀ i, i < s.cnt → s'.buf.get? i = some (if i = j then x else b i)) →
    ∃ t, exec .valRun s' = .next t ∧
      (j = 0 → s.cfg.framing = .bothSentinel → t.res.code = .framingMismatch) ∧
      (j = 0 → s.cfg.framing = .leadingZero → b (s.cnt - 1) = s.cfg.sentinel → x = 0#8 → t.res.code = .framingMismatch) ∧
      (j = 0 → s.cfg.framing = .leadingZero → x ≠ 0#8 → t = s'.passed) ∧
      (j = 0 → s.cfg.framing = .off → t = s'.passed) ∧
      (1 ≤ j → j ≤ 7 → t.res.code = .headerChecksumMismatch) ∧
      (8 ≤ j → j ≤ s.cnt - 2 → t.res.code = .frameChecksumMismatch) ∧
      (j = s.cnt - 1 → s.cfg.framing = .bothSentinel → t.res.code = .framingMismatch)

/-! ### Extraction -/

/-- R160 to R163: EXT.U8, EXT.BE16, EXT.BE32 and EXT.LE16 return their value and change nothing else. -/
def Obligations.IntegersAreExtractedInTheirByteOrder : Prop :=
  ∀ (s : State) (o : Nat),
    (∀ a : Byte, s.holds o [a] → exec (.extU8 o) s = .next { s with ret := .byte a }) ∧
    (∀ a b : Byte, s.holds o [a, b] → exec (.extBe16 o) s = .next { s with ret := .half (a ++ b) }) ∧
    (∀ a b c d : Byte, s.holds o [a, b, c, d] → exec (.extBe32 o) s = .next { s with ret := .word (a ++ b ++ c ++ d) }) ∧
    (∀ a b : Byte, s.holds o [a, b] → exec (.extLe16 o) s = .next { s with ret := .half (b ++ a) })

/-- R164 and R165: EXT.BCD8 and EXT.BCD16 by nibbles, with no check on a nibble above 9. -/
def Obligations.BcdIsExtractedByNibbles : Prop :=
  let bcd (x : Byte) : Nat := 10 * (x.extractLsb' 4 4).toNat + (x.extractLsb' 0 4).toNat
  ∀ s : State,
    (∀ x : Byte, exec (.extBcd8 (.lit x)) s = .next { s with ret := .byte (BitVec.ofNat 8 (bcd x)) }) ∧
    (∀ (o : Nat) (x y : Byte), s.holds o [x, y] →
      exec (.extBcd16 o) s = .next { s with ret := .half (BitVec.ofNat 16 (100 * bcd x + bcd y)) })

/-- R166 with R81: EXT.WDAY returns the weekday of a byte 1..7 and an absent weekday for every other byte. -/
def Obligations.WeekdayByteIsLookedUp : Prop :=
  ∀ (s : State) (x : Byte),
    (1 ≤ x.toNat → x.toNat ≤ 7 →
      exec (.extWday (.lit x)) s = .next { s with ret := .weekday true (x.setWidth 3) }) ∧
    (x.toNat = 0 ∨ 8 ≤ x.toNat → exec (.extWday (.lit x)) s = .next { s with ret := .weekday false 0#3 })

/-- The operand of EXT.BCD8 and EXT.WDAY given as an offset is the byte there (log entry 15). -/
def Obligations.ByteOperandsAreReadAtTheirOffset : Prop :=
  ∀ (s : State) (o : Nat) (x : Byte), s.holds o [x] →
    exec (.extBcd8 (.byteAt o)) s = exec (.extBcd8 (.lit x)) s ∧
    exec (.extWday (.byteAt o)) s = exec (.extWday (.lit x)) s ∧
    ∃ t, exec (.extWday (.byteAt o)) s = .next t

/-- R168 and R169: EXT.TEXT and EXT.ID return their bytes unchanged. -/
def Obligations.TextsAndIdentifiersAreReadUnchanged : Prop :=
  ∀ (s : State) (o : Nat) (bs : List Byte),
    (s.holds o bs → exec (.extText o bs.length) s = .next { s with ret := .bytes bs }) ∧
    (7 ≤ o → bs.length = 6 → s.holds (o - 6) bs → exec (.extId o) s = .next { s with ret := .bytes bs })

/-- R167: EXT.TS in both codings, with no range check. -/
def Obligations.TimestampComponentsAreExtracted : Prop :=
  let bcd (x : Byte) : Nat := 10 * (x.toNat / 16) + x.toNat % 16
  ∀ (s : State) (o : Nat) (y1 y2 mo da wd ho mi se : Byte),
    s.holds (o + s.cfg.tsSub.year) [y1, y2] → s.holds (o + s.cfg.tsSub.month) [mo] → s.holds (o + s.cfg.tsSub.day) [da] →
    s.holds (o + s.cfg.tsSub.weekday) [wd] → s.holds (o + s.cfg.tsSub.hour) [ho] → s.holds (o + s.cfg.tsSub.minute) [mi] →
    s.holds (o + s.cfg.tsSub.second) [se] →
    let present : Bool := decide (1 ≤ wd.toNat ∧ wd.toNat ≤ 7)
    let weekday : BitVec 3 := if present then wd.setWidth 3 else 0#3
    let binary : Timestamp :=
      { year := y1 ++ y2, month := mo, day := da, hour := ho, minute := mi, second := se, wdayP := present, wday := weekday }
    let coded : Timestamp :=
      { year := BitVec.ofNat 16 (100 * bcd y1 + bcd y2), month := BitVec.ofNat 8 (bcd mo), day := BitVec.ofNat 8 (bcd da),
        hour := BitVec.ofNat 8 (bcd ho), minute := BitVec.ofNat 8 (bcd mi), second := BitVec.ofNat 8 (bcd se),
        wdayP := present, wday := weekday }
    (s.cfg.tsCoding = .binary → exec (.extTs o) s = .next { s with ret := .timestamp binary }) ∧
    (s.cfg.tsCoding = .bcd → exec (.extTs o) s = .next { s with ret := .timestamp coded })

/-- R170: EXT.FIELD returns the identifier before the value and the value by the field's kind. -/
def Obligations.FieldsCarryTheirIdentifier : Prop :=
  ∀ (s : State) (o : Nat) (ident : Ident), 7 ≤ o → s.holds (o - 6) ident.toList →
    (∀ f ∈ [Field.pImp, .pExp, .qImp, .qExp, .currentL1, .currentL2, .currentL3, .eaImp, .eaExp, .erImp, .erExp],
      ∀ a b c d : Byte, s.holds o [a, b, c, d] →
        exec (.extField f o) s = .next { s with ret := .field (.u32 ⟨ident, a ++ b ++ c ++ d⟩) }) ∧
    (∀ f ∈ [Field.voltageL1, .voltageL2, .voltageL3], ∀ a b : Byte, s.holds o [a, b] →
        exec (.extField f o) s = .next { s with ret := .field (.u16 ⟨ident, a ++ b⟩) }) ∧
    (∀ p ∈ [(Field.listVersion, 14), (.meterSerial, 16), (.meterType, 18)], ∀ bs : List Byte, bs.length = p.2 →
        s.holds o bs → exec (.extField p.1 o) s = .next { s with ret := .field (.text ident bs) }) ∧
    (∀ f ∈ [Field.capTs, .meterTs], s.readable o s.cfg.tsSub.len → ∃ ts,
        exec (.extTs o) s = .next { s with ret := .timestamp ts } ∧
        exec (.extField f o) s = .next { s with ret := .field (.timestamp ⟨ident, ts⟩) })

/-- R54: a read outside the candidate is a fault of the model; which of the model's two faults it is, is the model's choice
(log entry 13), and so is an operation called on such a range by itself (log entry 12). -/
def Obligations.ReadsOutsideTheCandidateFault : Prop :=
  ∀ (s : State) (o : Nat),
    (∀ i ∈ [Instr.extU8 o, .extBe16 o, .extBe32 o, .extLe16 o, .extBcd8 (.byteAt o), .extBcd16 o, .extWday (.byteAt o),
      .extTs o, .extText o 14, .extText o 16, .extText o 18],
      s.cnt ≤ o → exec i s = .fault .readOutsideCandidate) ∧
    (s.cnt < o + 2 → exec (.extBe16 o) s = .fault .readOutsideCandidate) ∧
    (s.cnt < o + 4 → exec (.extBe32 o) s = .fault .readOutsideCandidate) ∧
    (∀ n, s.cnt < o + n → exec (.extText o n) s = .fault .readOutsideCandidate) ∧
    (s.cnt < o → exec (.extId o) s = .fault .readOutsideCandidate) ∧
    (∀ f, s.cnt < o → exec (.extField f o) s = .fault .readOutsideCandidate) ∧
    (∀ hi, o ≤ hi → s.cnt ≤ hi → exec (.crcX25 o hi) s = .fault .readOutsideCandidate) ∧
    (s.cnt < 4 → exec .valFcs s = .fault .readOutsideCandidate)

/-! ### The field decoder -/

/-- R190 with R78: DEC.DISC selects the kind of one of the four codes, and reports every other byte. -/
def Obligations.DiscriminantSelectsTheLayout : Prop :=
  ∀ (s : State) (d : Byte), s.holds s.cfg.discOff [d] →
    (d.toNat = 17 → exec .decDisc s = .next { s with ret := .kind .shortSinglePhase }) ∧
    (d.toNat = 27 → exec .decDisc s = .next { s with ret := .kind .longSinglePhase }) ∧
    (d.toNat = 25 → exec .decDisc s = .next { s with ret := .kind .shortThreePhase }) ∧
    (d.toNat = 35 → exec .decDisc s = .next { s with ret := .kind .longThreePhase }) ∧
    (d.toNat ≠ 17 → d.toNat ≠ 27 → d.toNat ≠ 25 → d.toNat ≠ 35 →
      exec .decDisc s = .next (s.rejectedAs .unknownLayout (d.setWidth 32) 0x111B1923#32))

/-- The rows of the code tables R78 and R81 run by themselves (log entry 9): each returns its table entry, and the row a
byte selects does what DEC.DISC and EXT.WDAY do with that byte. -/
def Obligations.CodeTableRowsReturnTheirEntry : Prop :=
  ∀ s : State,
    exec .discShortSinglePhase s = .next { s with ret := .kind .shortSinglePhase } ∧
    exec .discLongSinglePhase s = .next { s with ret := .kind .longSinglePhase } ∧
    exec .discShortThreePhase s = .next { s with ret := .kind .shortThreePhase } ∧
    exec .discLongThreePhase s = .next { s with ret := .kind .longThreePhase } ∧
    (∀ d : Byte, exec (.discUnknown d) s = .next (s.rejectedAs .unknownLayout (d.setWidth 32) 0x111B1923#32)) ∧
    exec .wdayMonday s = .next { s with ret := .weekday true 1#3 } ∧
    exec .wdayTuesday s = .next { s with ret := .weekday true 2#3 } ∧
    exec .wdayWednesday s = .next { s with ret := .weekday true 3#3 } ∧
    exec .wdayThursday s = .next { s with ret := .weekday true 4#3 } ∧
    exec .wdayFriday s = .next { s with ret := .weekday true 5#3 } ∧
    exec .wdaySaturday s = .next { s with ret := .weekday true 6#3 } ∧
    exec .wdaySunday s = .next { s with ret := .weekday true 7#3 } ∧
    (∀ x : Byte, exec (.wdayAbsent x) s = .next { s with ret := .weekday false 0#3 }) ∧
    (∀ d : Byte, s.holds s.cfg.discOff [d] → exec (decodeDisc d) s = exec .decDisc s) ∧
    (∀ x : Byte, exec (decodeWday x) s = exec (.extWday (.lit x)) s)

/-- R198: DEC.FIT passes exactly when the layout's extent is within `N - 4`. -/
def Obligations.LayoutMustFitTheFrame : Prop :=
  ∀ (s : State) (k : LayoutKind), s.cfg.legal = true → 4 ≤ s.cnt →
    (s.cfg.extent k ≤ s.cnt - 4 → exec (.decFit k) s = .next s.passed) ∧
    (s.cnt - 4 < s.cfg.extent k → exec (.decFit k) s = .next
      (s.rejectedAs .layoutExceedsFrame (BitVec.ofNat 32 (s.cfg.extent k)) (BitVec.ofNat 32 (s.cnt - 4)))) ∧
    (180 ≤ s.cnt → k = .shortSinglePhase → exec (.decFit k) s = .next s.passed)

/-- R199: DEC.COMMON writes the ten common fields with what EXT.FIELD returns at `COMMON_OFF`, for every kind, and nothing
else. -/
def Obligations.CommonFieldsAreDecodedAtTheirOffsets : Prop :=
  ∀ (s : State) (k : LayoutKind), s.cfg.legal = true → s.readable 1 s.cfg.layout.ph1End →
    let off := s.cfg.layout.commonOff
    let fields := [(Field.capTs, off.capTs), (.listVersion, off.listVersion), (.meterSerial, off.meterSerial),
      (.meterType, off.meterType), (.pImp, off.pImp), (.pExp, off.pExp), (.qImp, off.qImp), (.qExp, off.qExp),
      (.currentL1, off.currentL1), (.voltageL1, off.voltageL1)]
    ∃ rd, exec (.decCommon k) s = .next { s with rd := rd, ret := .none } ∧
      rd.kind = s.rd.kind ∧ rd.threeP = s.rd.threeP ∧ rd.longP = s.rd.longP ∧
      (∀ p ∈ fields, ∃ v, exec (.extField p.1 p.2) s = .next { s with ret := .field v } ∧ rd.field? p.1 = some v) ∧
      (∀ f, f ∉ fields.map Prod.fst → rd.field? f = s.rd.field? f)

/-- R200: DEC.THREE writes the phase-2/3 fields of a three-phase kind, `none` for a single-phase kind, and nothing else. -/
def Obligations.PhaseFieldsAreDecodedForThreePhaseKinds : Prop :=
  ∀ (s : State) (k : LayoutKind), s.cfg.legal = true → s.readable 1 (s.cfg.extent k) →
    let start := s.cfg.layout.ph1End + 1
    let rel := s.cfg.layout.ph23Rel
    let fields := [(Field.currentL2, start + rel.currentL2), (.voltageL2, start + rel.voltageL2),
      (.currentL3, start + rel.currentL3), (.voltageL3, start + rel.voltageL3)]
    ∃ rd, exec (.decThree k) s = .next { s with rd := rd, ret := .none } ∧
      rd.kind = s.rd.kind ∧ rd.longP = s.rd.longP ∧
      (k = .shortThreePhase ∨ k = .longThreePhase → rd.threeP = true ∧
        ∀ p ∈ fields, ∃ v, exec (.extField p.1 p.2) s = .next { s with ret := .field v } ∧ rd.field? p.1 = some v) ∧
      (k = .shortSinglePhase ∨ k = .longSinglePhase → rd.threeP = false ∧ ∀ p ∈ fields, rd.field? p.1 = none) ∧
      (∀ f, f ∉ fields.map Prod.fst → rd.field? f = s.rd.field? f)

/-- R201: DEC.LONG writes the long fields of a long kind right after the kind's phase block, `none` for a short kind, and
nothing else. -/
def Obligations.LongFieldsAreDecodedAfterThePhaseBlock : Prop :=
  ∀ (s : State) (k : LayoutKind), s.cfg.legal = true → s.readable 1 (s.cfg.extent k) →
    let start := s.cfg.layout.ph1End + (if k = .longThreePhase then s.cfg.layout.ph23Len else 0) + 1
    let rel := s.cfg.layout.longRel
    let fields := [(Field.meterTs, start + rel.meterTs), (.eaImp, start + rel.eaImp), (.eaExp, start + rel.eaExp),
      (.erImp, start + rel.erImp), (.erExp, start + rel.erExp)]
    ∃ rd, exec (.decLong k) s = .next { s with rd := rd, ret := .none } ∧
      rd.kind = s.rd.kind ∧ rd.threeP = s.rd.threeP ∧
      (k = .longSinglePhase ∨ k = .longThreePhase → rd.longP = true ∧
        ∀ p ∈ fields, ∃ v, exec (.extField p.1 p.2) s = .next { s with ret := .field v } ∧ rd.field? p.1 = some v) ∧
      (k = .shortSinglePhase ∨ k = .shortThreePhase → rd.longP = false ∧ ∀ p ∈ fields, rd.field? p.1 = none) ∧
      (∀ f, f ∉ fields.map Prod.fst → rd.field? f = s.rd.field? f)

/-- R203 with R36: on a stored candidate of a valid length DEC.RUN reports an unknown discriminant, else a layout that does not
fit, else builds a fresh `RD`: its kind, its two flags as the bits of `RD.KIND`, and every field with what EXT.FIELD returns
at the field's offset in the kind, `none` where the kind has no such field. No failure leaves a partial Reading. -/
def Obligations.DecodeRunFollowsItsSequence : Prop :=
  ∀ (s : State) (d : Byte), s.cfg.legal = true → s.candidateStored → 180 ≤ s.cnt → s.buf.get? s.cfg.discOff = some d →
    (d.toNat ≠ 17 → d.toNat ≠ 27 → d.toNat ≠ 25 → d.toNat ≠ 35 →
      exec .decRun s = .next (s.rejectedAs .unknownLayout (d.setWidth 32) 0x111B1923#32)) ∧
    ∀ k, (d.toNat = 17 ∧ k = .shortSinglePhase) ∨ (d.toNat = 27 ∧ k = .longSinglePhase) ∨
        (d.toNat = 25 ∧ k = .shortThreePhase) ∨ (d.toNat = 35 ∧ k = .longThreePhase) →
      (s.cnt - 4 < s.cfg.extent k → exec .decRun s = .next (s.rejectedAs .layoutExceedsFrame
        (BitVec.ofNat 32 (s.cfg.extent k)) (BitVec.ofNat 32 (s.cnt - 4)))) ∧
      (s.cfg.extent k ≤ s.cnt - 4 → ∃ rd, exec .decRun s = .next { s with
          res := { valid := true, ok := true, code := .ok, obs := 0#32, exp := 0#32 }, rd := rd, ret := .reading rd } ∧
        rd.kind = k.bits ∧ rd.threeP = rd.kind.getLsbD 1 ∧ rd.longP = rd.kind.getLsbD 0 ∧
        (rd.threeP = false → ∀ f ∈ [Field.currentL2, .voltageL2, .currentL3, .voltageL3], rd.field? f = none) ∧
        (rd.longP = false → ∀ f ∈ [Field.meterTs, .eaImp, .eaExp, .erImp, .erExp], rd.field? f = none) ∧
        ∀ f, (s.cfg.off k f = none → rd.field? f = none) ∧
          (∀ o, s.cfg.off k f = some o →
            ∃ v, exec (.extField f o) s = .next { s with ret := .field v } ∧ rd.field? f = some v))

/-! ### Encodings -/

/-- Decoding the operation word of a well-formed operation gives it back with every operand, and leaves the bytes after it.
The operation words are the model's, but for the byte patterns of R78 and R81 (log entry 9). -/
def Obligations.DecodingUndoesEncoding : Prop :=
  ∀ (i : Instr) (rest : List Byte), i.wf = true → decodeWord (encode i ++ rest) = .ok (i, rest)

/-- Whatever the bytes, the decoder answers only well-formed operations. The operation words, the rejection of every other
word and the bound of an offset to 32 bits are the model's (log entry 9); the other operand bounds are those of R78, R81,
R122, R168 and R169. -/
def Obligations.DecoderAnswersOnlyWellFormedOperations : Prop :=
  (∀ (bs rest : List Byte) (i : Instr), decodeWord bs = .ok (i, rest) → i.wf = true) ∧
  ∀ (sentinel : Byte) (cnt : Nat) (e : Stimulus) (i : Instr), decodeStimulus sentinel cnt e = .ok i → i.wf = true

/-- Words of the opcode table decode to their rows: the exact bytes of R78 and R81, and input bytes under REF (R72); which
of the two a lone byte is, is the model's choice (log entry 9). -/
def Obligations.TableWordsDecodeToTheirRows : Prop :=
  decodeTableWord 8 0x11 = some .discShortSinglePhase ∧ decodeTableWord 8 0x1B = some .discLongSinglePhase ∧
  decodeTableWord 8 0x19 = some .discShortThreePhase ∧ decodeTableWord 8 0x23 = some .discLongThreePhase ∧
  decodeTableWord 8 0x01 = some .wdayMonday ∧ decodeTableWord 8 0x07 = some .wdaySunday ∧
  decodeTableWord 8 0x7E = some (.asmOpen 0x7E#8) ∧ decodeTableWord 8 0xA0 = some (.asmByte 0xA0#8) ∧
  decodeTableWord 0 0 = some .asmEmpty ∧
  decodeByteEvent 0x7E#8 1 0x7E#8 = .asmClose 0x7E#8

/-- The numbers of the result codes (R230) and of the kinds (R35). -/
def Obligations.CodesAndKindsHaveTheirNumbers : Prop :=
  [Code.ok, .sizeOutOfRange, .framingMismatch, .headerChecksumMismatch, .frameChecksumMismatch, .unexpectedPayloadTag,
    .lengthFieldMismatch, .unknownLayout, .layoutExceedsFrame].map (fun c => c.bits.toNat) = [0, 1, 2, 3, 4, 5, 6, 7, 8] ∧
  (∀ c : Code, c.bits.toNat ≤ 8) ∧
  [LayoutKind.shortSinglePhase, .longSinglePhase, .shortThreePhase, .longThreePhase].map LayoutKind.bits =
    [0b00#2, 0b01#2, 0b10#2, 0b11#2]
end

