-- ==== Sys2Proof/Laws/Codec.lean ====
section
/-! SUPPORT. Operand bytes and their readers agree. -/

namespace Sys2Proof

theorem takeOffset_offsetBytes {o : Nat} (h : offsetFits o = true) (rest : List Byte) :
    takeOffset (offsetBytes o ++ rest) = .ok (o, rest) := by
  have h : o < 4294967296 := by simpa [offsetFits] using h
  simp only [offsetBytes, List.cons_append, List.nil_append, takeOffset, BitVec.toNat_ofNat]
  congr 2
  omega

theorem takeByteOperand_bytes {x : ByteOperand} (h : x.wf = true) (rest : List Byte) :
    takeByteOperand (byteOperandBytes x ++ rest) = .ok (x, rest) := by
  cases x with
  | lit x => rfl
  | byteAt o =>
    have := takeOffset_offsetBytes (o := o) h rest
    simp [byteOperandBytes, takeByteOperand, this, Except.map]

theorem takeKind_kindNumber (k : LayoutKind) (rest : List Byte) :
    takeKind (kindNumber k :: rest) = .ok (k, rest) := by
  cases k <;> rfl

theorem takeField_fieldNumber (f : Field) (rest : List Byte) :
    takeField (fieldNumber f :: rest) = .ok (f, rest) := by
  cases f <;> rfl

/-- The four codes and no other byte select a kind (30_encoding.md R78). -/
theorem kindOfDisc_eq_none (d : Byte) : kindOfDisc d = none ↔ isDiscCode d = false := by
  unfold kindOfDisc isDiscCode
  by_cases h1 : d = 0x11#8
  · simp [h1]
  by_cases h2 : d = 0x1B#8
  · simp [h2]
  by_cases h3 : d = 0x19#8
  · simp [h3]
  by_cases h4 : d = 0x23#8
  · simp [h4]
  simp [h1, h2, h3, h4]

/-- The kind each code selects (30_encoding.md R78). -/
theorem kindOfDisc_code (k : LayoutKind) : kindOfDisc (match k with
    | .shortSinglePhase => 17#8 | .longSinglePhase => 27#8 | .shortThreePhase => 25#8 | .longThreePhase => 35#8) = some k := by
  cases k <;> rfl

/-- The row a discriminant byte selects is well-formed. -/
theorem decodeDisc_wf (d : Byte) : (decodeDisc d).wf = true := by
  unfold decodeDisc
  cases h : kindOfDisc d with
  | none => simp [Instr.wf, (kindOfDisc_eq_none d).mp h]
  | some k => cases k <;> rfl

end Sys2Proof
end

