-- ==== Sys2Proof/Laws/State.lean ====
section
/-! SUPPORT. One lemma a field for each named update of State, true by rfl. -/

namespace Sys2Proof.Machine

section Append
variable (v : Byte) (s : State)

@[simp] theorem append_cfg : (s.append v).cfg = s.cfg := rfl
@[simp] theorem append_res : (s.append v).res = s.res := rfl
@[simp] theorem append_rd : (s.append v).rd = s.rd := rfl
@[simp] theorem append_out : (s.append v).out = s.out := rfl
@[simp] theorem append_inq : (s.append v).inq = s.inq := rfl
@[simp] theorem append_ret : (s.append v).ret = s.ret := rfl
@[simp] theorem append_draws : (s.append v).draws = s.draws := rfl
theorem append_cnt : (s.append v).cnt = if s.cnt < cntMax s.cfg then s.cnt + 1 else s.cnt := rfl
theorem append_buf : (s.append v).buf =
    if s.cnt < s.cfg.bufCap ∧ s.cnt < cntMax s.cfg then s.buf.write s.cnt v else s.buf := rfl

end Append

section TakeReject
variable (r : Reject) (s : State)

@[simp] theorem takeReject_cfg : (s.takeReject r).cfg = s.cfg := rfl
@[simp] theorem takeReject_buf : (s.takeReject r).buf = s.buf := rfl
@[simp] theorem takeReject_cnt : (s.takeReject r).cnt = s.cnt := rfl
@[simp] theorem takeReject_res : (s.takeReject r).res = ⟨true, false, r.code, r.obs, r.exp⟩ := rfl
@[simp] theorem takeReject_rd : (s.takeReject r).rd = Reading.absent (Config.freeKind s.draws) := rfl
@[simp] theorem takeReject_out : (s.takeReject r).out = s.out := rfl
@[simp] theorem takeReject_inq : (s.takeReject r).inq = s.inq := rfl
@[simp] theorem takeReject_ret : (s.takeReject r).ret = .reject r := rfl
@[simp] theorem takeReject_draws : (s.takeReject r).draws = s.draws + 1 := rfl
theorem takeReject_eq : s.takeReject r = s.rejectedAs r.code r.obs r.exp := rfl

end TakeReject

section TakeReading
variable (rd : Reading) (s : State)

@[simp] theorem takeReading_cfg : (s.takeReading rd).cfg = s.cfg := rfl
@[simp] theorem takeReading_buf : (s.takeReading rd).buf = s.buf := rfl
@[simp] theorem takeReading_cnt : (s.takeReading rd).cnt = s.cnt := rfl
@[simp] theorem takeReading_res : (s.takeReading rd).res = ⟨true, true, .ok, 0#32, 0#32⟩ := rfl
@[simp] theorem takeReading_rd : (s.takeReading rd).rd = rd := rfl
@[simp] theorem takeReading_out : (s.takeReading rd).out = s.out := rfl
@[simp] theorem takeReading_inq : (s.takeReading rd).inq = s.inq := rfl
@[simp] theorem takeReading_ret : (s.takeReading rd).ret = .reading rd := rfl
@[simp] theorem takeReading_draws : (s.takeReading rd).draws = s.draws := rfl

end TakeReading

section FinishCandidate
variable (s : State)

@[simp] theorem finishCandidate_cfg : s.finishCandidate.cfg = s.cfg := rfl
@[simp] theorem finishCandidate_buf : s.finishCandidate.buf = [] := rfl
@[simp] theorem finishCandidate_cnt : s.finishCandidate.cnt = 0 := rfl
@[simp] theorem finishCandidate_res : s.finishCandidate.res = s.res := rfl
@[simp] theorem finishCandidate_rd : s.finishCandidate.rd = s.rd := rfl
@[simp] theorem finishCandidate_out : s.finishCandidate.out = s.out ++ [s.record] := rfl
@[simp] theorem finishCandidate_inq : s.finishCandidate.inq = s.inq := rfl
@[simp] theorem finishCandidate_ret : s.finishCandidate.ret = .none := rfl
@[simp] theorem finishCandidate_draws : s.finishCandidate.draws = s.draws := rfl

end FinishCandidate

section Record
variable (s : State)

@[simp] theorem record_ok : s.record.ok = s.res.ok := rfl
@[simp] theorem record_code : s.record.code = s.res.code := rfl
@[simp] theorem record_obs : s.record.obs = s.res.obs := rfl
@[simp] theorem record_exp : s.record.exp = s.res.exp := rfl
@[simp] theorem record_reading : s.record.reading = s.rd := rfl

end Record

section WithFetchWord
variable (s : State) (nbits w : Nat)

@[simp] theorem withFetchWord_cfg : (s.withFetchWord nbits w).cfg = s.cfg := rfl
@[simp] theorem withFetchWord_cnt : (s.withFetchWord nbits w).cnt = s.cnt := rfl
@[simp] theorem withFetchWord_inq : (s.withFetchWord nbits w).inq = stimulusOfTableWord nbits w :: s.inq := rfl
@[simp] theorem fetch_withFetchWord : fetch (s.withFetchWord nbits w) = (stimulusOfTableWord nbits w, s) := rfl

end WithFetchWord

end Sys2Proof.Machine
end

