-- ==== Sys2Proof/Laws/Memory.lean ====
section
/-! SUPPORT. The frame buffer: what a write changes, that it keeps the canonical form, and when reads succeed. -/

namespace Sys2Proof.Machine

/-! ### Writes -/

theorem get?_write_same (m : Memory) (i : Nat) (v : Byte) : (m.write i v).get? i = some v := by
  induction m with
  | nil => simp [Memory.write, Memory.get?]
  | cons c m ih =>
    obtain ⟨a, w⟩ := c
    unfold Memory.write
    split
    · simp [Memory.get?]
    · split
      · simp [Memory.get?]
      · have : ¬ a = i := fun h => by omega
        simp [Memory.get?, this, ih]

theorem get?_write_other (m : Memory) {i j : Nat} (v : Byte) (h : j ≠ i) : (m.write i v).get? j = m.get? j := by
  induction m with
  | nil => simp [Memory.write, Memory.get?, Ne.symm h]
  | cons c m ih =>
    obtain ⟨a, w⟩ := c
    unfold Memory.write
    split
    · simp [Memory.get?, Ne.symm h]
    · split
      · next _ hia => subst hia; simp [Memory.get?, Ne.symm h]
      · simp [Memory.get?, ih]

theorem get?_write (m : Memory) (i j : Nat) (v : Byte) :
    (m.write i v).get? j = if j = i then some v else m.get? j := by
  split
  · next h => rw [h, get?_write_same]
  · next h => exact get?_write_other m v h

/-- The first index of a non-empty buffer, with an entry written. -/
theorem write_cons_first (a : Nat) (w : Byte) (m : Memory) (i : Nat) (v : Byte) :
    ∃ b u n, Memory.write ((a, w) :: m) i v = (b, u) :: n ∧ (b = a ∨ b = i) := by
  unfold Memory.write
  split
  · exact ⟨i, v, _, rfl, .inr rfl⟩
  · split
    · exact ⟨i, v, m, rfl, .inr rfl⟩
    · exact ⟨a, w, _, rfl, .inl rfl⟩

/-- Every write keeps the canonical form. -/
theorem wf_write (m : Memory) (i : Nat) (v : Byte) (h : m.wf = true) : (m.write i v).wf = true := by
  induction m with
  | nil => rfl
  | cons c m ih =>
    obtain ⟨a, w⟩ := c
    unfold Memory.write
    split
    · next hlt => simp [Memory.wf, hlt, h]
    · split
      · next _ hia => subst hia; cases m with
        | nil => rfl
        | cons d m => simpa [Memory.wf] using h
      · next hlt hne =>
        cases m with
        | nil => simp only [Memory.write, Memory.wf]; simp; omega
        | cons d m =>
          obtain ⟨b, u⟩ := d
          simp only [Memory.wf, Bool.and_eq_true, decide_eq_true_eq] at h
          obtain ⟨b', u', n, hn, hb⟩ := write_cons_first b u m i v
          have := ih h.2
          rw [hn] at this ⊢
          simp only [Memory.wf, Bool.and_eq_true, decide_eq_true_eq]
          exact ⟨by rcases hb with rfl | rfl <;> omega, this⟩

/-- The append keeps the canonical form. -/
theorem wf_append (s : State) (v : Byte) (h : s.buf.wf = true) : (s.append v).buf.wf = true := by
  rw [append_buf]
  split
  · exact wf_write _ _ _ h
  · exact h

/-! ### Reads -/

@[simp] theorem consBytes_toList {n : Nat} (v : Byte) (r : Bytes n) : (consBytes v r).toList = v :: r.toList := rfl

/-- A run of held entries is read, in order. -/
theorem readRun_of_get? (m : Memory) (i : Nat) (bs : List Byte)
    (h : ∀ k, k < bs.length → m.get? (i + k) = bs[k]?) :
    ∃ r, m.readRun i bs.length = .ok r ∧ r.toList = bs := by
  induction bs generalizing i with
  | nil => exact ⟨#v[], rfl, rfl⟩
  | cons b bs ih =>
    have h0 : m.get? i = some b := by simpa using h 0 (by simp)
    obtain ⟨r, hr, hl⟩ := ih (i + 1) fun k hk => by
      have := h (k + 1) (by simpa using hk)
      rw [show i + 1 + k = i + (k + 1) by omega, this]; simp
    refine ⟨consBytes b r, ?_, by simp [hl]⟩
    simp only [List.length_cons, Memory.readRun, h0, hr]

/-- `MemRead` of held bytes (20_memory.md R54). -/
theorem memRead_of_holds {s : State} {i : Nat} {bs : List Byte} (h : s.holds i bs) :
    ∃ r, memRead s i bs.length = .ok r ∧ r.toList = bs := by
  obtain ⟨hle, hb⟩ := h
  obtain ⟨r, hr, hl⟩ := readRun_of_get? s.buf i bs hb
  exact ⟨r, by simp [memRead, hle, hr], hl⟩

/-- The bytes of a readable range. -/
theorem holds_of_readable {s : State} {i n : Nat} (h : s.readable i n) : ∃ bs, bs.length = n ∧ s.holds i bs := by
  refine ⟨(List.range n).map fun k => (s.buf.get? (i + k)).getD 0, by simp, by simpa using h.1, ?_⟩
  intro k hk
  have hk' : k < n := by simpa using hk
  obtain ⟨v, hv⟩ := Option.isSome_iff_exists.mp (h.2 k hk')
  simp [hv, hk']

theorem readable_of_holds {s : State} {i : Nat} {bs : List Byte} (h : s.holds i bs) : s.readable i bs.length :=
  ⟨h.1, fun k hk => by rw [h.2 k hk]; simp [hk]⟩

/-- A range inside a readable range is readable. -/
theorem readable_mono {s : State} {i n j m : Nat} (h : s.readable i n) (hj : i ≤ j) (hm : j + m ≤ i + n) :
    s.readable j m := by
  refine ⟨Nat.le_trans hm h.1, fun k hk => ?_⟩
  have := h.2 (j + k - i) (by omega)
  rwa [show i + (j + k - i) = j + k by omega] at this

/-- Every range of a stored candidate is readable. -/
theorem readable_of_stored {s : State} (h : s.candidateStored) {i n : Nat} (hn : i + n ≤ s.cnt) : s.readable i n :=
  ⟨hn, fun k hk => h (i + k) (by omega)⟩

/-- A candidate no longer than the buffer is stored (42_validator.md R137). -/
theorem stored_of_filled {s : State} (hf : s.bufferFilled) (hc : s.cnt ≤ s.cfg.bufCap) : s.candidateStored :=
  fun i hi => (hf i).mpr (by omega)

theorem memRead_ok {s : State} {i n : Nat} (h : s.readable i n) : ∃ r, memRead s i n = .ok r := by
  obtain ⟨bs, hl, hb⟩ := holds_of_readable h
  obtain ⟨r, hr, -⟩ := memRead_of_holds hb
  subst hl
  exact ⟨r, hr⟩

theorem readByte_ok {s : State} {i : Nat} (h : s.readable i 1) : ∃ v, readByte s i = .ok v := by
  obtain ⟨v, hv⟩ := Option.isSome_iff_exists.mp (h.2 0 (by omega))
  have := h.1
  exact ⟨v, by simp [readByte, show i < s.cnt by omega, show s.buf.get? i = some v from hv]⟩

theorem readByte_of_get? {s : State} {i : Nat} {v : Byte} (hi : i < s.cnt) (h : s.buf.get? i = some v) :
    readByte s i = .ok v := by
  simp [readByte, hi, h]

theorem readByte_of_holds {s : State} {i : Nat} {v : Byte} (h : s.holds i [v]) : readByte s i = .ok v :=
  readByte_of_get? (by simpa using h.1) (by simpa using h.2 0 (by simp))

/-- Part of a held run is held. -/
theorem holds_append {s : State} {i : Nat} {as bs : List Byte} (h : s.holds i (as ++ bs)) :
    s.holds i as ∧ s.holds (i + as.length) bs := by
  obtain ⟨hle, hb⟩ := h
  simp only [List.length_append] at hle hb
  refine ⟨⟨by omega, fun k hk => ?_⟩, by omega, fun k hk => ?_⟩
  · rw [hb k (by omega), List.getElem?_append_left hk]
  · rw [Nat.add_assoc, hb (as.length + k) (by omega), List.getElem?_append_right (by omega)]
    simp

theorem holds_cons {s : State} {i : Nat} {a : Byte} {bs : List Byte} (h : s.holds i (a :: bs)) :
    s.holds i [a] ∧ s.holds (i + 1) bs := holds_append (as := [a]) h

/-- Reading does not depend on anything but the buffer and the byte counter. -/
theorem memRead_congr {s t : State} (hb : t.buf = s.buf) (hc : t.cnt = s.cnt) (i n : Nat) :
    memRead t i n = memRead s i n := by
  simp [memRead, hb, hc]

theorem readByte_congr {s t : State} (hb : t.buf = s.buf) (hc : t.cnt = s.cnt) (i : Nat) :
    readByte t i = readByte s i := by
  simp [readByte, hb, hc]

/-! ### The append -/

/-- What the buffer holds after an append to a filled buffer: still exactly the first `min(CNT, BUF_CAP)` entries. -/
theorem bufferFilled_append {s : State} (v : Byte) (hf : s.bufferFilled) : (s.append v).bufferFilled := by
  intro i
  rw [append_buf, append_cnt, append_cfg]
  by_cases hm : s.cnt < cntMax s.cfg
  · by_cases hc : s.cnt < s.cfg.bufCap
    · rw [if_pos ⟨hc, hm⟩, if_pos hm, get?_write]
      split
      · next h => subst h; simp; omega
      · next h => rw [hf i]; omega
    · rw [if_neg (by omega), if_pos hm, hf i]; omega
  · rw [if_neg (by omega), if_neg hm, hf i]

theorem bounded_append {s : State} (v : Byte) (h : s.cnt ≤ cntMax s.cfg) : (s.append v).cnt ≤ cntMax s.cfg := by
  rw [append_cnt]; split <;> omega

end Sys2Proof.Machine
end

