-- ==== Sys2Proof/Laws/Layout.lean ====
section
/-! SUPPORT. What a legal configuration gives: bounds of offsets, widths and extents (44_decoder.md R194, R202). -/

namespace Sys2Proof

/-- The parts of legality. -/
theorem legal_iff (c : Config) : c.legal = true ↔
    12 ≤ c.discOff ∧ c.discOff ≤ 176 ∧ c.tsSub.legal = true ∧
    (∀ f, c.fieldInBlock f = true) ∧ 1 ≤ c.layout.ph23Len ∧ 1 ≤ c.layout.longLen ∧
    c.layout.ph1End ≤ 176 ∧ (∀ k, c.rangesDisjoint k = true) ∧
    c.layout.ph1End + c.layout.ph23Len + c.layout.longLen ≤ 298 ∧
    302 ≤ c.bufCap ∧ 9 ≤ c.cntW := by
  have hf : Field.all.all c.fieldInBlock = true ↔ ∀ f, c.fieldInBlock f = true := by
    rw [List.all_eq_true]
    exact ⟨fun h f => h f (by cases f <;> decide), fun h f _ => h f⟩
  have hk : LayoutKind.all.all c.rangesDisjoint = true ↔ ∀ k, c.rangesDisjoint k = true := by
    rw [List.all_eq_true]
    exact ⟨fun h k => h k (by cases k <;> decide), fun h k _ => h k⟩
  simp only [Config.legal, Config.layoutLegal, Config.fieldsInBlocks, Bool.and_eq_true, decide_eq_true_eq, hf, hk]
  simp only [minLen, maxLen, Nat.reduceSub]
  tauto

theorem legal_bufCap {c : Config} (h : c.legal = true) : 302 ≤ c.bufCap := by
  rw [legal_iff] at h; tauto

theorem legal_discOff {c : Config} (h : c.legal = true) : 12 ≤ c.discOff ∧ c.discOff ≤ 176 := by
  rw [legal_iff] at h; tauto

theorem legal_ph1End {c : Config} (h : c.legal = true) : c.layout.ph1End ≤ 176 := by
  rw [legal_iff] at h; tauto

theorem legal_fieldInBlock {c : Config} (h : c.legal = true) (f : Field) : c.fieldInBlock f = true := by
  rw [legal_iff] at h; tauto

/-- `2^CNT_W - 1` is above every valid length (10_state.md R29). -/
theorem legal_cntMax {c : Config} (h : c.legal = true) : 511 ≤ Machine.cntMax c := by
  have h9 : 9 ≤ c.cntW := by rw [legal_iff] at h; tauto
  have := Nat.pow_le_pow_right (n := 2) (by omega) h9
  unfold Machine.cntMax
  omega

/-- No layout of a legal configuration reaches past byte 298 (R194, W2 and W6). -/
theorem legal_extent {c : Config} (h : c.legal = true) (k : LayoutKind) : c.extent k ≤ 298 := by
  rw [legal_iff] at h
  cases k <;> simp [Config.extent, Config.phaseEnd, LayoutKind.three, LayoutKind.long] <;> omega

/-- A field of a kind lies, identifier included, in `b[1..extent(k)]` (R202). -/
theorem legal_off {c : Config} (h : c.legal = true) {k : LayoutKind} {f : Field} {o : Nat} (ho : c.off k f = some o) :
    7 ≤ o ∧ o + c.width f ≤ c.extent k + 1 := by
  have hb := legal_fieldInBlock h f
  unfold Config.off at ho
  unfold Config.fieldInBlock at hb
  split at ho <;> rename_i hp <;> rw [hp] at hb <;> simp only [Bool.and_eq_true, decide_eq_true_eq] at hb
  · injection ho with ho; subst ho
    simp only [Config.extent, Config.phaseEnd]; omega
  · split at ho
    · next h3 =>
      injection ho with ho; subst ho
      simp only [Config.extent, Config.phaseEnd, Config.ph23Start, h3, if_true]; omega
    · cases ho
  · split at ho
    · next hl =>
      injection ho with ho; subst ho
      simp only [Config.extent, Config.longStart, hl, if_true]; omega
    · cases ho

/-- A common field lies, identifier included, in `b[1..PH1_END]` (R194, W1). -/
theorem legal_common {c : Config} (h : c.legal = true) {f : Field} {o : Nat} (hp : c.layout.place f = (.common, o)) :
    7 ≤ o ∧ o + c.width f ≤ c.layout.ph1End + 1 := by
  have hb := legal_fieldInBlock h f
  simpa [Config.fieldInBlock, hp] using hb

/-- Every byte a timestamp names lies below `TS_LEN` (10_state.md R26). -/
theorem tsSub_offset_lt (t : TsSub) {i : Nat} (hi : i ∈ t.offsets) : i < t.len := by
  have key : ∀ (l : List Nat), i ∈ l → i ≤ l.foldr max 0 := by
    intro l
    induction l with
    | nil => intro h; cases h
    | cons a l ih =>
      intro h
      simp only [List.foldr_cons]
      rcases List.mem_cons.mp h with rfl | h
      · exact Nat.le_max_left ..
      · exact Nat.le_trans (ih h) (Nat.le_max_right ..)
  have := key _ hi
  unfold TsSub.len
  omega

/-- A kind has a field exactly when it has the field's block (R193). -/
theorem off_isSome (c : Config) (k : LayoutKind) (f : Field) :
    (c.off k f).isSome = match (c.layout.place f).1 with
      | .common => true
      | .three => k.three
      | .long => k.long := by
  unfold Config.off
  cases f <;> simp [Layout.place] <;> split <;> simp_all

end Sys2Proof
end

