-- ==== Sys2Proof/Laws/Extract.lean ====
section
/-! SUPPORT. The extraction primitives: on a readable range they answer, and they read nothing else. -/

namespace Sys2Proof.Machine

variable {s : State}

theorem readBe16_ok {o : Nat} (h : s.readable o 2) : ∃ v, readBe16 s o = .ok v := by
  obtain ⟨r, hr⟩ := memRead_ok h
  exact ⟨_, by rw [readBe16, hr]; rfl⟩

theorem readBe32_ok {o : Nat} (h : s.readable o 4) : ∃ v, readBe32 s o = .ok v := by
  obtain ⟨r, hr⟩ := memRead_ok h
  exact ⟨_, by rw [readBe32, hr]; rfl⟩

theorem readLe16_ok {o : Nat} (h : s.readable o 2) : ∃ v, readLe16 s o = .ok v := by
  obtain ⟨a, ha⟩ := readByte_ok (readable_mono (j := o) (m := 1) h (by omega) (by omega))
  obtain ⟨b, hb⟩ := readByte_ok (readable_mono (j := o + 1) (m := 1) h (by omega) (by omega))
  exact ⟨le16 a b, by simp only [readLe16, ha, hb]⟩

theorem readBcd16_ok {o : Nat} (h : s.readable o 2) : ∃ v, readBcd16 s o = .ok v := by
  obtain ⟨a, ha⟩ := readByte_ok (readable_mono (j := o) (m := 1) h (by omega) (by omega))
  obtain ⟨b, hb⟩ := readByte_ok (readable_mono (j := o + 1) (m := 1) h (by omega) (by omega))
  exact ⟨BitVec.ofNat 16 (100 * bcdByte a + bcdByte b), by simp only [readBcd16, ha, hb]⟩

/-- Two held bytes, big-endian (20_memory.md R55). -/
theorem readBe16_of_holds {o : Nat} {a b : Byte} (h : s.holds o [a, b]) :
    readBe16 s o = .ok (BitVec.ofNat 16 (bigEndian [a, b])) := by
  obtain ⟨r, hr, hl⟩ : ∃ r : Bytes 2, memRead s o 2 = .ok r ∧ r.toList = [a, b] := memRead_of_holds h
  simp only [readBe16, hr, Except.map, hl]

/-- Four held bytes, big-endian (20_memory.md R55). -/
theorem readBe32_of_holds {o : Nat} {a b c d : Byte} (h : s.holds o [a, b, c, d]) :
    readBe32 s o = .ok (BitVec.ofNat 32 (bigEndian [a, b, c, d])) := by
  obtain ⟨r, hr, hl⟩ : ∃ r : Bytes 4, memRead s o 4 = .ok r ∧ r.toList = [a, b, c, d] := memRead_of_holds h
  simp only [readBe32, hr, Except.map, hl]

/-- Two held bytes, little-endian (20_memory.md R56). -/
theorem readLe16_of_holds {o : Nat} {a b : Byte} (h : s.holds o [a, b]) : readLe16 s o = .ok (le16 a b) := by
  obtain ⟨h1, h2⟩ := holds_cons h
  simp only [readLe16, readByte_of_holds h1, readByte_of_holds h2]

/-- Two held bytes as a BCD year (R165). -/
theorem readBcd16_of_holds {o : Nat} {a b : Byte} (h : s.holds o [a, b]) :
    readBcd16 s o = .ok (BitVec.ofNat 16 (100 * bcdByte a + bcdByte b)) := by
  obtain ⟨h1, h2⟩ := holds_cons h
  simp only [readBcd16, readByte_of_holds h1, readByte_of_holds h2]

/-- The held bytes before a value are its identifier (R169). -/
theorem extractIdent_of_holds {o : Nat} {ident : Ident} (ho : 6 ≤ o) (h : s.holds (o - 6) ident.toList) :
    extractIdent s o = .ok ident := by
  obtain ⟨r, hr, hl⟩ := memRead_of_holds h
  have key : ∀ {n} (q : Bytes n), n = 6 → memRead s (o - 6) n = .ok q → q.toList = ident.toList →
      memRead s (o - 6) 6 = .ok ident := by
    rintro _ q rfl hq hl; rw [hq, Vector.toList_inj.mp hl]
  rw [extractIdent, if_neg (by omega), key r (by simp) hr hl]

theorem extractIdent_ok {o : Nat} (ho : 6 ≤ o) (h : s.readable (o - 6) 6) : ∃ v, extractIdent s o = .ok v := by
  obtain ⟨r, hr⟩ := memRead_ok h
  exact ⟨r, by rw [extractIdent, if_neg (by omega), hr]⟩

theorem extractYear_ok {o : Nat} (h : s.readable (o + s.cfg.tsSub.year) 2) : ∃ v, extractYear s o = .ok v := by
  unfold extractYear
  split
  · exact readBe16_ok h
  · exact readBcd16_ok h

theorem extractComponent_ok {i : Nat} (h : s.readable i 1) : ∃ v, extractComponent s i = .ok v := by
  obtain ⟨x, hx⟩ := readByte_ok h
  unfold extractComponent
  split
  · exact ⟨x, hx⟩
  · exact ⟨_, by rw [hx]; rfl⟩

/-- A timestamp answers where its `TS_LEN` bytes are readable (R167). -/
theorem extractTimestamp_ok {o : Nat} (h : s.readable o s.cfg.tsSub.len) : ∃ v, extractTimestamp s o = .ok v := by
  have hlt : ∀ i ∈ s.cfg.tsSub.offsets, i < s.cfg.tsSub.len := fun i => tsSub_offset_lt _
  simp only [TsSub.offsets, List.mem_cons, List.not_mem_nil, or_false, forall_eq_or_imp, forall_eq] at hlt
  have one : ∀ i, i < s.cfg.tsSub.len → s.readable (o + i) 1 := fun i hi => readable_mono h (by omega) (by omega)
  obtain ⟨year, hy⟩ := extractYear_ok (s := s) (o := o) (readable_mono h (by omega) (by omega))
  obtain ⟨month, hm⟩ := extractComponent_ok (one s.cfg.tsSub.month (by omega))
  obtain ⟨day, hd⟩ := extractComponent_ok (one s.cfg.tsSub.day (by omega))
  obtain ⟨hour, hh⟩ := extractComponent_ok (one s.cfg.tsSub.hour (by omega))
  obtain ⟨minute, hn⟩ := extractComponent_ok (one s.cfg.tsSub.minute (by omega))
  obtain ⟨second, hs⟩ := extractComponent_ok (one s.cfg.tsSub.second (by omega))
  obtain ⟨wd, hw⟩ := readByte_ok (one s.cfg.tsSub.weekday (by omega))
  exact ⟨_, by rw [extractTimestamp, hy, hm, hd, hh, hn, hs, hw]; rfl⟩

/-- The two parts of a tagged value, when both are read. -/
theorem extractTagged_of_ok {α : Type} {o : Nat} {value : Except Fault α} {i : Ident} {v : α}
    (hi : extractIdent s o = .ok i) (hv : value = .ok v) : extractTagged s o value = .ok ⟨i, v⟩ := by
  subst hv; rw [extractTagged, hi]; rfl

/-- `EXT.FIELD` and the typed extractors answer where the field, identifier included, is readable (R170). -/
theorem extractTagged_ok {α : Type} {o w : Nat} {value : Except Fault α} (ho : 6 ≤ o) (h : s.readable (o - 6) (w + 6))
    (hv : s.readable o w → ∃ v, value = .ok v) : ∃ t, extractTagged s o value = .ok t := by
  obtain ⟨i, hi⟩ := extractIdent_ok ho (readable_mono h (by omega) (by omega))
  obtain ⟨v, hv⟩ := hv (readable_mono h (by omega) (by omega))
  exact ⟨_, extractTagged_of_ok hi hv⟩

theorem extractU32_ok {o : Nat} (ho : 6 ≤ o) (h : s.readable (o - 6) 10) : ∃ t, extractU32 s o = .ok t :=
  extractTagged_ok (w := 4) ho h readBe32_ok

theorem extractU16_ok {o : Nat} (ho : 6 ≤ o) (h : s.readable (o - 6) 8) : ∃ t, extractU16 s o = .ok t :=
  extractTagged_ok (w := 2) ho h readBe16_ok

theorem extractText_ok {o n : Nat} (ho : 6 ≤ o) (h : s.readable (o - 6) (n + 6)) : ∃ t, extractText s o n = .ok t :=
  extractTagged_ok ho h memRead_ok

theorem extractTs_ok {o : Nat} (ho : 6 ≤ o) (h : s.readable (o - 6) (s.cfg.tsSub.len + 6)) :
    ∃ t, extractTs s o = .ok t :=
  extractTagged_ok ho h extractTimestamp_ok

theorem extractField_ok {f : Field} {o : Nat} (ho : 6 ≤ o) (h : s.readable (o - 6) (s.cfg.width f + 6)) :
    ∃ v, extractField s f o = .ok v := by
  unfold extractField
  unfold Config.width at h
  split <;> rename_i hk <;> rw [hk] at h
  · obtain ⟨t, ht⟩ := extractU32_ok ho h; exact ⟨_, by rw [ht]; rfl⟩
  · obtain ⟨t, ht⟩ := extractU16_ok ho h; exact ⟨_, by rw [ht]; rfl⟩
  · obtain ⟨t, ht⟩ := extractText_ok ho h; exact ⟨_, by rw [ht]; rfl⟩
  · obtain ⟨t, ht⟩ := extractTs_ok ho h; exact ⟨_, by rw [ht]; rfl⟩

end Sys2Proof.Machine
end

