-- ==== Sys2Proof/Laws/Decoder.lean ====
section
/-! SUPPORT. The field decoder: each block writes its own fields with what the extraction primitives return, and under a
legal configuration no decode of a stored candidate stops (44_decoder.md R202). -/

namespace Sys2Proof.Machine

variable {s : State}

/-- A field's identifier and value inside a readable range. -/
theorem readable_field {n : Nat} {f : Field} {o : Nat} (h : s.readable 1 n) (ho : 7 ≤ o)
    (hw : o + s.cfg.width f ≤ n + 1) : s.readable (o - 6) (s.cfg.width f + 6) :=
  readable_mono h (by omega) (by omega)

/-- What a block of fields leaves in a Reading: each field of the block as EXT.FIELD returns it at its offset. -/
def BlockDecoded (s : State) (blk : Block) (start : Nat) (rd rd' : Reading) : Prop :=
  rd'.kind = rd.kind ∧ ∀ f,
    ((s.cfg.layout.place f).1 = blk →
      ∃ v, extractField s f (start + (s.cfg.layout.place f).2) = .ok v ∧ rd'.field? f = some v) ∧
    ((s.cfg.layout.place f).1 ≠ blk → rd'.field? f = rd.field? f)

theorem decodeCommon_ok (hl : s.cfg.legal = true) (h : s.readable 1 s.cfg.layout.ph1End) (rd : Reading) :
    ∃ rd', decodeCommon s rd = .ok rd' ∧ BlockDecoded s .common 0 rd rd' ∧
      rd'.threeP = rd.threeP ∧ rd'.longP = rd.longP := by
  have at_ : ∀ f o, s.cfg.layout.place f = (.common, o) → 6 ≤ o ∧ s.readable (o - 6) (s.cfg.width f + 6) := by
    intro f o hp
    have := legal_common hl hp
    exact ⟨by omega, readable_field h this.1 this.2⟩
  obtain ⟨a, ha⟩ := extractTs_ok (at_ .capTs _ rfl).1 (at_ .capTs _ rfl).2
  obtain ⟨b, hb⟩ := extractText_ok (n := 14) (at_ .listVersion _ rfl).1 (at_ .listVersion _ rfl).2
  obtain ⟨c, hc⟩ := extractText_ok (n := 16) (at_ .meterSerial _ rfl).1 (at_ .meterSerial _ rfl).2
  obtain ⟨d, hd⟩ := extractText_ok (n := 18) (at_ .meterType _ rfl).1 (at_ .meterType _ rfl).2
  obtain ⟨e, he⟩ := extractU32_ok (at_ .pImp _ rfl).1 (at_ .pImp _ rfl).2
  obtain ⟨f, hf⟩ := extractU32_ok (at_ .pExp _ rfl).1 (at_ .pExp _ rfl).2
  obtain ⟨g, hg⟩ := extractU32_ok (at_ .qImp _ rfl).1 (at_ .qImp _ rfl).2
  obtain ⟨i, hi⟩ := extractU32_ok (at_ .qExp _ rfl).1 (at_ .qExp _ rfl).2
  obtain ⟨j, hj⟩ := extractU32_ok (at_ .currentL1 _ rfl).1 (at_ .currentL1 _ rfl).2
  obtain ⟨k, hk⟩ := extractU16_ok (at_ .voltageL1 _ rfl).1 (at_ .voltageL1 _ rfl).2
  refine ⟨_, by rw [decodeCommon, ha, hb, hc, hd, he, hf, hg, hi, hj, hk]; rfl, ?_⟩
  refine ⟨⟨rfl, fun f' => ?_⟩, rfl, rfl⟩
  cases f' <;> simp [Layout.place, Reading.field?, extractField, Field.kind, ha, hb, hc, hd, he, hf, hg, hi, hj, hk, Except.map]

theorem decodeThree_ok (hl : s.cfg.legal = true) {k : LayoutKind} (h : s.readable 1 (s.cfg.extent k)) (rd : Reading) :
    ∃ rd', decodeThree k s rd = .ok rd' ∧ rd'.threeP = k.three ∧ rd'.longP = rd.longP ∧
      (k.three = true → BlockDecoded s .three s.cfg.ph23Start rd rd') ∧
      (k.three = false → rd'.kind = rd.kind ∧ ∀ f, rd'.field? f =
        if (s.cfg.layout.place f).1 = .three then none else rd.field? f) := by
  by_cases h3 : k.three = true
  · have at_ : ∀ f r, s.cfg.layout.place f = (.three, r) →
        6 ≤ s.cfg.ph23Start + r ∧ s.readable (s.cfg.ph23Start + r - 6) (s.cfg.width f + 6) := by
      intro f r hp
      have := legal_off (k := k) (o := s.cfg.ph23Start + r) hl (f := f) (by simp [Config.off, hp, h3])
      exact ⟨by omega, readable_field h this.1 this.2⟩
    obtain ⟨a, ha⟩ := extractU32_ok (at_ .currentL2 _ rfl).1 (at_ .currentL2 _ rfl).2
    obtain ⟨b, hb⟩ := extractU16_ok (at_ .voltageL2 _ rfl).1 (at_ .voltageL2 _ rfl).2
    obtain ⟨c, hc⟩ := extractU32_ok (at_ .currentL3 _ rfl).1 (at_ .currentL3 _ rfl).2
    obtain ⟨d, hd⟩ := extractU16_ok (at_ .voltageL3 _ rfl).1 (at_ .voltageL3 _ rfl).2
    refine ⟨_, by rw [decodeThree, if_pos h3, ha, hb, hc, hd]; rfl, ?_⟩
    refine ⟨h3.symm, rfl, fun _ => ⟨rfl, fun f' => ?_⟩, fun hf => by simp [h3] at hf⟩
    cases f' <;> simp [Layout.place, Reading.field?, extractField, Field.kind, ha, hb, hc, hd, Except.map]
  · refine ⟨_, by rw [decodeThree, if_neg h3], ?_⟩
    refine ⟨by simpa using Eq.symm (by simpa using h3), rfl, fun hf => absurd hf h3, fun _ => ⟨rfl, fun f' => ?_⟩⟩
    cases f' <;> simp [Layout.place, Reading.field?]

theorem decodeLong_ok (hl : s.cfg.legal = true) {k : LayoutKind} (h : s.readable 1 (s.cfg.extent k)) (rd : Reading) :
    ∃ rd', decodeLong k s rd = .ok rd' ∧ rd'.longP = k.long ∧ rd'.threeP = rd.threeP ∧
      (k.long = true → BlockDecoded s .long (s.cfg.longStart k) rd rd') ∧
      (k.long = false → rd'.kind = rd.kind ∧ ∀ f, rd'.field? f =
        if (s.cfg.layout.place f).1 = .long then none else rd.field? f) := by
  by_cases h3 : k.long = true
  · have at_ : ∀ f r, s.cfg.layout.place f = (.long, r) →
        6 ≤ s.cfg.longStart k + r ∧ s.readable (s.cfg.longStart k + r - 6) (s.cfg.width f + 6) := by
      intro f r hp
      have := legal_off (k := k) (o := s.cfg.longStart k + r) hl (f := f) (by simp [Config.off, hp, h3])
      exact ⟨by omega, readable_field h this.1 this.2⟩
    obtain ⟨a, ha⟩ := extractTs_ok (at_ .meterTs _ rfl).1 (at_ .meterTs _ rfl).2
    obtain ⟨b, hb⟩ := extractU32_ok (at_ .eaImp _ rfl).1 (at_ .eaImp _ rfl).2
    obtain ⟨c, hc⟩ := extractU32_ok (at_ .eaExp _ rfl).1 (at_ .eaExp _ rfl).2
    obtain ⟨d, hd⟩ := extractU32_ok (at_ .erImp _ rfl).1 (at_ .erImp _ rfl).2
    obtain ⟨e, he⟩ := extractU32_ok (at_ .erExp _ rfl).1 (at_ .erExp _ rfl).2
    refine ⟨_, by rw [decodeLong, if_pos h3, ha, hb, hc, hd, he]; rfl, ?_⟩
    refine ⟨h3.symm, rfl, fun _ => ⟨rfl, fun f' => ?_⟩, fun hf => by simp [h3] at hf⟩
    cases f' <;> simp [Layout.place, Reading.field?, extractField, Field.kind, ha, hb, hc, hd, he, Except.map]
  · refine ⟨_, by rw [decodeLong, if_neg h3], ?_⟩
    refine ⟨by simpa using Eq.symm (by simpa using h3), rfl, fun hf => absurd hf h3, fun _ => ⟨rfl, fun f' => ?_⟩⟩
    cases f' <;> simp [Layout.place, Reading.field?]

/-- The whole decode: kind, flags, and each field with what EXT.FIELD returns at the field's offset in the kind,
`none` where the kind has no such field (R193, R199-R203). -/
theorem decodeBlocks_ok (hl : s.cfg.legal = true) {k : LayoutKind} (h : s.readable 1 (s.cfg.extent k)) :
    ∃ rd, decodeBlocks k s = .ok rd ∧ rd.kind = k.bits ∧ rd.threeP = k.three ∧ rd.longP = k.long ∧
      ∀ f, match s.cfg.off k f with
        | none => rd.field? f = none
        | some o => ∃ v, extractField s f o = .ok v ∧ rd.field? f = some v := by
  have hp : s.readable 1 s.cfg.layout.ph1End :=
    readable_mono h (by omega) (by simp only [Config.extent, Config.phaseEnd]; omega)
  obtain ⟨r1, h1, ⟨-, c1⟩, -, -⟩ := decodeCommon_ok hl hp (Reading.absent 0#2)
  obtain ⟨r2, h2, t2, -, d2, e2⟩ := decodeThree_ok hl h r1
  obtain ⟨r3, h3, l3, t3, d3, e3⟩ := decodeLong_ok hl h r2
  refine ⟨_, by rw [decodeBlocks, h1]; simp only [bind, Except.bind, h2, h3]; rfl, ?_⟩
  refine ⟨rfl, by simp [t3, t2], by simp [l3], fun f => ?_⟩
  have fieldEq : ∀ (rd : Reading) (x : BitVec 2), ({ rd with kind := x } : Reading).field? f = rd.field? f := by
    intro rd x; cases f <;> rfl
  rw [fieldEq]
  have c1f := c1 f
  rcases hpl : s.cfg.layout.place f with ⟨b, o⟩
  rw [hpl] at c1f
  have h2f : b ≠ .three → r2.field? f = r1.field? f := by
    intro hb
    by_cases hk : k.three = true
    · have := (d2 hk).2 f; rw [hpl] at this; exact this.2 hb
    · have := (e2 (by simpa using hk)).2 f; rw [hpl] at this; simpa [hb] using this
  have h3f : b ≠ .long → r3.field? f = r2.field? f := by
    intro hb
    by_cases hk : k.long = true
    · have := (d3 hk).2 f; rw [hpl] at this; exact this.2 hb
    · have := (e3 (by simpa using hk)).2 f; rw [hpl] at this; simpa [hb] using this
  cases b with
  | common =>
    obtain ⟨v, hv, hr⟩ := c1f.1 rfl
    simp only [Config.off, hpl]
    exact ⟨v, by simpa using hv, by rw [h3f (by simp), h2f (by simp), hr]⟩
  | three =>
    rw [h3f (by simp)]
    by_cases hk : k.three = true
    · have := (d2 hk).2 f; rw [hpl] at this
      simpa [Config.off, hpl, hk] using this.1 rfl
    · have := (e2 (by simpa using hk)).2 f; rw [hpl] at this
      simpa [Config.off, hpl, hk] using this
  | long =>
    by_cases hk : k.long = true
    · have := (d3 hk).2 f; rw [hpl] at this
      simpa [Config.off, hpl, hk] using this.1 rfl
    · have := (e3 (by simpa using hk)).2 f; rw [hpl] at this
      simpa [Config.off, hpl, hk] using this

/-- What the decode sequence answers, said once (R203). -/
theorem decodeFrame_cases (hl : s.cfg.legal = true) (hs : s.candidateStored) (hn : 180 ≤ s.cnt) :
    ∃ d, readByte s s.cfg.discOff = .ok d ∧
      ((kindOfDisc d = none ∧ decodeFrame s = .ok (.error (unknownLayout d))) ∨
       ∃ k, kindOfDisc d = some k ∧
        ((∃ j, checkFit k s = some j ∧ decodeFrame s = .ok (.error j)) ∨
         (s.cfg.extent k + 4 ≤ s.cnt ∧ ∃ rd, decodeBlocks k s = .ok rd ∧ decodeFrame s = .ok (.ok rd)))) := by
  have hd := legal_discOff hl
  obtain ⟨d, hr⟩ := readByte_ok (readable_of_stored hs (i := s.cfg.discOff) (n := 1) (by omega))
  refine ⟨d, hr, ?_⟩
  cases hk : kindOfDisc d with
  | none => exact .inl ⟨rfl, by simp only [decodeFrame, hr, hk]⟩
  | some k =>
    refine .inr ⟨k, rfl, ?_⟩
    cases hf : checkFit k s with
    | some j => exact .inl ⟨j, rfl, by simp only [decodeFrame, hr, hk, hf]⟩
    | none =>
      have hfit : s.cfg.extent k + 4 ≤ s.cnt := by
        unfold checkFit at hf; split at hf
        · cases hf
        · omega
      obtain ⟨rd, hb, -⟩ := decodeBlocks_ok hl (k := k) (readable_of_stored hs (by omega))
      exact .inr ⟨hfit, rd, hb, by simp only [decodeFrame, hr, hk, hf, hb]; rfl⟩

end Sys2Proof.Machine
end

