-- ==== Sys2Proof/Laws/Validator.lean ====
section
/-! SUPPORT. The validator: when each check answers, what the sequence answers, and what closing a candidate does. -/

namespace Sys2Proof.Machine

variable {s : State}

/-! ### Context words -/

/-- A context word below 2^32 is the number, zero-extended (60_exceptions.md R231). -/
theorem contextWord_of_lt {n : Nat} (h : n < 4294967296) : contextWord n = BitVec.ofNat 32 n := by
  unfold contextWord
  rw [if_pos ⟨by omega, by omega⟩, Int.toNat_natCast]

/-! ### Each check answers where its bytes are readable -/

theorem crcOfRange_ok {lo hi : Nat} (h : s.readable lo (hi + 1 - lo)) : ∃ c, crcOfRange s lo hi = .ok c := by
  obtain ⟨r, hr⟩ := memRead_ok h
  unfold crcOfRange
  split
  · exact ⟨_, rfl⟩
  · exact ⟨_, by rw [hr]; rfl⟩

theorem compareChecksum_ok {code : Code} {x y : Except Fault Half} (hx : ∃ a, x = .ok a) (hy : ∃ b, y = .ok b) :
    ∃ r, compareChecksum code x y = .ok r := by
  obtain ⟨a, rfl⟩ := hx
  obtain ⟨b, rfl⟩ := hy
  unfold compareChecksum
  dsimp only
  split <;> exact ⟨_, rfl⟩

theorem checkSize_eq : checkSize s = .ok (if s.cnt < 180 ∨ 302 < s.cnt then
    some ⟨.sizeOutOfRange, contextWord s.cnt, 0x00B4012E#32⟩ else none) := by
  have : contextWord (65536 * minLen + maxLen : Nat) = 0x00B4012E#32 := contextWord_of_lt (by decide)
  unfold checkSize
  rw [this]
  by_cases h : s.cnt < 180 ∨ 302 < s.cnt
  · have h' : s.cnt < minLen ∨ maxLen < s.cnt := h
    rw [if_pos h, if_pos h']
  · have h' : ¬ (s.cnt < minLen ∨ maxLen < s.cnt) := h
    rw [if_neg h, if_neg h']

/-- Checks 2 to 6 answer on every stored candidate of at least 12 bytes (42_validator.md R137). -/
theorem checks_ok (hs : s.candidateStored) (hn : 12 ≤ s.cnt) :
    (∃ r, checkFraming s = .ok r) ∧ (∃ r, checkHcs s = .ok r) ∧ (∃ r, checkFcs s = .ok r) ∧
      (∃ r, checkTag s = .ok r) ∧ (∃ r, checkLen s = .ok r) := by
  have rd : ∀ i n, i + n ≤ s.cnt → s.readable i n := fun i n h => readable_of_stored hs h
  refine ⟨?_, ?_, ?_, ?_, ?_⟩
  · obtain ⟨a, ha⟩ := readByte_ok (rd 0 1 (by omega))
    obtain ⟨z, hz⟩ := readByte_ok (rd (s.cnt - 1) 1 (by omega))
    unfold checkFraming
    rw [ha, hz]; dsimp only
    split <;> exact ⟨_, rfl⟩
  · exact compareChecksum_ok (crcOfRange_ok (rd 1 5 (by omega))) (readLe16_ok (rd 6 2 (by omega)))
  · unfold checkFcs
    rw [if_neg (by omega)]
    exact compareChecksum_ok (crcOfRange_ok (rd 1 _ (by omega))) (readLe16_ok (rd _ 2 (by omega)))
  · obtain ⟨r, hr⟩ := memRead_ok (rd 8 4 (by omega))
    unfold checkTag
    rw [hr]; dsimp only
    split <;> exact ⟨_, rfl⟩
  · obtain ⟨a, ha⟩ := readByte_ok (rd 1 1 (by omega))
    obtain ⟨b, hb⟩ := readByte_ok (rd 2 1 (by omega))
    unfold checkLen
    rw [ha, hb]; dsimp only
    split <;> exact ⟨_, rfl⟩

/-! ### Failures carry a failure code -/

theorem compareChecksum_code {code : Code} {x y : Except Fault Half} {j : Reject}
    (h : compareChecksum code x y = .ok (some j)) : j.code = code := by
  unfold compareChecksum at h
  repeat' split at h
  all_goals (cases h <;> rfl)

/-- The code of each check's failure (60_exceptions.md R230). -/
theorem check_codes {j : Reject} :
    (checkSize s = .ok (some j) → j.code = .sizeOutOfRange) ∧
    (checkFraming s = .ok (some j) → j.code = .framingMismatch) ∧
    (checkHcs s = .ok (some j) → j.code = .headerChecksumMismatch) ∧
    (checkFcs s = .ok (some j) → j.code = .frameChecksumMismatch) ∧
    (checkTag s = .ok (some j) → j.code = .unexpectedPayloadTag) ∧
    (checkLen s = .ok (some j) → j.code = .lengthFieldMismatch) := by
  refine ⟨fun h => ?_, fun h => ?_, compareChecksum_code, fun h => ?_, fun h => ?_, fun h => ?_⟩
  · rw [checkSize_eq] at h
    split at h <;> simp only [Except.ok.injEq, Option.some.injEq, reduceCtorEq] at h
    rw [← h]
  · unfold checkFraming at h
    repeat' split at h
    all_goals (cases h <;> rfl)
  · unfold checkFcs at h
    split at h
    · cases h
    · exact compareChecksum_code h
  · unfold checkTag at h
    repeat' split at h
    all_goals (cases h <;> rfl)
  · unfold checkLen at h
    repeat' split at h
    all_goals (cases h <;> rfl)

/-! ### The sequence -/

/-- A failure of a sequence is a failure of one of its checks. -/
theorem firstFailure_some {cs : List (State → Except Fault (Option Reject))} {j : Reject}
    (h : firstFailure cs s = .ok (some j)) : ∃ c ∈ cs, c s = .ok (some j) := by
  induction cs with
  | nil => simp [firstFailure] at h
  | cons c cs ih =>
    unfold firstFailure at h
    split at h
    · cases h
    · next hc => injection h with h; injection h with h; subst h; exact ⟨c, by simp, hc⟩
    · obtain ⟨d, hd, he⟩ := ih h; exact ⟨d, by simp [hd], he⟩

/-- A sequence accepts exactly when every check passes. -/
theorem firstFailure_none {cs : List (State → Except Fault (Option Reject))} :
    firstFailure cs s = .ok none ↔ ∀ c ∈ cs, c s = .ok none := by
  induction cs with
  | nil => simp [firstFailure]
  | cons c cs ih =>
    unfold firstFailure
    split
    · next h => simp [h]
    · next h => simp [h]
    · next h => simp [h, ih]

/-- Checks that pass are stepped over. -/
theorem firstFailure_append {cs ds : List (State → Except Fault (Option Reject))} (h : ∀ c ∈ cs, c s = .ok none) :
    firstFailure (cs ++ ds) s = firstFailure ds s := by
  induction cs with
  | nil => rfl
  | cons c cs ih =>
    simp only [List.cons_append, firstFailure, h c (by simp)]
    exact ih fun d hd => h d (by simp [hd])

/-- A sequence whose checks all answer, answers. -/
theorem firstFailure_ok {cs : List (State → Except Fault (Option Reject))} (h : ∀ c ∈ cs, ∃ r, c s = .ok r) :
    ∃ r, firstFailure cs s = .ok r := by
  induction cs with
  | nil => exact ⟨none, rfl⟩
  | cons c cs ih =>
    obtain ⟨r, hr⟩ := h c (by simp)
    unfold firstFailure
    rw [hr]
    cases r with
    | some j => exact ⟨some j, rfl⟩
    | none => exact ih fun d hd => h d (by simp [hd])

/-- The candidate of a wrong length: the first check reports it and nothing is read (R137). -/
theorem validate_size (h : s.cnt < 180 ∨ 302 < s.cnt) :
    validate s = .ok (some ⟨.sizeOutOfRange, contextWord s.cnt, 0x00B4012E#32⟩) := by
  unfold validate firstFailure
  rw [checkSize_eq, if_pos h]

/-- The validator answers on every candidate of a filled buffer under a legal configuration (R137). -/
theorem validate_ok (hl : s.cfg.legal = true) (hf : s.bufferFilled) : ∃ r, validate s = .ok r := by
  by_cases h : s.cnt < 180 ∨ 302 < s.cnt
  · exact ⟨_, validate_size h⟩
  · have hc := legal_bufCap hl
    obtain ⟨h2, h3, h4, h5, h6⟩ := checks_ok (stored_of_filled hf (by omega)) (by omega)
    apply firstFailure_ok
    intro c hc
    simp only [List.mem_cons, List.not_mem_nil, or_false] at hc
    rcases hc with rfl | rfl | rfl | rfl | rfl | rfl
    · exact ⟨_, checkSize_eq⟩
    all_goals assumption

/-- An accepted candidate has a valid length. -/
theorem cnt_of_accepted (h : validate s = .ok none) : 180 ≤ s.cnt ∧ s.cnt ≤ 302 := by
  have := firstFailure_none.mp h checkSize (by simp)
  rw [checkSize_eq] at this
  by_contra hn
  rw [if_pos (by omega)] at this
  cases this

/-- A failure of the validator has one of the codes 1..6. -/
theorem validate_code {j : Reject} (h : validate s = .ok (some j)) :
    j.code = .sizeOutOfRange ∨ j.code = .framingMismatch ∨ j.code = .headerChecksumMismatch ∨
      j.code = .frameChecksumMismatch ∨ j.code = .unexpectedPayloadTag ∨ j.code = .lengthFieldMismatch := by
  obtain ⟨c, hc, he⟩ := firstFailure_some h
  have := check_codes (s := s) (j := j)
  simp only [List.mem_cons, List.not_mem_nil, or_false] at hc
  rcases hc with rfl | rfl | rfl | rfl | rfl | rfl <;> tauto

/-! ### Closing a candidate -/

/-- A failure of the decoder has code 7 or 8. -/
theorem decodeFrame_code {j : Reject} (h : decodeFrame s = .ok (.error j)) :
    j.code = .unknownLayout ∨ j.code = .layoutExceedsFrame := by
  unfold decodeFrame at h
  split at h
  · cases h
  · split at h
    · injection h with h; injection h with h; subst h; exact .inl rfl
    · split at h
      · next hf =>
        injection h with h; injection h with h; subst h
        unfold checkFit at hf
        split at hf
        · injection hf with hf; subst hf; exact .inr rfl
        · cases hf
      · cases hb : decodeBlocks _ s <;> rw [hb] at h <;> cases h

/-- What processing a candidate answers, said once: a failure with a failure code, or the Reading of an accepted one. -/
theorem processCandidate_cases {t : State} (h : processCandidate s = .ok t) :
    (∃ j, j.code ≠ .ok ∧ t = s.takeReject j) ∨
    (∃ rd, validate s = .ok none ∧ decodeFrame s = .ok (.ok rd) ∧ t = s.takeReading rd) := by
  unfold processCandidate at h
  split at h
  · cases h
  · next j hv =>
    injection h with h
    refine .inl ⟨j, ?_, h.symm⟩
    rcases validate_code hv with h | h | h | h | h | h <;> simp [h]
  · next hv =>
    split at h
    · cases h
    · next j hd =>
      injection h with h
      refine .inl ⟨j, ?_, h.symm⟩
      rcases decodeFrame_code hd with h | h <;> simp [h]
    · next rd hd =>
      injection h with h
      exact .inr ⟨rd, hv, hd, h.symm⟩

/-- Processing answers on every candidate of a filled buffer under a legal configuration (R137, 44_decoder.md R202). -/
theorem processCandidate_ok (hl : s.cfg.legal = true) (hf : s.bufferFilled) : ∃ t, processCandidate s = .ok t := by
  obtain ⟨r, hr⟩ := validate_ok hl hf
  unfold processCandidate
  rw [hr]
  cases r with
  | some j => exact ⟨_, rfl⟩
  | none =>
    have hn := cnt_of_accepted hr
    have hc := legal_bufCap hl
    obtain ⟨d, -, h⟩ := decodeFrame_cases hl (stored_of_filled hf (by omega)) (by omega)
    rcases h with ⟨-, h⟩ | ⟨k, -, ⟨j, -, h⟩ | ⟨-, rd, -, h⟩⟩ <;> rw [h] <;> exact ⟨_, rfl⟩

/-- What ASM.CLOSE answers when it answers a state (40_assembler.md R103). -/
theorem execAsmClose_next {v : Byte} {t : State} (h : execAsmClose v s = .next t) :
    ∃ u, processCandidate (s.append v) = .ok u ∧ t = u.finishCandidate := by
  unfold execAsmClose at h
  split at h
  · cases h
  · next u hu => injection h with h; exact ⟨u, hu, h.symm⟩

end Sys2Proof.Machine
end

