-- ==== Sys2Proof/Laws/Step.lean ====
section
/-! SUPPORT. What the shared outcome forms, the fetch and a step can answer, each said once. -/

namespace Sys2Proof.Machine

variable {s t : State}

/-- A function that reads the candidate changes only the returned value. -/
theorem returning_next {α : Type} {r : Except Fault α} {f : α → Ret} (h : returning s r f = .next t) :
    ∃ a, r = .ok a ∧ t = { s with ret := f a } := by
  unfold returning at h
  split at h
  · cases h
  · next a => injection h with h; exact ⟨a, rfl, h.symm⟩

theorem returning_of_ok {α : Type} {r : Except Fault α} {f : α → Ret} {a : α} (h : r = .ok a) :
    returning s r f = .next { s with ret := f a } := by
  subst h; rfl

/-- A check passes, or writes `RES` and `RD` as a failure does. -/
theorem checking_next {r : Except Fault (Option Reject)} (h : checking s r = .next t) :
    (r = .ok none ∧ t = s.passed) ∨ ∃ j, r = .ok (some j) ∧ t = s.takeReject j := by
  unfold checking at h
  split at h
  · cases h
  · injection h with h; exact .inl ⟨rfl, h.symm⟩
  · next j => injection h with h; exact .inr ⟨j, rfl, h.symm⟩

theorem checking_pass {r : Except Fault (Option Reject)} (h : r = .ok none) : checking s r = .next s.passed := by
  subst h; rfl

theorem checking_reject {r : Except Fault (Option Reject)} {j : Reject} (h : r = .ok (some j)) :
    checking s r = .next (s.takeReject j) := by
  subst h; rfl

/-- Decoding a block changes only `RD` and the returned value. -/
theorem writingRd_next {r : Except Fault Reading} (h : writingRd s r = .next t) :
    ∃ rd, r = .ok rd ∧ t = { s with rd := rd, ret := .none } := by
  unfold writingRd at h
  split at h
  · cases h
  · next rd => injection h with h; exact ⟨rd, rfl, h.symm⟩

theorem writingRd_of_ok {r : Except Fault Reading} {rd : Reading} (h : r = .ok rd) :
    writingRd s r = .next { s with rd := rd, ret := .none } := by
  subst h; rfl

/-! ### Fetch and step -/

/-- Taking a stimulus changes nothing but the pending input. -/
theorem fetch_frame (s : State) : (fetch s).2 = { s with inq := s.inq.tail } := by
  unfold fetch
  split
  · next h => cases s; simp_all
  · next h => simp [h]

theorem fetch_cons {e : Stimulus} {rest : List Stimulus} (h : s.inq = e :: rest) :
    fetch s = (e, { s with inq := rest }) := by
  simp [fetch, h]

theorem fetch_nil (h : s.inq = []) : fetch s = (.empty, s) := by
  simp [fetch, h]

/-- A step that answers a state has a legal configuration and executes the operation its stimulus selects. -/
theorem step_next (h : step s = .next t) : s.cfg.legal = true ∧
    ∃ i, decodeStimulus s.cfg.sentinel s.cnt (fetch s).1 = .ok i ∧ exec i (fetch s).2 = .next t := by
  unfold step at h
  split at h
  · next hl =>
    split at h
    · next i hi => exact ⟨hl, i, hi, h⟩
    · cases h
  · cases h

/-- A step under a legal configuration is the execution of the selected operation. -/
theorem step_of_decode {i : Instr} (hl : s.cfg.legal = true)
    (hi : decodeStimulus s.cfg.sentinel s.cnt (fetch s).1 = .ok i) : step s = exec i (fetch s).2 := by
  unfold step
  rw [if_pos hl, hi]

/-- A step on a pending stimulus. -/
theorem step_cons {e : Stimulus} {rest : List Stimulus} {i : Instr} (hl : s.cfg.legal = true) (hq : s.inq = e :: rest)
    (hi : decodeStimulus s.cfg.sentinel s.cnt e = .ok i) : step s = exec i { s with inq := rest } := by
  rw [step_of_decode hl (by rw [fetch_cons hq]; exact hi), fetch_cons hq]

end Sys2Proof.Machine
end

