-- ==== Sys2Proof/Laws/Crc.lean ====
section
/-! SUPPORT. The CRC register: over a concatenation, linear over XOR, injective in its start value; and the unit's answer on
held bytes. -/

namespace Sys2Proof.Machine

theorem crcRegister_append (crc : Half) (xs ys : List Byte) :
    crcRegister crc (xs ++ ys) = crcRegister (crcRegister crc xs) ys := by
  induction xs generalizing crc with
  | nil => rfl
  | cons x xs ih => exact ih _

theorem crcBit_xor (a b : Half) : crcBit (a ^^^ b) = crcBit a ^^^ crcBit b := by
  unfold crcBit
  rw [BitVec.getLsbD_xor]
  cases a.getLsbD 0 <;> cases b.getLsbD 0 <;> simp [BitVec.ushiftRight_xor_distrib]
  · ac_rfl
  · ac_rfl
  · rw [show a >>> 1 ^^^ crcPoly ^^^ (b >>> 1 ^^^ crcPoly) = (a >>> 1 ^^^ b >>> 1) ^^^ (crcPoly ^^^ crcPoly) by ac_rfl]
    simp

/-- Eight shifts are linear over XOR. -/
theorem crcShift8_xor (a b : Half) : crcShift8 (a ^^^ b) = crcShift8 a ^^^ crcShift8 b := by simp [crcShift8, crcBit_xor]

theorem crcBit_eq_zero {a : Half} (h : crcBit a = 0#16) : a = 0#16 := by
  unfold crcBit at h
  split at h
  · have := congrArg (·.getLsbD 15) h
    simp [crcPoly] at this
  · next h0 =>
    ext i hi
    by_cases hz : i = 0
    · subst hz; simpa [BitVec.getLsbD_eq_getElem] using h0
    · have := congrArg (·.getLsbD (i - 1)) h
      simp [show 1 + (i - 1) = i by omega, BitVec.getLsbD_eq_getElem hi] at this
      simpa using this

/-- No register but 0 shifts to 0. -/
theorem crcShift8_eq_zero {a : Half} (h : crcShift8 a = 0#16) : a = 0#16 :=
  crcBit_eq_zero (crcBit_eq_zero (crcBit_eq_zero (crcBit_eq_zero
    (crcBit_eq_zero (crcBit_eq_zero (crcBit_eq_zero (crcBit_eq_zero h)))))))

/-- One byte keeps different registers different. -/
theorem crcByte_injective {a b : Half} {x : Byte} (h : crcByte a x = crcByte b x) : a = b := by
  have e : a ^^^ b = (a ^^^ x.zeroExtend 16) ^^^ (b ^^^ x.zeroExtend 16) := by
    rw [BitVec.xor_comm b, ← BitVec.xor_assoc, BitVec.xor_assoc a, BitVec.xor_self, BitVec.xor_zero]
  have h0 : a ^^^ b = 0#16 := crcShift8_eq_zero (by
    unfold crcByte at h
    rw [e, crcShift8_xor, h, BitVec.xor_self])
  simpa [BitVec.xor_assoc] using congrArg (· ^^^ b) h0

/-- The checksum of an empty range, wherever it lies (41_crc.md R122). -/
theorem crcOfRange_of_lt {s : State} {lo hi : Nat} (h : hi < lo) : crcOfRange s lo hi = .ok 0x0000#16 := by
  rw [crcOfRange, if_pos h]
  exact congrArg Except.ok (by decide)

/-- The checksum of held bytes (41_crc.md R122). -/
theorem crcOfRange_of_holds {s : State} {lo hi : Nat} {bs : List Byte} (h : s.holds lo bs)
    (hl : bs.length = hi + 1 - lo) : crcOfRange s lo hi = .ok (crc16x25 bs) := by
  by_cases hlt : hi < lo
  · obtain rfl : bs = [] := List.eq_nil_of_length_eq_zero (by omega)
    rw [crcOfRange, if_pos hlt]
  obtain ⟨r, hr, hb⟩ := memRead_of_holds h
  rw [crcOfRange, if_neg hlt]
  cases hm : memRead s lo (hi + 1 - lo) with
  | error e => rw [← hl, hr] at hm; cases hm
  | ok q =>
    have : q.toList = bs := by
      have hq : ∀ n (q : Bytes n), n = bs.length → memRead s lo n = .ok q → q.toList = bs := by
        rintro _ q rfl hq; rw [hr] at hq; cases hq; exact hb
      exact hq _ q hl.symm hm
    simp [Except.map, this]

end Sys2Proof.Machine
end

