-- ==== Sys2Proof/Machine/Render.lean ====
section
/-! DEFINITION. How a reader of `OUT` reads raw registers (43_extract.md R171-R174). The engine computes none of it. -/

namespace Sys2Proof.Machine

/-- Character lists joined by a separator. -/
def joinWith (sep : Char) : List (List Char) → List Char
  | [] => []
  | [a] => a
  | a :: b :: rest => a ++ sep :: joinWith sep (b :: rest)

/-- An identifier: the decimal value of each byte, joined by periods (R171). -/
def renderIdent (ident : Ident) : List Char := joinWith '.' (ident.toList.map fun b => Nat.toDigits 10 b.toNat)

/-- A text field: the character of each byte's code (R172). -/
def renderText (bs : List Byte) : List Char := bs.map fun b => Char.ofNat b.toNat

/-- The weekday name of a code (R173); no name when `WDAY_P = 0`. -/
def weekdayName (p : Bool) (d : BitVec 3) : Option String :=
  if p then ["", "Monday", "Tuesday", "Wednesday", "Thursday", "Friday", "Saturday", "Sunday"][d.toNat]? else none

/-! ### Measured quantities (R174) -/

/-- The units of R174. -/
inductive MeasureUnit where
  | watt
  | voltAmpereReactive
  | ampere
  | volt
  | wattHour
deriving DecidableEq, Repr

/-- The unit's symbol, as R174 writes it. -/
def MeasureUnit.symbol : MeasureUnit → String
  | .watt => "W"
  | .voltAmpereReactive => "VAR"
  | .ampere => "A"
  | .volt => "V"
  | .wattHour => "Wh"

/-- The unit of a field's quantity (R174, 10_state.md R38); a text or timestamp has none. The reactive energies are in
Wh, as the source states (90_conflicts.md C11). -/
def fieldUnit : Field → Option MeasureUnit
  | .capTs | .listVersion | .meterSerial | .meterType | .meterTs => none
  | .pImp | .pExp => some .watt
  | .qImp | .qExp => some .voltAmpereReactive
  | .currentL1 | .currentL2 | .currentL3 => some .ampere
  | .voltageL1 | .voltageL2 | .voltageL3 => some .volt
  | .eaImp | .eaExp | .erImp | .erExp => some .wattHour

/-- How many of the register's steps are one unit: 100 for currents (centiamperes) and energies (centiwatt-hours), 1 for
powers and voltages, which are unscaled (R174). -/
def MeasureUnit.scale : MeasureUnit → Nat
  | .watt => 1
  | .voltAmpereReactive => 1
  | .ampere => 100
  | .volt => 1
  | .wattHour => 100

/-- A number as decimal digits. -/
def renderWhole (n : Nat) : List Char := Nat.toDigits 10 n

/-- Hundredths as a decimal number with two places (log entry 19). -/
def renderCenti (n : Nat) : List Char :=
  renderWhole (n / 100) ++ '.' :: (Nat.toDigits 10 (n % 100 / 10) ++ Nat.toDigits 10 (n % 10))

/-- A register value in its unit (R174): divided by 100 where the unit is 100 steps, else as it is. -/
def renderMeasure (u : MeasureUnit) (raw : Nat) : List Char :=
  if u.scale = 100 then renderCenti raw else renderWhole raw

/-- The register value of a quantity; a text or timestamp is none. -/
def rawValue : FieldValue → Option Nat
  | .u32 t => some t.val.toNat
  | .u16 t => some t.val.toNat
  | .text _ _ => none
  | .timestamp _ => none

/-- A measured field of a Reading as its number and its unit's symbol (R174); none for a field that is no quantity. -/
def renderQuantity (f : Field) (v : FieldValue) : Option (List Char × String) :=
  match fieldUnit f with
  | none => none
  | some u => (rawValue v).map fun raw => (renderMeasure u raw, u.symbol)

end Sys2Proof.Machine
end

