-- ==== Sys2Proof/Tests/Slice0.lean ====
section
/-! SUPPORT. Tests of the model: refused ill-formed operations, decoded words, test vectors of 95_test_vectors.md (named by
their ids), and for each statement with hypotheses a witness that meets them. Expected values come from the spec. -/

set_option Elab.async false

namespace Sys2Proof.Tests

open Sys2Proof Sys2Proof.Machine

/-! ### Helpers -/

/-- A part of the next state, if there is one. -/
def after {α : Type} (f : State → α) : Host.Outcome State Fault Refusal → Option α
  | .next s => some (f s)
  | .fault _ => none
  | .refused _ => none

/-- The fault, if there is one. -/
def faultOf : Host.Outcome State Fault Refusal → Option Fault
  | .next _ => none
  | .fault e => some e
  | .refused _ => none

/-- The refusal, if there is one. -/
def refusalOf : Host.Outcome State Fault Refusal → Option Refusal
  | .next _ => none
  | .fault _ => none
  | .refused e => some e

/-- `RES`; its fields are VALID, OK, CODE, OBS, EXP. -/
def resOf (s : State) : ResultReg := s.res

/-- The buffer cells of bytes from an index on. -/
def cellsFrom : Nat → List Byte → Memory
  | _, [] => []
  | i, b :: bs => (i, b) :: cellsFrom (i + 1) bs

/-- The engine under a configuration with a candidate in its buffer. -/
def candidateUnder (c : Config) (bs : List Byte) : State :=
  { State.reset with cfg := c, buf := cellsFrom 0 bs, cnt := bs.length }

/-- The engine under REF with a candidate in its buffer. -/
def candidate (bs : List Byte) : State := candidateUnder Config.ref bs

/-- REF with another framing condition. -/
def framed (m : Framing) : Config := { Config.ref with framing := m }

/-- Bytes as numbers. -/
def bytes (l : List Nat) : List Byte := l.map (BitVec.ofNat 8)

/-- A list with one entry replaced. -/
def patch (bs : List Byte) (i : Nat) (v : Byte) : List Byte := bs.set i v

theorem get?_cellsFrom (bs : List Byte) (i j : Nat) :
    Memory.get? (cellsFrom i bs) (i + j) = bs[j]? ∧ ∀ k, k < i → Memory.get? (cellsFrom i bs) k = none := by
  induction bs generalizing i j with
  | nil => simp [cellsFrom, Memory.get?]
  | cons b bs ih =>
    refine ⟨?_, fun k hk => ?_⟩
    · cases j with
      | zero => simp [cellsFrom, Memory.get?]
      | succ j =>
        have := (ih (i + 1) j).1
        simp only [cellsFrom, Memory.get?, show ¬ i = i + (j + 1) by omega, if_false, List.getElem?_cons_succ]
        rw [← this]; congr 1; omega
    · have := (ih (i + 1) 0).2 k (by omega)
      simp only [cellsFrom, Memory.get?, show ¬ i = k by omega, if_false, this]

theorem get?_candidate (c : Config) (bs : List Byte) (i : Nat) : (candidateUnder c bs).buf.get? i = bs[i]? := by
  have := (get?_cellsFrom bs 0 i).1
  rwa [Nat.zero_add] at this

theorem candidate_filled (bs : List Byte) (h : bs.length ≤ 302) : (candidate bs).bufferFilled := by
  intro i
  rw [candidate, get?_candidate]
  show bs[i]?.isSome = true ↔ i < min bs.length 302
  simp; omega

theorem candidate_stored (c : Config) (bs : List Byte) : (candidateUnder c bs).candidateStored := by
  intro i hi
  have hi : i < bs.length := hi
  rw [get?_candidate]; simp [hi]

theorem candidate_readable (c : Config) (bs : List Byte) {i n : Nat} (h : i + n ≤ bs.length) :
    (candidateUnder c bs).readable i n :=
  readable_of_stored (candidate_stored c bs) h

theorem candidate_holds (c : Config) (bs xs : List Byte) (i : Nat)
    (h : (bs.drop i).take xs.length = xs ∧ i + xs.length ≤ bs.length) : (candidateUnder c bs).holds i xs := by
  refine ⟨h.2, fun k hk => ?_⟩
  rw [get?_candidate]
  have : xs[k]? = ((bs.drop i).take xs.length)[k]? := by rw [h.1]
  rw [this, List.getElem?_take_of_lt hk, List.getElem?_drop]

/-- The CRC register with the register evaluated byte by byte, which the kernel runs on a whole frame. -/
def crcRun : List Byte → Nat → Half
  | [], n => BitVec.ofNat 16 n
  | x :: xs, 0 => crcRun xs (crcByte 0#16 x).toNat
  | x :: xs, n + 1 => crcRun xs (crcByte (BitVec.ofNat 16 (n + 1)) x).toNat

theorem crcRun_eq (bs : List Byte) (crc : Half) : crcRun bs crc.toNat = crcRegister crc bs := by
  induction bs generalizing crc with
  | nil => simp [crcRun, crcRegister]
  | cons x xs ih =>
    rw [crcRegister, ← ih]
    cases h : crc.toNat with
    | zero => rw [crcRun, show crc = 0#16 from BitVec.eq_of_toNat_eq h]
    | succ n => rw [crcRun, ← h, BitVec.ofNat_toNat, BitVec.setWidth_eq]

/-- A checksum, evaluated. -/
theorem crc_of_run {bs : List Byte} {v : Half} (h : crcRun bs 65535 ^^^ 0xFFFF#16 = v) : crc16x25 bs = v := by
  rw [← h, crc16x25, ← crcRun_eq]; rfl

/-- Check 4 of a candidate whose bytes `1..N-4` have checksum `v`. -/
theorem checkFcs_candidate (c : Config) {bs : List Byte} {v : Half} (h4 : 4 ≤ bs.length)
    (hv : crcRun ((bs.drop 1).take (bs.length - 4)) 65535 ^^^ 0xFFFF#16 = v) :
    checkFcs (candidateUnder c bs) =
      compareChecksum .frameChecksumMismatch (.ok v) (readLe16 (candidateUnder c bs) (bs.length - 3)) := by
  have hl : ((bs.drop 1).take (bs.length - 4)).length = bs.length - 4 := by simp; omega
  have hb : (candidateUnder c bs).holds 1 ((bs.drop 1).take (bs.length - 4)) :=
    candidate_holds _ _ _ _ ⟨by rw [hl], by rw [hl]; omega⟩
  have hc : (candidateUnder c bs).cnt = bs.length := rfl
  unfold checkFcs
  rw [hc, if_neg (by omega), crcOfRange_of_holds hb (by rw [hl]; omega), crc_of_run hv]

/-- The outcome of a check: `none` a model fault, `some none` passed. -/
def verdict : Except Fault (Option Reject) → Option (Option Reject)
  | .ok r => some r
  | .error _ => none

theorem of_verdict {x : Except Fault (Option Reject)} {r : Option Reject} (h : verdict x = some r) : x = .ok r := by
  cases x <;> simp_all [verdict]

/-- A candidate passes all six checks: check 4 by its checksum, the others evaluated. -/
theorem accepted_of (c : Config) {bs : List Byte} (h4 : 4 ≤ bs.length) {v : Half}
    (hv : crcRun ((bs.drop 1).take (bs.length - 4)) 65535 ^^^ 0xFFFF#16 = v)
    (h : [checkSize, checkFraming, checkHcs,
      fun s => compareChecksum .frameChecksumMismatch (.ok v) (readLe16 s (bs.length - 3)), checkTag, checkLen].all
        (fun f => verdict (f (candidateUnder c bs)) == some none) = true) :
    validate (candidateUnder c bs) = .ok none := by
  simp only [List.all_cons, List.all_nil, Bool.and_true, Bool.and_eq_true, beq_iff_eq] at h
  refine firstFailure_none.mpr ?_
  simp only [List.mem_cons, List.not_mem_nil, or_false]
  rintro f (rfl | rfl | rfl | rfl | rfl | rfl)
  · exact of_verdict h.1
  · exact of_verdict h.2.1
  · exact of_verdict h.2.2.1
  · rw [checkFcs_candidate c h4 hv]; exact of_verdict h.2.2.2.1
  · exact of_verdict h.2.2.2.2.1
  · exact of_verdict h.2.2.2.2.2

/-! ### Frames of 95_test_vectors.md section 2 -/

/-- The header bytes 0..7. -/
def header (b1 b2 c1 c2 : Nat) : List Byte := bytes [0x7E, b1, b2, 0x2B, 0x21, 0x13, c1, c2]

/-- Bytes 8..176, which the four frames share but for the discriminant `b[30]`. -/
def common (disc : Nat) : List Byte :=
  bytes [0xE6, 0xE7, 0x00, 0x0F, 0x00, 0x00, 0x00, 0x00, 0x0C, 0x07, 0xE1, 0x09, 0x0C, 0x02, 0x0F, 0x2E] ++
  bytes [0x1E, 0xFF, 0x80, 0x00, 0x00, 0x02, disc, 0x0A, 0x0E, 0x4B, 0x61, 0x6D, 0x73, 0x74, 0x72, 0x75] ++
  bytes [0x70, 0x5F, 0x56, 0x30, 0x30, 0x30, 0x31, 0x00, 0x00, 0x00, 0x00, 0x01, 0x01, 0x00, 0x00, 0x05] ++
  bytes [0xFF, 0x35, 0x37, 0x30, 0x36, 0x35, 0x36, 0x37, 0x33, 0x32, 0x32, 0x39, 0x38, 0x33, 0x36, 0x30] ++
  bytes [0x39, 0x00, 0x00, 0x00, 0x00, 0x01, 0x01, 0x60, 0x01, 0x01, 0xFF, 0x36, 0x38, 0x34, 0x31, 0x31] ++
  bytes [0x33, 0x31, 0x42, 0x4E, 0x32, 0x34, 0x33, 0x31, 0x30, 0x31, 0x30, 0x34, 0x30, 0x00, 0x00, 0x00] ++
  bytes [0x01, 0x01, 0x01, 0x07, 0x00, 0xFF, 0x00, 0x00, 0x05, 0xE3, 0x00, 0x00, 0x00, 0x01, 0x01, 0x02] ++
  bytes [0x07, 0x00, 0xFF, 0x00, 0x00, 0x00, 0x00, 0x00, 0x00, 0x00, 0x01, 0x01, 0x03, 0x07, 0x00, 0xFF] ++
  bytes [0x00, 0x00, 0x00, 0x00, 0x00, 0x00, 0x00, 0x01, 0x01, 0x04, 0x07, 0x00, 0xFF, 0x00, 0x00, 0x01] ++
  bytes [0xC9, 0x00, 0x00, 0x00, 0x01, 0x01, 0x1F, 0x07, 0x00, 0xFF, 0x00, 0x00, 0x01, 0xF4, 0x00, 0x00] ++
  bytes [0x00, 0x01, 0x01, 0x20, 0x07, 0x00, 0xFF, 0x00, 0xE9]

/-- The phase-2/3 block, 48 bytes. -/
def phaseBlock : List Byte :=
  bytes [0x00, 0x00, 0x00, 0x01, 0x01, 0x33, 0x07, 0x00, 0xFF, 0x00, 0x00, 0x01, 0x2C, 0x00, 0x00, 0x00] ++
  bytes [0x01, 0x01, 0x34, 0x07, 0x00, 0xFF, 0x00, 0xE9, 0x00, 0x00, 0x00, 0x01, 0x01, 0x47, 0x07, 0x00] ++
  bytes [0xFF, 0x00, 0x00, 0x01, 0xF7, 0x00, 0x00, 0x00, 0x01, 0x01, 0x48, 0x07, 0x00, 0xFF, 0x00, 0xEA]

/-- The long block, 74 bytes. -/
def longBlock : List Byte :=
  bytes [0x00, 0x00, 0x00, 0x00, 0x00, 0x01, 0x01, 0x00, 0x00, 0xFF, 0x07, 0xE1, 0x09, 0x0C, 0x02, 0x0F] ++
  bytes [0x2E, 0x1D, 0x00, 0x00, 0x00, 0x00, 0x00, 0x00, 0x00, 0x01, 0x01, 0x01, 0x08, 0x00, 0xFF, 0x00] ++
  bytes [0x63, 0xD7, 0x6A, 0x00, 0x00, 0x00, 0x01, 0x01, 0x02, 0x08, 0x00, 0xFF, 0x00, 0x00, 0x00, 0x00] ++
  bytes [0x00, 0x00, 0x00, 0x01, 0x01, 0x03, 0x08, 0x00, 0xFF, 0x00, 0x00, 0x30, 0x39, 0x00, 0x00, 0x00] ++
  bytes [0x01, 0x01, 0x04, 0x08, 0x00, 0xFF, 0x00, 0x0F, 0x12, 0x06]

def frame17 : List Byte := header 0xA0 0xB2 0x35 0x4F ++ common 0x11 ++ bytes [0x75, 0x4D, 0x7E]
def frame27 : List Byte := header 0xA0 0xFC 0xC0 0xF7 ++ common 0x1B ++ longBlock ++ bytes [0xAD, 0x8C, 0x7E]
def frame25 : List Byte := header 0xA0 0xE2 0x23 0x9A ++ common 0x19 ++ phaseBlock ++ bytes [0x70, 0xCC, 0x7E]
def frame35 : List Byte :=
  header 0xA1 0x2C 0xFC 0x04 ++ common 0x23 ++ phaseBlock ++ longBlock ++ bytes [0x43, 0xE0, 0x7E]

def full17 : State := candidate frame17
def full27 : State := candidate frame27
def full25 : State := candidate frame25
def full35 : State := candidate frame35

/-- F25u: an unknown discriminant, resealed. -/
def frame25u : List Byte := header 0xA0 0xE2 0x23 0x9A ++ common 0x1A ++ phaseBlock ++ bytes [0xD0, 0x50, 0x7E]
/-- F25x: discriminant 35 in a 228-byte frame, resealed. -/
def frame25x : List Byte := header 0xA0 0xE2 0x23 0x9A ++ common 0x23 ++ phaseBlock ++ bytes [0x1A, 0x1D, 0x7E]
/-- F17x: discriminant 25 in a 180-byte frame, resealed. -/
def frame17x : List Byte := header 0xA0 0xB2 0x35 0x4F ++ common 0x19 ++ bytes [0x80, 0xC2, 0x7E]

theorem test_frame_lengths : (frame17.length, frame27.length, frame25.length, frame35.length) = (180, 254, 228, 302) := by
  decide +kernel

/-! ### WellFormed refuses each ill-formed operand -/

theorem smoke_crc_range_starts_at_1 : (Instr.crcX25 0 5).wf = false := by decide
theorem smoke_crc_offset_fits : (Instr.crcX25 1 4294967296).wf = false := by decide
theorem smoke_offset_fits : (Instr.extBe32 4294967296).wf = false := by decide
theorem smoke_byte_operand_offset_fits : (Instr.extBcd8 (.byteAt 4294967296)).wf = false := by decide
theorem smoke_wday_operand_offset_fits : (Instr.extWday (.byteAt 4294967296)).wf = false := by decide
theorem smoke_text_length : (Instr.extText 40 15).wf = false := by decide
theorem smoke_text_offset_fits : (Instr.extText 4294967296 14).wf = false := by decide
theorem smoke_ident_offset : (Instr.extId 6).wf = false := by decide
theorem smoke_field_offset : (Instr.extField .pImp 6).wf = false := by decide
theorem smoke_unknown_is_no_code : (Instr.discUnknown 17#8).wf = false := by decide
theorem smoke_absent_is_no_weekday : (Instr.wdayAbsent 7#8).wf = false := by decide

/-! ### Decoding: words written out from the encodings (30_encoding.md; the row numbers and operand bytes: log entry 9) -/

/-- The operation a word decodes to. -/
def decoded (word : List Nat) : Option Instr := (decodeWholeWord (bytes word)).toOption

theorem test_decode_input_events :
    [[0xFF, 1, 0xA0], [0xFF, 2, 0x7E], [0xFF, 3, 0x7E], [0xFF, 4], [0xFF, 5]].map decoded =
      [some (.asmByte 0xA0#8), some (.asmOpen 0x7E#8), some (.asmClose 0x7E#8), some .asmEmpty, some .reset] := by
  decide +kernel

theorem test_decode_checks :
    [[0xFF, 6, 1, 0, 0, 0, 0x2A, 1, 0, 0], [0xFF, 7], [0xFF, 8], [0xFF, 9], [0xFF, 10], [0xFF, 11], [0xFF, 12],
      [0xFF, 13]].map decoded =
      [some (.crcX25 1 298), some .valSize, some .valFraming, some .valHcs, some .valFcs, some .valTag, some .valLen,
        some .valRun] := by
  decide +kernel

theorem test_decode_extractions :
    [[0xFF, 14, 30, 0, 0, 0], [0xFF, 15, 175, 0, 0, 0], [0xFF, 16, 0x00, 0x01, 0, 0], [0xFF, 17, 6, 0, 0, 0],
      [0xFF, 18, 0, 0x46], [0xFF, 18, 1, 21, 0, 0, 0], [0xFF, 19, 17, 0, 0, 0], [0xFF, 20, 0, 2],
      [0xFF, 20, 1, 21, 0, 0, 0], [0xFF, 21, 17, 0, 0, 0], [0xFF, 22, 33, 0, 0, 0, 14], [0xFF, 23, 162, 0, 0, 0],
      [0xFF, 24, 8, 162, 0, 0, 0]].map decoded =
      [some (.extU8 30), some (.extBe16 175), some (.extBe32 256), some (.extLe16 6), some (.extBcd8 (.lit 0x46#8)),
        some (.extBcd8 (.byteAt 21)), some (.extBcd16 17), some (.extWday (.lit 2#8)), some (.extWday (.byteAt 21)),
        some (.extTs 17), some (.extText 33 14), some (.extId 162), some (.extField .currentL1 162)] := by
  decide +kernel

theorem test_decode_decoder_operations :
    [[0xFF, 25], [0xFF, 26, 0], [0xFF, 27, 1], [0xFF, 28, 2], [0xFF, 29, 3], [0xFF, 30]].map decoded =
      [some .decDisc, some (.decFit .shortSinglePhase), some (.decCommon .longSinglePhase),
        some (.decThree .shortThreePhase), some (.decLong .longThreePhase), some .decRun] := by
  decide +kernel

/-- R78: the five rows of the discriminant table. -/
theorem test_decode_discriminant_rows :
    [[0x11], [0x1B], [0x19], [0x23], [0xFF, 35, 0x1A]].map decoded =
      [some .discShortSinglePhase, some .discLongSinglePhase, some .discShortThreePhase, some .discLongThreePhase,
        some (.discUnknown 0x1A#8)] := by
  decide +kernel

/-- R81: the eight rows of the weekday table. -/
theorem test_decode_weekday_rows :
    [[1], [2], [3], [4], [5], [6], [7], [0xFF, 43, 8]].map decoded =
      [some .wdayMonday, some .wdayTuesday, some .wdayWednesday, some .wdayThursday, some .wdayFriday,
        some .wdaySaturday, some .wdaySunday, some (.wdayAbsent 8#8)] := by
  decide +kernel

/-- R78: 0, 18, 26, 34, 36 and 255 are no layout code (44_decoder.md R190). -/
theorem test_decode_unknown_discriminants :
    ([0, 18, 26, 34, 36, 255].map fun d => kindOfDisc (BitVec.ofNat 8 d)) = [none, none, none, none, none, none] := by
  decide

/-- Why a word is rejected. -/
def rejectedWhy (word : List Nat) : Option DecodeError :=
  match decodeWholeWord (bytes word) with
  | .ok _ => none
  | .error e => some e

theorem test_decode_rejects_by_name :
    [[], [0x7E], [0xFF, 44], [0xFF, 31], [0xFF, 14, 1], [0xFF, 7, 1], [0xFF, 6, 0, 0, 0, 0, 5, 0, 0, 0],
      [0xFF, 22, 33, 0, 0, 0, 15], [0xFF, 23, 6, 0, 0, 0], [0xFF, 18, 2, 0], [0xFF, 26, 4], [0xFF, 24, 19, 7, 0, 0, 0],
      [0xFF, 35, 0x11], [0xFF, 43, 7]].map rejectedWhy =
      [some .truncated, some (.notAnOperationWord 0x7E#8), some (.unknownOperation 44#8), some (.unknownOperation 31#8),
        some .truncated, some .trailingBytes, some .badRangeStart, some .badTextLength, some .badIdentOffset,
        some (.badOperandForm 2#8), some (.badKind 4#8), some (.badField 19#8), some (.knownDiscriminant 0x11#8),
        some (.presentWeekday 7#8)] := by
  decide +kernel

/-- The word of a table row runs as the first instruction after reset. -/
theorem test_withFetchWord_runs :
    after State.ret (step (State.reset.withFetchWord 8 0x11)) = some (.kind .shortSinglePhase) ∧
    after State.cnt (step (State.reset.withFetchWord 8 0xA0)) = some 1 ∧
    after State.cnt (step (State.reset.withFetchWord 0 0)) = some 0 ∧
    refusalOf (step (State.reset.withFetchWord 16 0x2CFF)) = some (.illegalWord (.unknownOperation 44#8)) := by
  decide +kernel

/-- R263, R194: one configuration outside each legal range is refused, before the pending byte is taken. -/
theorem test_illegal_configurations_refused :
    [{ Config.ref with discOff := 11 }, { Config.ref with discOff := 177 }, { Config.ref with bufCap := 301 },
      { Config.ref with cntW := 8 }, { Config.ref with tsSub := { TsSub.ref with month := 1 } },
      { Config.ref with discOff := 33 }, { Config.ref with layout := { Layout.ref with ph1End := 177 } },
      { Config.ref with layout := { Layout.ref with longLen := 75 } }].map
        (fun c => refusalOf (step { State.powerOn c with inq := [.byte 0xA0#8] })) =
      List.replicate 8 (some .illegalConfiguration) := by
  decide +kernel

/-! ### Assembler vectors (section 3.1) -/

/-- V-A1, V-A7, V-A8: stored below BUF_CAP, counted beyond it, saturated at 65535. -/
theorem test_asmByte :
    after (fun s => (s.cnt, s.buf)) (exec (.asmByte 0x41#8) State.reset) = some (1, [(0, 0x41#8)]) ∧
    after (fun s => (s.cnt, s.buf)) (exec (.asmByte 0x55#8) { State.reset with cnt := 302 }) = some (303, []) ∧
    after (fun s => (s.cnt, s.buf)) (exec (.asmByte 0x55#8) { State.reset with cnt := 65535 }) = some (65535, []) := by
  decide +kernel

/-- V-A2. -/
theorem test_asmOpen :
    after (fun s => (s.cnt, s.buf, s.out)) (exec (.asmOpen 0x7E#8) State.reset) = some (1, [(0, 0x7E#8)], []) := by
  decide +kernel

/-- V-A4, V-A9: two bytes, and a saturated length. -/
theorem test_asmClose_size :
    after (fun s => (s.cnt, resOf s)) (exec (.asmClose 0x7E#8) (candidate [0x41#8])) =
      some (0, ⟨true, false, .sizeOutOfRange, 0x00000002#32, 0x00B4012E#32⟩) ∧
    after (fun s => (s.cnt, resOf s)) (exec (.asmClose 0x7E#8) { State.reset with cnt := 65535 }) =
      some (0, ⟨true, false, .sizeOutOfRange, 0x0000FFFF#32, 0x00B4012E#32⟩) := by
  decide +kernel

/-- V-V3: F25 is accepted, under every framing condition. -/
theorem accepted25 (m : Framing) : validate (candidateUnder (framed m) frame25) = .ok none := by
  cases m <;> exact accepted_of (v := 0xCC70#16) _ (by decide +kernel) (by decide +kernel) (by decide +kernel)

/-- Closing an accepted candidate is decoding it. -/
theorem close_of_accepted {s u : State} {v : Byte} (ha : s.append v = u) (h : validate u = .ok none) :
    exec (.asmClose v) s = match decodeFrame u with
      | .error e => .fault e
      | .ok (.error j) => .next (u.takeReject j).finishCandidate
      | .ok (.ok rd) => .next (u.takeReading rd).finishCandidate := by
  subst ha
  show execAsmClose v s = _
  unfold execAsmClose processCandidate
  rw [h]
  cases decodeFrame (s.append v) with
  | error e => rfl
  | ok r => cases r <;> rfl

/-- V-D3: the close of F25. -/
theorem test_asmClose_frame25 :
    after (fun s => (s.cnt, s.out.map fun r => (r.ok, r.code, r.reading.kind)))
      (exec (.asmClose 0x7E#8) (candidate frame25.dropLast)) =
      some (0, [(true, .ok, 0b10#2)]) := by
  rw [close_of_accepted (u := full25) (by decide +kernel) (accepted25 .bothSentinel)]
  decide +kernel

/-- V-A5. -/
theorem test_asmEmpty : after (fun s => (s.cnt, s.buf)) (exec .asmEmpty (candidate [1#8, 2#8])) =
    some (2, [(0, 1#8), (1, 2#8)]) := by
  decide +kernel

/-- V-R1: a reset inside a frame leaves no record. -/
theorem test_reset :
    after (fun s => (s.cnt, resOf s, s.rd, s.out))
      (exec .reset { full25 with cnt := 150, res := ⟨true, false, .frameChecksumMismatch, 0xE043#32, 0x8F87#32⟩ }) =
      some (0, ⟨false, false, .ok, 0#32, 0#32⟩, Reading.absent 0#2, []) := by
  decide +kernel

/-! ### Checksum vectors (section 3.2) -/

/-- V-C1 to V-C7. -/
theorem test_crc_short :
    [[], [0x00], [0xFF], [0x7E], [0x01], [0x80], [0x01, 0x02]].map (fun l => crc16x25 (bytes l)) =
      [0x0000#16, 0xF078#16, 0xFF00#16, 0x6A81#16, 0xE1F1#16, 0x7470#16, 0x358D#16] := by
  decide +kernel

/-- V-C8 to V-C13: the check value and five headers. -/
theorem test_crc_check_value :
    [[0x31, 0x32, 0x33, 0x34, 0x35, 0x36, 0x37, 0x38, 0x39], [0xA0, 0xE2, 0x2B, 0x21, 0x13], [0xA0, 0xB2, 0x2B, 0x21, 0x13],
      [0xA0, 0xFC, 0x2B, 0x21, 0x13], [0xA1, 0x2C, 0x2B, 0x21, 0x13], [0xA0, 0xE2, 0x2C, 0x21, 0x13]].map
        (fun l => crc16x25 (bytes l)) =
      [0x906E#16, 0x9A23#16, 0x4F35#16, 0xF7C0#16, 0x04FC#16, 0x1626#16] := by
  decide +kernel

theorem test_crcX25_frame25 :
    after State.ret (exec (.crcX25 1 5) full25) = some (.half 0x9A23#16) ∧
    after State.ret (exec (.crcX25 1 224) full25) = some (.half 0xCC70#16) := by
  refine ⟨by decide +kernel, ?_⟩
  have h : crcOfRange full25 1 224 = .ok 0xCC70#16 := by
    rw [crcOfRange_of_holds (s := full25) (lo := 1) (bs := (frame25.drop 1).take 224)
      (candidate_holds _ frame25 _ _ (by decide +kernel)) (by decide +kernel), crc_of_run (v := 0xCC70#16) (by decide +kernel)]
  show after State.ret (returning full25 (crcOfRange full25 1 224) .half) = _
  rw [h]; rfl

/-- R122's corner case: an empty range is 0x0000 wherever it lies. -/
theorem test_crcX25_empty :
    after State.ret (exec (.crcX25 200 100) full17) = some (.half 0x0000#16) ∧
    after State.ret (exec (.crcX25 1 0) State.reset) = some (.half 0x0000#16) := by
  decide +kernel

/-! ### Validator vectors (section 3.3) -/

/-- V-V1, V-V2: 179 and 303 bytes. -/
theorem test_valSize :
    after resOf (exec .valSize { State.reset with cnt := 179 }) =
      some ⟨true, false, .sizeOutOfRange, 0x000000B3#32, 0x00B4012E#32⟩ ∧
    after resOf (exec .valSize { State.reset with cnt := 303 }) =
      some ⟨true, false, .sizeOutOfRange, 0x0000012F#32, 0x00B4012E#32⟩ := by
  decide +kernel

/-- V-V4, V-V5b: a missing opening sentinel, and a leading zero under LEADING_ZERO. -/
theorem test_valFraming :
    after resOf (exec .valFraming (candidate (frame25.drop 1))) =
      some ⟨true, false, .framingMismatch, 0x0000A07E#32, 0x00007E7E#32⟩ ∧
    after resOf (exec .valFraming
      { candidate (patch frame25 0 0#8) with cfg := { Config.ref with framing := .leadingZero } }) =
      some ⟨true, false, .framingMismatch, 0x0000007E#32, 0x00007E7E#32⟩ := by
  decide +kernel

/-- V-V7: F25h. -/
theorem test_valHcs : after resOf (exec .valHcs (candidate (patch frame25 3 0x2C#8))) =
    some ⟨true, false, .headerChecksumMismatch, 0x00009A23#32, 0x00001626#32⟩ := by
  decide +kernel

/-- V-V9: F25f. -/
theorem test_valFcs : after resOf (exec .valFcs (candidate (patch frame25 162 0x01#8))) =
    some ⟨true, false, .frameChecksumMismatch, 0x0000CC70#32, 0x00005886#32⟩ := by
  have he : exec .valFcs (candidate (patch frame25 162 0x01#8)) =
    checking (candidate (patch frame25 162 0x01#8)) (checkFcs (candidate (patch frame25 162 0x01#8))) := rfl
  rw [he, candidate, checkFcs_candidate _ (v := 0x5886#16) (by decide +kernel) (by decide +kernel)]
  decide +kernel

/-- V-V12: the tag of F25t. -/
theorem test_valTag : after resOf (exec .valTag (candidate (patch frame25 9 0xE6#8))) =
    some ⟨true, false, .unexpectedPayloadTag, 0xE6E6000F#32, 0xE6E7000F#32⟩ := by
  decide +kernel

/-- V-V13: the declared length of F25d. -/
theorem test_valLen : after resOf (exec .valLen (candidate (patch frame25 2 0xE3#8))) =
    some ⟨true, false, .lengthFieldMismatch, 0x000000E5#32, 0x000000E4#32⟩ := by
  decide +kernel

theorem valRun_of_accepted {s : State} (h : validate s = .ok none) : exec .valRun s = .next s.passed := checking_pass h

/-- V-V3: F17 and F35 pass. -/
theorem test_valRun_accepts : exec .valRun full17 = .next full17.passed ∧ exec .valRun full35 = .next full35.passed :=
  ⟨valRun_of_accepted (accepted_of (v := 0x4D75#16) Config.ref (bs := frame17)
      (by decide +kernel) (by decide +kernel) (by decide +kernel)),
    valRun_of_accepted (accepted_of (v := 0xE043#16) Config.ref (bs := frame35)
      (by decide +kernel) (by decide +kernel) (by decide +kernel))⟩

/-- V-V16, V-V17: the first failing check is reported. -/
theorem test_valRun_first_failure :
    after resOf (exec .valRun (candidate (bytes [0x7E, 1, 2, 0x7E]))) =
      some ⟨true, false, .sizeOutOfRange, 0x00000004#32, 0x00B4012E#32⟩ ∧
    after resOf (exec .valRun (candidate (patch (patch frame25 3 0x2C#8) 9 0xE6#8))) =
      some ⟨true, false, .headerChecksumMismatch, 0x00009A23#32, 0x00001626#32⟩ := by
  decide +kernel

/-! ### Extraction vectors (section 3.4) -/

/-- R160. -/
theorem test_extU8 : after State.ret (exec (.extU8 23) full25) = some (.byte 46#8) := by decide +kernel

/-- V-X1. -/
theorem test_extBe16 : after State.ret (exec (.extBe16 175) full25) = some (.half 233#16) := by decide +kernel

/-- V-X2. -/
theorem test_extBe32 :
    after State.ret (exec (.extBe32 162) full25) = some (.word 500#32) ∧
    after State.ret (exec (.extBe32 0) (candidate (bytes [0x00, 0x63, 0xD7, 0x6A]))) = some (.word 6543210#32) := by
  decide +kernel

/-- V-X3. -/
theorem test_extLe16 : after State.ret (exec (.extLe16 6) full25) = some (.half 0x9A23#16) := by decide +kernel

/-- V-X4. -/
theorem test_extBcd8 :
    [0x46, 0x09, 0x99, 0x1E, 0xFF].map (fun x => after State.ret (exec (.extBcd8 (.lit (BitVec.ofNat 8 x))) State.reset)) =
      [some (.byte 46#8), some (.byte 9#8), some (.byte 99#8), some (.byte 24#8), some (.byte 165#8)] := by
  decide +kernel

/-- V-X5. -/
theorem test_extBcd16 :
    after State.ret (exec (.extBcd16 0) (candidate [0x20#8, 0x17#8])) = some (.half 2017#16) ∧
    after State.ret (exec (.extBcd16 0) (candidate [0x99#8, 0x99#8])) = some (.half 9999#16) := by
  decide +kernel

/-- V-X6. -/
theorem test_extWday :
    [0, 1, 2, 7, 8, 255].map (fun x => after State.ret (exec (.extWday (.lit (BitVec.ofNat 8 x))) State.reset)) =
      [some (.weekday false 0#3), some (.weekday true 1#3), some (.weekday true 2#3), some (.weekday true 7#3),
        some (.weekday false 0#3), some (.weekday false 0#3)] := by
  decide +kernel

/-- V-X7, V-X8: 2017-09-12, Tuesday, 15:46:30 in both codings. -/
theorem test_extTs :
    let instant : Timestamp :=
      { year := 2017#16, month := 9#8, day := 12#8, hour := 15#8, minute := 46#8, second := 30#8, wdayP := true, wday := 2#3 }
    after State.ret (exec (.extTs 0) (candidate (bytes [0x07, 0xE1, 0x09, 0x0C, 0x02, 0x0F, 0x2E, 0x1E]))) =
      some (.timestamp instant) ∧
    after State.ret (exec (.extTs 0)
      { candidate (bytes [0x20, 0x17, 0x09, 0x12, 0x02, 0x15, 0x46, 0x30]) with cfg := { Config.ref with tsCoding := .bcd } }) =
      some (.timestamp instant) := by
  decide +kernel

/-- V-X9: no range check. -/
theorem test_extTs_no_range_check :
    after State.ret (exec (.extTs 0) (candidate (bytes [0x20, 0x17, 0x09, 0x12, 0x02, 0x15, 0x46, 0x30]))) =
      some (.timestamp { year := 8215#16, month := 9#8, day := 18#8, hour := 21#8, minute := 70#8, second := 48#8,
                         wdayP := true, wday := 2#3 }) := by
  decide +kernel

/-- V-X10. -/
theorem test_extText : after State.ret (exec (.extText 33 14) full25) =
    some (.bytes (bytes [0x4B, 0x61, 0x6D, 0x73, 0x74, 0x72, 0x75, 0x70, 0x5F, 0x56, 0x30, 0x30, 0x30, 0x31])) := by
  decide +kernel

/-- R169's example. -/
theorem test_extId : after State.ret (exec (.extId 162) full25) = some (.bytes (bytes [0x01, 0x01, 0x1F, 0x07, 0x00, 0xFF])) := by
  decide +kernel

/-- R199's example. -/
theorem test_extField : after State.ret (exec (.extField .currentL1 162) full25) =
    some (.field (.u32 ⟨#v[0x01#8, 0x01#8, 0x1F#8, 0x07#8, 0x00#8, 0xFF#8], 500#32⟩)) := by
  decide +kernel

/-- V-X13, V-X14, R172, R173: rendering. -/
theorem test_rendering :
    renderIdent #v[0x01#8, 0x01#8, 0x1F#8, 0x07#8, 0x00#8, 0xFF#8] = "1.1.31.7.0.255".toList ∧
    renderIdent #v[0x0F#8, 0x00#8, 0x00#8, 0x00#8, 0x00#8, 0x0C#8] = "15.0.0.0.0.12".toList ∧
    [500, 503, 0].map renderCenti = ["5.00".toList, "5.03".toList, "0.00".toList] ∧
    renderText (bytes [0x4B, 0x61, 0x6D]) = "Kam".toList ∧
    weekdayName true 2#3 = some "Tuesday" ∧ weekdayName false 0#3 = none := by
  decide +kernel

/-- R174: currents and energies are divided by 100, powers and voltages are unscaled. -/
theorem test_renderQuantity :
    let u32 (v : Word) : FieldValue := .u32 ⟨#v[0, 0, 0, 0, 0, 0], v⟩
    renderQuantity .currentL1 (u32 500#32) = some ("5.00".toList, "A") ∧
    renderQuantity .eaImp (u32 6543210#32) = some ("65432.10".toList, "Wh") ∧
    renderQuantity .pImp (u32 1507#32) = some ("1507".toList, "W") ∧
    renderQuantity .qExp (u32 457#32) = some ("457".toList, "VAR") ∧
    renderQuantity .voltageL1 (.u16 ⟨#v[0, 0, 0, 0, 0, 0], 233#16⟩) = some ("233".toList, "V") ∧
    renderQuantity .capTs (u32 0#32) = none := by
  decide +kernel

/-! ### Decoder vectors (section 3.5) -/

/-- R190's example, and V-D5: an unknown discriminant. -/
theorem test_decDisc :
    after State.ret (exec .decDisc full25) = some (.kind .shortThreePhase) ∧
    after resOf (exec .decDisc (candidate frame25u)) = some ⟨true, false, .unknownLayout, 0x0000001A#32, 0x111B1923#32⟩ := by
  decide +kernel

/-- V-D6, V-D7. -/
theorem test_decFit :
    after resOf (exec (.decFit .longThreePhase) full25) =
      some ⟨true, false, .layoutExceedsFrame, 0x0000012A#32, 0x000000E0#32⟩ ∧
    after resOf (exec (.decFit .shortThreePhase) full17) =
      some ⟨true, false, .layoutExceedsFrame, 0x000000E0#32, 0x000000B0#32⟩ := by
  decide +kernel

/-- R199: values of F25's common fields. -/
theorem test_decCommon :
    after (fun s => (s.rd.pImp.map (·.val), s.rd.qExp.map (·.val), s.rd.currentL1.map (·.val), s.rd.voltageL1.map (·.val)))
      (exec (.decCommon .shortThreePhase) full25) = some (some 1507#32, some 457#32, some 500#32, some 233#16) := by
  decide +kernel

/-- R200's example: `current_l2` 300, `voltage_l2` 233, `current_l3` 503, `voltage_l3` 234. -/
theorem test_decThree :
    after (fun s => (s.rd.threeP, s.rd.currentL2.map (·.val), s.rd.voltageL2.map (·.val), s.rd.currentL3.map (·.val),
      s.rd.voltageL3.map (·.val))) (exec (.decThree .shortThreePhase) full25) =
      some (true, some 300#32, some 233#16, some 503#32, some 234#16) := by
  decide +kernel

/-- R201's example, and the same field in F27. -/
theorem test_decLong :
    after (fun s => (s.rd.longP, s.rd.eaImp.map (·.val), s.rd.erExp.map (·.val))) (exec (.decLong .longThreePhase) full35) =
      some (true, some 6543210#32, some 987654#32) ∧
    after (fun s => (s.rd.longP, s.rd.eaImp.map (·.val), s.rd.meterTs.map (·.val.second)))
      (exec (.decLong .longSinglePhase) full27) = some (true, some 6543210#32, some 29#8) := by
  decide +kernel

/-- V-D1 to V-D4: kinds and flags. -/
theorem test_decRun_kinds :
    [full17, full27, full25, full35].map (fun s =>
      after (fun t => (t.rd.kind, t.rd.threeP, t.rd.longP, t.rd.currentL2.isSome, t.rd.meterTs.isSome)) (exec .decRun s)) =
      [some (0b00#2, false, false, false, false), some (0b01#2, false, true, false, true),
        some (0b10#2, true, false, true, false), some (0b11#2, true, true, true, true)] := by
  decide +kernel

/-- V-D9: F35m, the long fields of a single-phase kind read from F35's phase-2/3 bytes. -/
theorem test_decRun_frame35m :
    after (fun t => (t.rd.meterTs.map (·.val), t.rd.eaImp.map (·.val), t.rd.erExp.map (·.val)))
      (exec .decRun (candidate (patch frame35 30 0x1B#8))) =
      some (some { year := 1#16, month := 44#8, day := 0#8, hour := 0#8, minute := 1#8, second := 1#8, wdayP := false, wday := 0#3 },
        some 16711680#32, some 1#32) := by
  decide +kernel

/-- R78 and R81: the rows by themselves. -/
theorem test_code_rows :
    after State.ret (exec .discLongThreePhase State.reset) = some (.kind .longThreePhase) ∧
    after resOf (exec (.discUnknown 0xFF#8) State.reset) = some ⟨true, false, .unknownLayout, 0xFF#32, 0x111B1923#32⟩ ∧
    after State.ret (exec .wdayTuesday State.reset) = some (.weekday true 2#3) ∧
    after State.ret (exec (.wdayAbsent 8#8) State.reset) = some (.weekday false 0#3) := by
  decide +kernel

/-! ### Witnesses

For each statement with hypotheses, states and operands that meet them all, for each clause. -/

theorem next_of_after {x : Host.Outcome State Fault Refusal} (h : (after (fun _ => ()) x).isSome = true) :
    ∃ t, x = .next t := by
  cases x <;> simp_all [after]

theorem of_after {α : Type} {f : State → α} {v : α} {x : Host.Outcome State Fault Refusal} (h : after f x = some v) :
    ∃ t, x = .next t ∧ f t = v := by
  cases x <;> simp_all [after]

theorem ref_legal : Config.ref.legal = true := by decide +kernel

/-- The invariant holds with any candidate of at most 302 bytes open and any input pending. -/
theorem candidate_inv (bs : List Byte) (q : List Stimulus) (h : bs.length ≤ 302) (hq : q.all Stimulus.isInput = true)
    (hw : Memory.wf (cellsFrom 0 bs) = true) : State.Inv { candidate bs with inq := q } where
  legal := ref_legal
  canonical := hw
  filled := candidate_filled bs h
  bounded := Nat.le_trans h (show 302 ≤ cntMax Config.ref by decide)
  records := by intro r hr; cases hr
  latest := rfl
  untouched := fun _ => ⟨rfl, _, rfl⟩
  input := by simpa using hq
  idle := rfl

/-- Two pending sentinels end the open candidate and open one. -/
def closing : State := { candidate (bytes [0x7E, 0xA0]) with inq := [.byte 0x7E#8, .empty, .byte 0xA0#8, .reset] }

theorem witness_ResetInputRestoresResetValues :
    ({ full25 with inq := [.reset, .byte 1#8] } : State).cfg.legal = true ∧
    ({ full25 with inq := [.reset, .byte 1#8] } : State).inq = .reset :: [.byte 1#8] := ⟨by decide +kernel, rfl⟩

theorem witness_PowerOnSatisfiesTheEngineInvariant : (framed .leadingZero).legal = true := by decide +kernel

theorem witness_EveryStepKeepsTheEngineInvariant : closing.Inv ∧ ∃ t, step closing = .next t :=
  ⟨candidate_inv _ _ (by decide) (by decide) (by decide), next_of_after (by decide +kernel)⟩

theorem witness_EngineNeverStopsOnAnyInput : closing.Inv := candidate_inv _ _ (by decide) (by decide) (by decide)

theorem witness_EveryOperationKeepsBufferCanonical :
    full25.buf.wf = true ∧ ∃ t, exec (.asmByte 1#8) full25 = .next t :=
  ⟨by decide +kernel, _, rfl⟩

theorem witness_NoOperationWritesConfiguration :
    (∃ t, exec .decRun full35 = .next t) ∧ ∃ t, core.run 3 closing = .next t :=
  ⟨next_of_after (by decide +kernel), next_of_after (by decide +kernel)⟩

/-- Every event under a legal configuration: a byte and a sentinel at `CNT` 0, 1 and 65535, an empty read, a reset. -/
theorem witness_InputEventsSelectTheirOperation :
    Config.ref.legal = true ∧ 0x7D#8 ≠ Config.ref.sentinel ∧ 0x7E#8 = Config.ref.sentinel ∧
    (∀ q n, ({ State.reset with inq := q, cnt := n } : State).inq = q ∧
      ({ State.reset with inq := q, cnt := n } : State).cnt = n ∧ ({ State.reset with inq := q, cnt := n } : State).cfg = Config.ref) ∧
    1 ≤ 65535 := ⟨by decide +kernel, by decide, by decide, fun _ _ => ⟨rfl, rfl, rfl⟩, by decide⟩

theorem witness_StepExecutesTheDecodedOperation :
    closing.cfg.legal = true ∧
    decodeStimulus closing.cfg.sentinel closing.cnt (fetch closing).1 = .ok (.asmClose 0x7E#8) ∧
    full25.inq = [] ∧ (Instr.extText 33 14).wf = true ∧
    ({ full25 with inq := [.direct (encode (.extText 33 14)), .empty] } : State).inq =
      .direct (encode (.extText 33 14)) :: [.empty] := ⟨by decide +kernel, by rfl, rfl, by decide, rfl⟩

theorem witness_EmptyReadsChangeNothing :
    Config.ref.legal = true ∧
    ({ full25 with inq := [.empty, .empty, .empty, .byte 1#8] } : State).inq = List.replicate 3 .empty ++ [.byte 1#8] ∧
    full25.inq = List.replicate 0 .empty ++ [] := ⟨by decide +kernel, rfl, rfl⟩

theorem witness_ChunkBoundariesHaveNoEffect : ([0x7E#8] : List Byte) ≠ [] := by decide

theorem witness_SentinelOpensACandidate : State.reset.cfg.legal = true ∧ State.reset.cnt = 0 := ⟨by decide +kernel, rfl⟩

theorem witness_ClosingEmitsExactlyOneRecord :
    (candidate frame25.dropLast).cfg.legal = true ∧ (candidate frame25.dropLast).bufferFilled ∧ State.reset.bufferFilled :=
  ⟨by decide +kernel, candidate_filled _ (by decide +kernel), candidate_filled [] (by decide)⟩

theorem valRun_short {s : State} (h : s.cnt < 180) : ∃ u j, exec .valRun s = .next u ∧ u.ret = .reject j :=
  ⟨_, _, checking_reject (validate_size (.inl h)), rfl⟩

/-- A candidate that VAL.RUN rejects, and F25, which it accepts and DEC.RUN decodes. -/
theorem witness_ClosingRunsValidatorThenDecoder :
    (∃ a u j, exec (.asmByte 0x7E#8) (candidate [0x7E#8]) = .next a ∧ exec .valRun a = .next u ∧ u.ret = .reject j) ∧
    ∃ a u w, exec (.asmByte 0x7E#8) (candidate frame25.dropLast) = .next a ∧ exec .valRun a = .next u ∧ u.ret = .pass ∧
      exec .decRun u = .next w := by
  refine ⟨⟨_, (valRun_short (by decide)).imp fun _ h => h.imp fun _ h => ⟨rfl, h⟩⟩, ?_⟩
  have ha : (candidate frame25.dropLast).append 0x7E#8 = full25 := by decide +kernel
  have hd : ∃ w, exec .decRun full25.passed = .next w := next_of_after (by decide +kernel)
  obtain ⟨w, hw⟩ := hd
  exact ⟨full25, full25.passed, w, congrArg Host.Outcome.next ha, valRun_of_accepted (accepted25 .bothSentinel), rfl, hw⟩

theorem witness_ClosedBufferHoldsNoValue :
    (∃ t, exec (.asmClose 0x7E#8) (candidate [0x7E#8]) = .next t) ∧ ∃ t, exec .reset full25 = .next t :=
  ⟨next_of_after (by decide +kernel), _, rfl⟩

/-- F25u passes the validator: check 4 by its resealed checksum. -/
theorem accepted25u : validate (candidate frame25u) = .ok none :=
  accepted_of (v := 0x50D0#16) Config.ref (by decide +kernel) (by decide +kernel) (by decide +kernel)

/-- A failure of the validator, and F25u, a failure of the decoder. -/
theorem witness_FailedCandidateLeavesOnlyItsRecord :
    (∃ a u j, exec (.asmByte 0x7E#8) (candidate [0x7E#8]) = .next a ∧ exec .valRun a = .next u ∧ u.ret = .reject j) ∧
    ∃ a p u j, exec (.asmByte 0x7E#8) (candidate frame25u.dropLast) = .next a ∧ exec .valRun a = .next p ∧ p.ret = .pass ∧
      exec .decRun p = .next u ∧ u.ret = .reject j := by
  refine ⟨⟨_, (valRun_short (by decide)).imp fun _ h => h.imp fun _ h => ⟨rfl, h⟩⟩, ?_⟩
  have ha : (candidate frame25u.dropLast).append 0x7E#8 = candidate frame25u := by decide +kernel
  have hd : after State.ret (exec .decRun (candidate frame25u).passed) = some (.reject (unknownLayout 0x1A#8)) := by
    decide +kernel
  cases hx : exec .decRun (candidate frame25u).passed with
  | next u =>
    rw [hx] at hd
    exact ⟨_, _, u, _, congrArg Host.Outcome.next ha, valRun_of_accepted accepted25u, rfl, hx, Option.some.inj hd⟩
  | fault e => rw [hx] at hd; cases hd
  | refused e => rw [hx] at hd; cases hd

/-- The closing step, a reset and another step. -/
theorem witness_OnlyAClosingStepWritesResults :
    (∀ e ∈ closing.inq, e.isInput = true) ∧ (∃ t, step closing = .next t) ∧
    closing.inq.head? = some (.byte closing.cfg.sentinel) ∧ 1 ≤ closing.cnt ∧
    (∀ q ∈ [[.reset], [.empty], [.byte 1#8]], (∀ e ∈ q, e.isInput = true) ∧
      ∃ t, step { candidate [0x7E#8] with inq := q } = .next t) ∧
    ([.reset] : List Stimulus).head? = some .reset ∧
    ([.byte 1#8] : List Stimulus).head? ≠ some (.byte Config.ref.sentinel) := by
  refine ⟨by decide, next_of_after (by decide +kernel), rfl, by decide, ?_, rfl, by decide⟩
  simp only [List.mem_cons, List.not_mem_nil, or_false]
  rintro q (rfl | rfl | rfl) <;> exact ⟨by decide, next_of_after (by decide +kernel)⟩

/-- Two states that differ in the results already written, and a step that closes with a failure and one with a Reading. -/
theorem witness_ResultsDependOnTheCandidateAlone :
    let s' : State := { closing with res := ⟨true, true, .ok, 0#32, 0#32⟩, out := [closing.record] }
    (∀ e ∈ closing.inq, e.isInput = true) ∧ s'.cfg = closing.cfg ∧ s'.buf = closing.buf ∧ s'.cnt = closing.cnt ∧
    s'.inq = closing.inq ∧ (∃ t, step closing = .next t) ∧
    closing.inq.head? = some (.byte closing.cfg.sentinel) ∧ 1 ≤ closing.cnt ∧
    ∃ t, step { candidate frame25.dropLast with inq := [.byte 0x7E#8] } = .next t ∧ t.res.ok = true := by
  refine ⟨by decide, rfl, rfl, rfl, rfl, next_of_after (by decide +kernel), rfl, by decide, ?_⟩
  have hi : decodeByteEvent 0x7E#8 (candidate frame25.dropLast).cnt 0x7E#8 = .asmClose 0x7E#8 := by decide +kernel
  rw [step_cons (s := { candidate frame25.dropLast with inq := [.byte 0x7E#8] }) (e := .byte 0x7E#8) (rest := [])
    (i := .asmClose 0x7E#8) ref_legal rfl (congrArg Except.ok hi)]
  refine of_after ?_
  rw [close_of_accepted (u := full25) (by decide +kernel) (accepted25 .bothSentinel)]
  decide +kernel

theorem witness_SentinelRunEmitsHalfAsManyRecords :
    State.reset.cfg.legal = true ∧ State.reset.cnt = 0 ∧ State.reset.bufferFilled ∧
    ({ State.reset with inq := [.byte 0x7E#8, .byte 0x7E#8, .byte 0x7E#8, .empty] } : State).inq =
      List.replicate 3 (.byte State.reset.cfg.sentinel) ++ [.empty] :=
  ⟨by decide +kernel, rfl, candidate_filled [] (by decide), rfl⟩

/-- A sentinel and 302 bytes: one more than the buffer holds. -/
theorem witness_BufferHoldsTheFirstBytesInOrder :
    State.reset.cfg.legal = true ∧ State.reset.cnt = 0 ∧ State.reset.bufferFilled ∧
    (∀ x ∈ List.replicate 302 0x55#8, x ≠ State.reset.cfg.sentinel) ∧
    State.reset.cfg.bufCap < min ((List.replicate 302 0x55#8).length + 1) (2 ^ State.reset.cfg.cntW - 1) :=
  ⟨by decide +kernel, rfl, candidate_filled [] (by decide), fun x hx => by rw [List.eq_of_mem_replicate hx]; decide,
    by decide +kernel⟩

/-- The header range of F25, its range up to the bound `N - 4`, and an empty range past the end of F17. -/
theorem witness_ChecksumFollowsTheBitSerialDefinition :
    (5 + 4 ≤ full25.cnt ∧ full25.holds 1 (bytes [0xA0, 0xE2, 0x2B, 0x21, 0x13]) ∧
      (bytes [0xA0, 0xE2, 0x2B, 0x21, 0x13]).length = 5 + 1 - 1) ∧
    (224 + 4 = full25.cnt ∧ full25.holds 1 ((frame25.drop 1).take 224) ∧
      ((frame25.drop 1).take 224).length = 224 + 1 - 1) ∧
    (1 ≤ 200 ∧ 100 + 4 ≤ full17.cnt ∧ 100 < 200 ∧ full17.cnt < 200) :=
  ⟨⟨by decide +kernel, candidate_holds _ _ _ _ (by decide +kernel), by decide⟩,
    ⟨by decide +kernel, candidate_holds _ _ _ _ (by decide +kernel), by decide +kernel⟩, by decide +kernel⟩

/-- The first byte past each bound: `hi = N - 3`, the last byte, `lo = 0`; and an empty range past the bound. -/
theorem witness_ChecksumRangeMayPassItsBounds (a b c d : Byte) :
    let s := candidate [a, b, c, d]
    (s.cnt < 1 + 4 ∧ s.holds 1 [b] ∧ [b].length = 1 + 1 - 1) ∧ (s.cnt < 3 + 4 ∧ s.holds 1 [b, c, d]) ∧
    s.holds 0 [a] ∧ [a].length = 0 + 1 - 0 ∧ s.cnt < 8 + 4 ∧ 8 < 9 :=
  ⟨⟨by simp [candidate, candidateUnder], candidate_holds _ _ _ _ (by simp), rfl⟩,
    ⟨by simp [candidate, candidateUnder], candidate_holds _ _ _ _ (by simp)⟩,
    candidate_holds _ _ _ _ (by simp), rfl, by simp [candidate, candidateUnder], by decide⟩

theorem witness_ChecksumDetectsOneChangedByte : 0x00#8 ≠ 0x80#8 := by decide

/-- Any first and last byte under any configuration, and a candidate of one byte. -/
theorem witness_FramingCheckFollowsItsMode :
    (∀ (m : Framing) (a b : Byte), (candidateUnder (framed m) [a, b]).holds 0 [a] ∧
      (candidateUnder (framed m) [a, b]).holds (2 - 1) [b]) ∧
    ∀ (m : Framing) (a : Byte), (candidateUnder (framed m) [a]).holds 0 [a] ∧ (candidateUnder (framed m) [a]).holds (1 - 1) [a] :=
  ⟨fun _ _ _ => ⟨candidate_holds _ _ _ _ (by simp), candidate_holds _ _ _ _ (by simp)⟩,
    fun _ _ => ⟨candidate_holds _ _ _ _ (by simp), candidate_holds _ _ _ _ (by simp)⟩⟩

/-- F25's header passes, F25h's fails. -/
theorem witness_HeaderChecksumIsCompared :
    full25.holds 1 (bytes [0xA0, 0xE2, 0x2B, 0x21, 0x13] ++ [0x23#8, 0x9A#8]) ∧
    crc16x25 (bytes [0xA0, 0xE2, 0x2B, 0x21, 0x13]) = BitVec.ofNat 16 (0x23 + 256 * 0x9A) ∧
    (candidate (patch frame25 3 0x2C#8)).holds 1 (bytes [0xA0, 0xE2, 0x2C, 0x21, 0x13] ++ [0x23#8, 0x9A#8]) ∧
    crc16x25 (bytes [0xA0, 0xE2, 0x2C, 0x21, 0x13]) ≠ BitVec.ofNat 16 (0x23 + 256 * 0x9A) :=
  ⟨candidate_holds _ _ _ _ (by decide +kernel), by decide +kernel, candidate_holds _ _ _ _ (by decide +kernel),
    by decide +kernel⟩

/-- The empty body of a 4-byte candidate (its checksum is 0), and the body of F25. -/
theorem witness_FrameChecksumIsCompared :
    (∀ lo hi : Byte, (candidate [0x7E#8, lo, hi, 0x7E#8]).holds 1 ([] ++ [lo, hi])) ∧ crc16x25 [] = 0x0000#16 ∧
    full25.holds 1 ((frame25.drop 1).take 224 ++ [0x70#8, 0xCC#8]) ∧ ((frame25.drop 1).take 224).length = full25.cnt - 4 ∧
    crc16x25 ((frame25.drop 1).take 224) = BitVec.ofNat 16 (0x70 + 256 * 0xCC) :=
  ⟨fun _ _ => candidate_holds _ _ _ _ (by simp), by decide, candidate_holds _ _ _ _ (by decide +kernel), by decide +kernel,
    crc_of_run (by decide +kernel)⟩

/-- The tag of REF, and another. -/
theorem witness_PayloadTagIsCompared :
    full25.holds 8 [0xE6#8, 0xE7#8, 0x00#8, 0x0F#8] ∧ [0xE6#8, 0xE7#8, 0x00#8, 0x0F#8] = full25.cfg.tag.toList ∧
    (candidate (patch frame25 9 0xE6#8)).holds 8 [0xE6#8, 0xE6#8, 0x00#8, 0x0F#8] ∧
    [0xE6#8, 0xE6#8, 0x00#8, 0x0F#8] ≠ full25.cfg.tag.toList :=
  ⟨candidate_holds _ _ _ _ (by decide +kernel), by decide +kernel, candidate_holds _ _ _ _ (by decide +kernel),
    by decide +kernel⟩

/-- A declared length equal to the length and one above it, and the least and the greatest declared length. -/
theorem witness_DeclaredLengthIsCompared :
    full25.holds 1 [0xA0#8, 0xE2#8] ∧ full25.cnt = 228 ∧
    (((0xA0#8 &&& 0x0F#8).setWidth 12 <<< 8) ||| (0xE2#8 : Byte).setWidth 12).toNat + 2 = 228 ∧
    (candidate (patch frame25 2 0xE3#8)).holds 1 [0xA0#8, 0xE3#8] ∧
    (((0xA0#8 &&& 0x0F#8).setWidth 12 <<< 8) ||| (0xE3#8 : Byte).setWidth 12).toNat + 2 = 229 ∧
    (candidate (bytes [0x7E, 0x00, 0x00])).holds 1 [0x00#8, 0x00#8] ∧
    (candidate (bytes [0x7E, 0xFF, 0xFF])).holds 1 [0xFF#8, 0xFF#8] :=
  ⟨candidate_holds _ _ _ _ (by decide +kernel), by decide +kernel, by decide, candidate_holds _ _ _ _ (by decide +kernel),
    by decide, candidate_holds _ _ _ _ (by decide), candidate_holds _ _ _ _ (by decide)⟩

/-- F25t: a wrong tag, resealed. -/
def frame25t : List Byte := patch (patch (patch frame25 9 0xE6#8) 225 0x2F#8) 226 0xF7#8
/-- F25d: a wrong declared length, resealed. -/
def frame25d : List Byte := patch (patch (patch frame25 2 0xE3#8) 6 0x98#8) 7 0x86#8

/-- Check 4 of F25t and F25d passes by their checksums. -/
theorem fcs_resealed : checkFcs (candidate frame25t) = .ok none ∧ checkFcs (candidate frame25d) = .ok none := by
  constructor
  · rw [candidate, checkFcs_candidate _ (v := 0xF72F#16) (by decide +kernel) (by decide +kernel)]
    exact of_verdict (by decide +kernel)
  · rw [candidate, checkFcs_candidate _ (v := 0xCC70#16) (by decide +kernel) (by decide +kernel)]
    exact of_verdict (by decide +kernel)

/-- A check passes or fails, by its verdict. -/
theorem check_passes {s : State} {x : Except Fault (Option Reject)} (h : verdict x = some none) :
    checking s x = .next s.passed := checking_pass (of_verdict h)

theorem check_fails {s : State} {x : Except Fault (Option Reject)} {j : Reject} (h : verdict x = some (some j)) :
    checking s x = .next (s.takeReject j) ∧ s.takeReject j ≠ s.passed :=
  ⟨checking_reject (of_verdict h), fun e => by have := congrArg State.ret e; cases this⟩

/-- All checks pass (F25), and each check is the first to fail of some candidate. -/
theorem witness_ValidatorReportsTheFirstFailure :
    (∀ i ∈ [Instr.valSize, .valFraming, .valHcs, .valFcs, .valTag, .valLen], exec i full25 = .next full25.passed) ∧
    (∃ u, exec .valSize (candidate []) = .next u ∧ u ≠ (candidate []).passed) ∧
    (∃ s u, exec .valSize s = .next s.passed ∧ exec .valFraming s = .next u ∧ u ≠ s.passed) ∧
    (∃ s u, (∀ i ∈ [Instr.valSize, .valFraming], exec i s = .next s.passed) ∧ exec .valHcs s = .next u ∧ u ≠ s.passed) ∧
    (∃ s u, (∀ i ∈ [Instr.valSize, .valFraming, .valHcs], exec i s = .next s.passed) ∧
      exec .valFcs s = .next u ∧ u ≠ s.passed) ∧
    (∃ s u, (∀ i ∈ [Instr.valSize, .valFraming, .valHcs, .valFcs], exec i s = .next s.passed) ∧
      exec .valTag s = .next u ∧ u ≠ s.passed) ∧
    (∃ s u, (∀ i ∈ [Instr.valSize, .valFraming, .valHcs, .valFcs, .valTag], exec i s = .next s.passed) ∧
      exec .valLen s = .next u ∧ u ≠ s.passed) := by
  have all := firstFailure_none.mp (accepted25 .bothSentinel)
  have e1 : ∀ s, exec .valSize s = checking s (checkSize s) := fun _ => rfl
  have e2 : ∀ s, exec .valFraming s = checking s (checkFraming s) := fun _ => rfl
  have e3 : ∀ s, exec .valHcs s = checking s (checkHcs s) := fun _ => rfl
  have e4 : ∀ s, exec .valFcs s = checking s (checkFcs s) := fun _ => rfl
  have e5 : ∀ s, exec .valTag s = checking s (checkTag s) := fun _ => rfl
  have e6 : ∀ s, exec .valLen s = checking s (checkLen s) := fun _ => rfl
  simp only [List.mem_cons, List.not_mem_nil, or_false, forall_eq_or_imp, forall_eq, e1, e2, e3, e4, e5, e6] at all ⊢
  refine ⟨?_, ⟨_, check_fails (j := ⟨.sizeOutOfRange, 0#32, 0x00B4012E#32⟩) (by decide +kernel)⟩,
    ⟨candidate (patch frame25 0 0#8), _, check_passes (by decide +kernel),
      check_fails (j := ⟨.framingMismatch, 0x007E#32, 0x7E7E#32⟩) (by decide +kernel)⟩,
    ⟨candidate (patch frame25 3 0x2C#8), _, ⟨check_passes (by decide +kernel), check_passes (by decide +kernel)⟩,
      check_fails (j := ⟨.headerChecksumMismatch, 0x9A23#32, 0x1626#32⟩) (by decide +kernel)⟩,
    ⟨candidate (patch frame25 162 0x01#8), _,
      ⟨check_passes (by decide +kernel), check_passes (by decide +kernel), check_passes (by decide +kernel)⟩,
      check_fails (j := ⟨.frameChecksumMismatch, 0xCC70#32, 0x5886#32⟩) ?_⟩,
    ⟨candidate frame25t, _, ⟨check_passes (by decide +kernel), check_passes (by decide +kernel),
      check_passes (by decide +kernel), checking_pass fcs_resealed.1⟩,
      check_fails (j := ⟨.unexpectedPayloadTag, 0xE6E6000F#32, 0xE6E7000F#32⟩) (by decide +kernel)⟩,
    ⟨candidate frame25d, _, ⟨check_passes (by decide +kernel), check_passes (by decide +kernel),
      check_passes (by decide +kernel), checking_pass fcs_resealed.2, check_passes (by decide +kernel)⟩,
      check_fails (j := ⟨.lengthFieldMismatch, 0xE5#32, 0xE4#32⟩) (by decide +kernel)⟩⟩
  · exact ⟨checking_pass all.1, checking_pass all.2.1, checking_pass all.2.2.1, checking_pass all.2.2.2.1,
      checking_pass all.2.2.2.2.1, checking_pass all.2.2.2.2.2⟩
  · rw [candidate, checkFcs_candidate _ (v := 0x5886#16) (by decide +kernel) (by decide +kernel)]
    decide +kernel

/-- A filled buffer of a valid length, and the lengths 179 and 303. -/
theorem witness_ValidatorAnswersOnEveryCandidate :
    full25.cfg.legal = true ∧ full25.bufferFilled ∧
    (candidate (frame17.drop 1)).cnt < 180 ∧ 302 < ({ full35 with cnt := 303 } : State).cnt :=
  ⟨by decide +kernel, candidate_filled _ (by decide +kernel), by decide +kernel, by decide⟩

theorem witness_AcceptedCandidateMeetsEveryCheck (m : Framing) :
    (∀ i, i < (candidateUnder (framed m) frame25).cnt →
      (candidateUnder (framed m) frame25).buf.get? i = some (frame25.getD i 0#8)) ∧
    exec .valRun (candidateUnder (framed m) frame25) = .next (candidateUnder (framed m) frame25).passed := by
  refine ⟨fun i hi => ?_, valRun_of_accepted (accepted25 m)⟩
  have hi : i < frame25.length := hi
  rw [get?_candidate, List.getD_eq_getElem?_getD, List.getElem?_eq_getElem hi]; rfl

/-- F25 with any byte changed, under each framing condition: the premises hold for every place `j` and byte `x`. -/
theorem witness_OneCorruptedByteIsReportedByItsCheck (m : Framing) (j : Nat) (x : Byte) (hj : j < 228) :
    let s := candidateUnder (framed m) frame25
    let s' := candidateUnder (framed m) (patch frame25 j x)
    exec .valRun s = .next s.passed ∧ s'.cfg = s.cfg ∧ s'.cnt = s.cnt ∧ j < s.cnt ∧
    (∀ i, i < s.cnt → s.buf.get? i = some (frame25.getD i 0#8)) ∧
    (∀ i, i < s.cnt → s'.buf.get? i = some (if i = j then x else frame25.getD i 0#8)) ∧
    frame25.getD 0 0#8 = 0x7E#8 ∧ frame25.getD (s.cnt - 1) 0#8 = s.cfg.sentinel := by
  obtain ⟨hb, ha⟩ := witness_AcceptedCandidateMeetsEveryCheck m
  have hn : frame25.length = 228 := by decide +kernel
  refine ⟨ha, rfl, List.length_set .., show j < frame25.length by omega, hb, fun i hi => ?_, by decide +kernel, ?_⟩
  · have hi' : i < frame25.length := hi
    have := hb i hi
    rw [get?_candidate] at this ⊢
    rw [patch, List.getElem?_set]
    by_cases hij : j = i
    · subst hij; simp [hi']
    · rw [if_neg hij, this, if_neg (Ne.symm hij)]
  · show frame25.getD (frame25.length - 1) 0#8 = 0x7E#8
    decide +kernel

/-- The last four bytes of a candidate. -/
theorem witness_IntegersAreExtractedInTheirByteOrder (a b c d : Byte) :
    (candidate [a]).holds 0 [a] ∧ (candidate [0#8, a, b]).holds 1 [a, b] ∧ (candidate [0#8, a, b, c, d]).holds 1 [a, b, c, d] :=
  ⟨candidate_holds _ _ _ _ (by simp), candidate_holds _ _ _ _ (by simp), candidate_holds _ _ _ _ (by simp)⟩

theorem witness_BcdIsExtractedByNibbles (x y : Byte) : (candidate [x, y]).holds 0 [x, y] :=
  candidate_holds _ _ _ _ (by simp)

/-- The ends of both ranges; together they are all 256 bytes. -/
theorem witness_WeekdayByteIsLookedUp :
    (1 ≤ (1#8).toNat ∧ (7#8).toNat ≤ 7) ∧ (0#8).toNat = 0 ∧ 8 ≤ (8#8).toNat ∧ 8 ≤ (255#8).toNat := by decide

theorem witness_ByteOperandsAreReadAtTheirOffset (x : Byte) : (candidate [0#8, x]).holds 1 [x] :=
  candidate_holds _ _ _ _ (by simp)

/-- A text of any bytes at the end of a candidate, the empty text, and the identifier of the lowest offset, 7. -/
theorem witness_TextsAndIdentifiersAreReadUnchanged (bs : List Byte) (a b c d e f : Byte) :
    (candidate (0#8 :: bs)).holds 1 bs ∧ (candidate []).holds 0 [] ∧ 7 ≤ 7 ∧ [a, b, c, d, e, f].length = 6 ∧
    (candidate [0#8, a, b, c, d, e, f]).holds (7 - 6) [a, b, c, d, e, f] :=
  ⟨candidate_holds _ _ _ _ (by simp; omega), candidate_holds _ _ _ _ (by simp), by decide, rfl,
    candidate_holds _ _ _ _ (by simp)⟩

/-- Any eight bytes, in both codings. -/
theorem witness_TimestampComponentsAreExtracted (y1 y2 mo da wd ho mi se : Byte) (coding : TsCoding) :
    let s := candidateUnder { Config.ref with tsCoding := coding } [y1, y2, mo, da, wd, ho, mi, se]
    s.holds (0 + s.cfg.tsSub.year) [y1, y2] ∧ s.holds (0 + s.cfg.tsSub.month) [mo] ∧ s.holds (0 + s.cfg.tsSub.day) [da] ∧
    s.holds (0 + s.cfg.tsSub.weekday) [wd] ∧ s.holds (0 + s.cfg.tsSub.hour) [ho] ∧ s.holds (0 + s.cfg.tsSub.minute) [mi] ∧
    s.holds (0 + s.cfg.tsSub.second) [se] ∧ s.cfg.tsCoding = coding := by
  refine ⟨?_, ?_, ?_, ?_, ?_, ?_, ?_, rfl⟩ <;>
    exact candidate_holds _ _ _ _ (by simp [candidateUnder, Config.ref, TsSub.ref])

/-- Each kind of value at the lowest offset, 7, and at the end of its candidate. -/
theorem witness_FieldsCarryTheirIdentifier (ident : Ident) (a b c d : Byte) :
    (candidate (0#8 :: ident.toList ++ [a, b, c, d])).holds (7 - 6) ident.toList ∧
    (candidate (0#8 :: ident.toList ++ [a, b, c, d])).holds 7 [a, b, c, d] ∧
    (candidate (0#8 :: ident.toList ++ [a, b])).holds (7 - 6) ident.toList ∧
    (candidate (0#8 :: ident.toList ++ [a, b])).holds 7 [a, b] ∧
    (∀ bs : List Byte, (candidate (0#8 :: ident.toList ++ bs)).holds (7 - 6) ident.toList ∧
      (candidate (0#8 :: ident.toList ++ bs)).holds 7 bs ∧
      (bs.length = 8 → (candidate (0#8 :: ident.toList ++ bs)).readable 7 (candidate []).cfg.tsSub.len)) := by
  have hi : ident.toList.length = 6 := by simp
  have key : ∀ bs : List Byte, (candidate (0#8 :: ident.toList ++ bs)).holds (7 - 6) ident.toList ∧
      (candidate (0#8 :: ident.toList ++ bs)).holds 7 bs := fun bs =>
    ⟨candidate_holds _ _ _ _ ⟨by simp, by simp⟩,
      candidate_holds _ _ _ _ ⟨by simp, by simp; omega⟩⟩
  exact ⟨(key _).1, (key _).2, (key _).1, (key _).2, fun bs => ⟨(key bs).1, (key bs).2,
    fun hb => candidate_readable _ _ (by simp [hi, hb]; decide)⟩⟩

/-- A candidate of four bytes and the least offset each clause names. -/
theorem witness_ReadsOutsideTheCandidateFault :
    let s := candidate (bytes [1, 2, 3, 4])
    s.cnt ≤ 4 ∧ s.cnt < 3 + 2 ∧ s.cnt < 1 + 4 ∧ s.cnt < 0 + 5 ∧ s.cnt < 5 ∧ (4 ≤ 4 ∧ s.cnt ≤ 4) ∧
    (candidate (bytes [1, 2, 3])).cnt < 4 := by decide

/-- Any discriminant byte at the offset REF gives. -/
theorem witness_DiscriminantSelectsTheLayout (d : Byte) :
    (candidate (List.replicate 30 0#8 ++ [d])).holds Config.ref.discOff [d] :=
  candidate_holds _ _ _ _ ⟨rfl, show 30 + 1 ≤ 30 + 1 by decide⟩

theorem witness_CodeTableRowsReturnTheirEntry (d : Byte) :
    (candidate (List.replicate 30 0#8 ++ [d])).holds Config.ref.discOff [d] :=
  witness_DiscriminantSelectsTheLayout d

/-- The extent equal to `N - 4`, one above it, and the shortest frame. -/
theorem witness_LayoutMustFitTheFrame :
    full25.cfg.legal = true ∧ 4 ≤ full25.cnt ∧ full25.cfg.extent .shortThreePhase = full25.cnt - 4 ∧
    (candidate (frame25.drop 1)).cnt - 4 + 1 = full25.cfg.extent .shortThreePhase ∧
    full17.cnt = 180 ∧ (candidate []).cfg.legal = true ∧ 4 ≤ (candidate (bytes [1, 2, 3, 4])).cnt := by decide +kernel

theorem witness_CommonFieldsAreDecodedAtTheirOffsets :
    full17.cfg.legal = true ∧ full17.readable 1 full17.cfg.layout.ph1End :=
  ⟨by decide +kernel, candidate_readable _ _ (by decide +kernel)⟩

/-- F35 has the bytes of every kind. -/
theorem witness_PhaseFieldsAreDecodedForThreePhaseKinds (k : LayoutKind) :
    full35.cfg.legal = true ∧ full35.readable 1 (full35.cfg.extent k) :=
  ⟨by decide +kernel, candidate_readable _ _ (by cases k <;> decide +kernel)⟩

theorem witness_LongFieldsAreDecodedAfterThePhaseBlock (k : LayoutKind) :
    full35.cfg.legal = true ∧ full35.readable 1 (full35.cfg.extent k) :=
  witness_PhaseFieldsAreDecodedForThreePhaseKinds k

/-- The premises of the decode sequence for a candidate under REF. -/
def decodable (bs : List Byte) (d : Byte) : Prop :=
  (candidate bs).cfg.legal = true ∧ (candidate bs).candidateStored ∧ 180 ≤ (candidate bs).cnt ∧
    (candidate bs).buf.get? (candidate bs).cfg.discOff = some d

/-- F25u: an unknown discriminant; F25x and F17x: a layout that does not fit; F17, F27, F25, F35: the four kinds. -/
theorem witness_DecodeRunFollowsItsSequence :
    decodable frame25u 26#8 ∧
    (decodable frame25x 35#8 ∧ (candidate frame25x).cnt - 4 < Config.ref.extent .longThreePhase) ∧
    (decodable frame17x 25#8 ∧ (candidate frame17x).cnt - 4 < Config.ref.extent .shortThreePhase) ∧
    (decodable frame17 17#8 ∧ Config.ref.extent .shortSinglePhase ≤ full17.cnt - 4) ∧
    (decodable frame27 27#8 ∧ Config.ref.extent .longSinglePhase ≤ full27.cnt - 4) ∧
    (decodable frame25 25#8 ∧ Config.ref.extent .shortThreePhase ≤ full25.cnt - 4) ∧
    (decodable frame35 35#8 ∧ Config.ref.extent .longThreePhase ≤ full35.cnt - 4) := by
  have h : ∀ bs d, 180 ≤ bs.length → bs[30]? = some d → decodable bs d := fun bs d hn hd =>
    ⟨ref_legal, candidate_stored _ _, hn, by rw [candidate, get?_candidate]; exact hd⟩
  exact ⟨h _ _ (by decide +kernel) (by decide +kernel),
    ⟨h _ _ (by decide +kernel) (by decide +kernel), by decide +kernel⟩,
    ⟨h _ _ (by decide +kernel) (by decide +kernel), by decide +kernel⟩,
    ⟨h _ _ (by decide +kernel) (by decide +kernel), by decide +kernel⟩,
    ⟨h _ _ (by decide +kernel) (by decide +kernel), by decide +kernel⟩,
    ⟨h _ _ (by decide +kernel) (by decide +kernel), by decide +kernel⟩,
    ⟨h _ _ (by decide +kernel) (by decide +kernel), by decide +kernel⟩⟩

/-- The greatest operands. -/
theorem witness_DecodingUndoesEncoding :
    [Instr.asmByte 0xFF#8, .crcX25 1 4294967295, .crcX25 4294967295 0, .extText 4294967295 18, .extId 7, .extId 4294967295,
      .extField .erExp 4294967295, .extBcd8 (.byteAt 4294967295), .extWday (.lit 0xFF#8), .decLong .longThreePhase,
      .discUnknown 0x00#8, .wdayAbsent 0xFF#8].all (fun i => i.wf) = true := by
  decide +kernel

theorem witness_DecoderAnswersOnlyWellFormedOperations :
    decodeWord (bytes [0xFF, 23, 7, 0, 0, 0, 0xFF]) = .ok (.extId 7, [0xFF#8]) ∧
    decodeStimulus 0x7E#8 1 (.byte 0x7E#8) = .ok (.asmClose 0x7E#8) := ⟨by rfl, by rfl⟩

end Sys2Proof.Tests
end

/-! ## Family 10_state: what an operation, a step and a run may write

Two inversion lemmas carry the three proofs. `exec_next_cases` says what any operation can do to the assembler state, `CFG`
and `OUT`; `step_effect` says that a step on an input event is one named update of the state, chosen by `CFG`, `BUF`, `CNT`
and the pending input alone. -/

namespace Sys2Proof.Machine

/-! ### What any operation can do -/

/-- `t` has the candidate of `s`: what validation and decoding read (20_memory.md R51, 10_state.md R42). -/
structure SameCandidate (s t : State) : Prop where
  cfg : t.cfg = s.cfg
  buf : t.buf = s.buf
  cnt : t.cnt = s.cnt

/-- `t` differs from `s` at most in `RES`, `RD` and the model's own `ret` and `draws`. -/
structure SameButResult (s t : State) : Prop extends SameCandidate s t where
  out : t.out = s.out
  inq : t.inq = s.inq

theorem sameButResult_ret (s : State) (x : Ret) : SameButResult s { s with ret := x } := ⟨⟨rfl, rfl, rfl⟩, rfl, rfl⟩

theorem sameButResult_takeReject (s : State) (j : Reject) : SameButResult s (s.takeReject j) := ⟨⟨rfl, rfl, rfl⟩, rfl, rfl⟩

theorem sameButResult_takeReading (s : State) (rd : Reading) : SameButResult s (s.takeReading rd) :=
  ⟨⟨rfl, rfl, rfl⟩, rfl, rfl⟩

theorem sameButResult_of_returning {s t : State} {α : Type} {r : Except Fault α} {f : α → Ret}
    (h : returning s r f = .next t) : SameButResult s t := by
  obtain ⟨a, -, rfl⟩ := returning_next h
  exact sameButResult_ret s _

theorem sameButResult_of_checking {s t : State} {r : Except Fault (Option Reject)}
    (h : checking s r = .next t) : SameButResult s t := by
  obtain ⟨-, rfl⟩ | ⟨j, -, rfl⟩ := checking_next h
  · exact sameButResult_ret s _
  · exact sameButResult_takeReject s j

theorem sameButResult_of_writingRd {s t : State} {r : Except Fault Reading}
    (h : writingRd s r = .next t) : SameButResult s t := by
  obtain ⟨rd, -, rfl⟩ := writingRd_next h
  exact ⟨⟨rfl, rfl, rfl⟩, rfl, rfl⟩

theorem sameButResult_of_decDisc {s t : State} (h : execDecDisc s = .next t) : SameButResult s t := by
  unfold execDecDisc at h
  split at h
  · cases h
  · split at h <;> cases h
    · exact sameButResult_takeReject s _
    · exact sameButResult_ret s _

theorem sameButResult_of_decRun {s t : State} (h : execDecRun s = .next t) : SameButResult s t := by
  unfold execDecRun at h
  split at h <;> cases h
  · exact sameButResult_takeReject s _
  · exact sameButResult_takeReading s _

/-- What an operation can do: only ASM.BYTE and ASM.OPEN append, only ASM.CLOSE closes and only RESET resets; every
other operation writes results at most. -/
theorem exec_next_cases {i : Instr} {s t : State} (h : exec i s = .next t) :
    (∃ v, t = s.append v) ∨ (∃ v, execAsmClose v s = .next t) ∨ execReset s = .next t ∨ SameButResult s t := by
  cases i with
  | asmByte v | asmOpen v => cases h; exact .inl ⟨v, rfl⟩
  | asmClose v => exact .inr (.inl ⟨v, h⟩)
  | reset => exact .inr (.inr (.inl h))
  | crcX25 | extU8 | extBe16 | extBe32 | extLe16 | extBcd8 | extBcd16 | extWday | extTs | extText | extId | extField =>
    exact .inr (.inr (.inr (sameButResult_of_returning h)))
  | valSize | valFraming | valHcs | valFcs | valTag | valLen | valRun | decFit =>
    exact .inr (.inr (.inr (sameButResult_of_checking h)))
  | decCommon | decThree | decLong => exact .inr (.inr (.inr (sameButResult_of_writingRd h)))
  | decDisc => exact .inr (.inr (.inr (sameButResult_of_decDisc h)))
  | decRun => exact .inr (.inr (.inr (sameButResult_of_decRun h)))
  | discUnknown d => cases h; exact .inr (.inr (.inr (sameButResult_takeReject s _)))
  | asmEmpty | discShortSinglePhase | discLongSinglePhase | discShortThreePhase | discLongThreePhase
  | wdayMonday | wdayTuesday | wdayWednesday | wdayThursday | wdayFriday | wdaySaturday | wdaySunday | wdayAbsent =>
    cases h; exact .inr (.inr (.inr (sameButResult_ret s _)))

/-! ### The configuration -/

theorem execAsmClose_cfg {v : Byte} {s t : State} (h : execAsmClose v s = .next t) : t.cfg = s.cfg := by
  obtain ⟨u, hu, rfl⟩ := execAsmClose_next h
  obtain ⟨j, -, rfl⟩ | ⟨rd, -, -, rfl⟩ := processCandidate_cases hu <;> rfl

theorem exec_cfg {i : Instr} {s t : State} (h : exec i s = .next t) : t.cfg = s.cfg := by
  obtain ⟨v, rfl⟩ | ⟨v, hc⟩ | hr | hs := exec_next_cases h
  · rfl
  · exact execAsmClose_cfg hc
  · cases hr; rfl
  · exact hs.cfg

theorem step_cfg {s t : State} (h : step s = .next t) : t.cfg = s.cfg := by
  obtain ⟨-, i, -, hx⟩ := step_next h
  rw [exec_cfg hx, fetch_frame]

/-- A run of `k + 1` steps that answers a state is a step and a run of `k` steps. -/
theorem run_succ_next {k : Nat} {s t : State} (h : core.run (k + 1) s = .next t) :
    ∃ u, step s = .next u ∧ core.run k u = .next t := by
  cases hs : core.step s with
  | next u => exact ⟨u, hs, by simpa only [Host.Core.run, hs] using h⟩
  | fault e => simp [Host.Core.run, hs] at h
  | refused e => simp [Host.Core.run, hs] at h

/-- What every step keeps, every run keeps. -/
theorem run_keeps {P : State → Prop} (hstep : ∀ s t, P s → step s = .next t → P t) {k : Nat} {s t : State} (hs : P s)
    (h : core.run k s = .next t) : P t := by
  induction k generalizing s with
  | zero => cases h; exact hs
  | succ k ih =>
    obtain ⟨u, hu, hk⟩ := run_succ_next h
    exact ih (hstep s u hs hu) hk

/-- Settles O6: no operation writes `CFG`, so no step does, and a run keeps what its steps keep. -/
theorem noOperationWritesConfiguration : Obligations.NoOperationWritesConfiguration :=
  ⟨fun _ _ _ => exec_cfg, fun _ s _ => run_keeps (P := fun u => u.cfg = s.cfg) (fun _ _ hu h => (step_cfg h).trans hu) rfl⟩

/-! ### The candidate decides its result -/

theorem validate_congr {s t : State} (h : SameCandidate s t) : validate t = validate s := by
  cases s; cases t; obtain ⟨rfl, rfl, rfl⟩ := h; rfl

theorem decodeFrame_congr {s t : State} (h : SameCandidate s t) : decodeFrame t = decodeFrame s := by
  cases s; cases t; obtain ⟨rfl, rfl, rfl⟩ := h; rfl

theorem sameCandidate_append {s t : State} (h : SameCandidate s t) (v : Byte) :
    SameCandidate (s.append v) (t.append v) :=
  ⟨h.cfg, by simp [append_buf, h.cfg, h.buf, h.cnt], by simp [append_cnt, h.cfg, h.cnt]⟩

/-- `RES` and `RD` take the result of a candidate: a failure or a Reading (40_assembler.md R103). -/
def State.takeResult (r : Except Reject Reading) (s : State) : State :=
  match r with
  | .error j => s.takeReject j
  | .ok rd => s.takeReading rd

section TakeResult
variable (r : Except Reject Reading) (s t : State)

theorem sameButResult_takeResult : SameButResult s (s.takeResult r) := by
  cases r with
  | error j => exact sameButResult_takeReject s j
  | ok rd => exact sameButResult_takeReading s rd

@[simp] theorem takeResult_cfg : (s.takeResult r).cfg = s.cfg := (sameButResult_takeResult r s).cfg
@[simp] theorem takeResult_out : (s.takeResult r).out = s.out := (sameButResult_takeResult r s).out
@[simp] theorem takeResult_inq : (s.takeResult r).inq = s.inq := (sameButResult_takeResult r s).inq

/-- `RES` after a candidate is its result's, whatever the state. -/
theorem takeResult_res_eq : (t.takeResult r).res = (s.takeResult r).res := by cases r <;> rfl

/-- `RD` after a candidate is its result's but for the bits of `RD.KIND`, which are free after a failure. -/
theorem takeResult_rd_eq : { (t.takeResult r).rd with kind := 0#2 } = { (s.takeResult r).rd with kind := 0#2 } := by
  cases r <;> rfl

theorem takeResult_rd_eq_of_ok (h : (s.takeResult r).res.ok = true) : (t.takeResult r).rd = (s.takeResult r).rd := by
  cases r with
  | error j => cases h
  | ok rd => rfl

end TakeResult

/-- One result serves every state with the same candidate. -/
theorem processCandidate_result {s u : State} (h : processCandidate s = .ok u) :
    ∃ r, ∀ t, SameCandidate s t → processCandidate t = .ok (t.takeResult r) := by
  unfold processCandidate at h
  split at h
  · cases h
  · next j hv => exact ⟨.error j, fun t ht => by rw [processCandidate, validate_congr ht, hv]; rfl⟩
  · next hv =>
    split at h
    · cases h
    · next j hd =>
      exact ⟨.error j, fun t ht => by rw [processCandidate, validate_congr ht, hv, decodeFrame_congr ht, hd]; rfl⟩
    · next rd hd =>
      exact ⟨.ok rd, fun t ht => by rw [processCandidate, validate_congr ht, hv, decodeFrame_congr ht, hd]; rfl⟩

/-! ### What a step on an input event can do -/

/-- The update a step on an input event makes (30_encoding.md R72); a close carries the result of its candidate. -/
inductive InputEffect where
  | keep
  | append (v : Byte)
  | reset
  | close (r : Except Reject Reading)

/-- The state after the update, the input event already taken. -/
def InputEffect.apply (s : State) : InputEffect → State
  | .keep => s
  | .append v => s.append v
  | .reset => { State.reset with cfg := s.cfg, inq := s.inq, draws := s.draws }
  | .close r => ((s.append s.cfg.sentinel).takeResult r).finishCandidate

/-- The next input event closes a candidate: a sentinel while the buffer is not empty (30_encoding.md R72). -/
def State.closesNext (s : State) : Prop := s.inq.head? = some (.byte s.cfg.sentinel) ∧ 1 ≤ s.cnt

/-- The pending input and the byte counter select the kind of update (30_encoding.md R72). -/
def InputEffect.selectedIn (s : State) : InputEffect → Prop
  | .keep => s.inq.head? = none ∨ s.inq.head? = some .empty
  | .append v => s.inq.head? = some (.byte v) ∧ ¬ s.closesNext
  | .reset => s.inq.head? = some .reset
  | .close _ => s.closesNext

/-- The event a step takes is the first pending one, an empty read where none is. -/
theorem fetch_event (s : State) : (fetch s).1 = s.inq.head?.getD .empty := by
  cases hq : s.inq <;> simp [fetch, hq]

theorem sameCandidate_fetch {s t : State} (h : SameCandidate s t) : SameCandidate (fetch s).2 (fetch t).2 := by
  simp only [fetch_frame]
  exact ⟨h.cfg, h.buf, h.cnt⟩

/-- States with the same candidate and pending input select the same operation. -/
theorem step_of_same {s t : State} {i : Instr} (hl : s.cfg.legal = true)
    (hi : decodeStimulus s.cfg.sentinel s.cnt (fetch s).1 = .ok i) (h : SameCandidate s t) (hq : t.inq = s.inq) :
    step t = exec i (fetch t).2 :=
  step_of_decode (by rw [h.cfg, hl]) (by rw [h.cfg, h.cnt, fetch_event, hq, ← fetch_event, hi])

/-- A closing operation has one result for every state with the same candidate. -/
theorem execAsmClose_effect {s u : State} (h : execAsmClose s.cfg.sentinel s = .next u) :
    ∃ r, ∀ t, SameCandidate s t → execAsmClose s.cfg.sentinel t = .next (InputEffect.apply t (.close r)) := by
  obtain ⟨w, hw, -⟩ := execAsmClose_next h
  obtain ⟨r, hr⟩ := processCandidate_result hw
  refine ⟨r, fun t ht => ?_⟩
  rw [execAsmClose, hr _ (sameCandidate_append ht _), InputEffect.apply, ht.cfg]

/-- The operation a byte selects makes one update for every state with the same candidate. -/
theorem exec_byteEvent_effect {v : Byte} {s u : State} (h : exec (decodeByteEvent s.cfg.sentinel s.cnt v) s = .next u) :
    ∃ f : InputEffect, ((v = s.cfg.sentinel ∧ 1 ≤ s.cnt ∧ ∃ r, f = .close r) ∨
      (¬ (v = s.cfg.sentinel ∧ 1 ≤ s.cnt) ∧ f = .append v)) ∧
      ∀ t, SameCandidate s t → exec (decodeByteEvent s.cfg.sentinel s.cnt v) t = .next (f.apply t) := by
  unfold decodeByteEvent at h ⊢
  by_cases hv : v = s.cfg.sentinel
  · by_cases hc : s.cnt = 0
    · refine ⟨.append v, .inr ⟨by omega, rfl⟩, fun t _ => ?_⟩
      rw [if_pos hv, if_pos hc]; rfl
    · subst hv
      rw [if_pos rfl, if_neg hc] at h ⊢
      obtain ⟨r, hr⟩ := execAsmClose_effect h
      exact ⟨.close r, .inl ⟨rfl, by omega, r, rfl⟩, hr⟩
  · refine ⟨.append v, .inr ⟨fun h => hv h.1, rfl⟩, fun t _ => ?_⟩
    rw [if_neg hv]; rfl

/-- States with the same candidate and pending input step by one and the same update. -/
theorem step_same_effect {s u : State} (hin : ∀ e ∈ s.inq, e.isInput = true) (h : step s = .next u) :
    ∃ f : InputEffect, f.selectedIn s ∧
      ∀ t, SameCandidate s t → t.inq = s.inq → step t = .next (f.apply { t with inq := t.inq.tail }) := by
  obtain ⟨hl, i, hi, hx⟩ := step_next h
  have hfrom : ∀ f : InputEffect, (∀ t, SameCandidate (fetch s).2 t → exec i t = .next (f.apply t)) →
      ∀ t, SameCandidate s t → t.inq = s.inq → step t = .next (f.apply (fetch t).2) := fun f hf t ht hq => by
    rw [step_of_same hl hi ht hq, hf _ (sameCandidate_fetch ht)]
  simp only [fetch_frame] at hx hfrom
  rw [fetch_event] at hi
  cases hq : s.inq.head? with
  | none =>
    rw [hq] at hi; cases hi
    exact ⟨.keep, .inl hq, hfrom .keep fun _ _ => rfl⟩
  | some e =>
    rw [hq] at hi
    cases e with
    | byte v =>
      cases hi
      obtain ⟨f, hsel, hf⟩ := exec_byteEvent_effect (s := { s with inq := s.inq.tail }) hx
      refine ⟨f, ?_, hfrom f hf⟩
      obtain ⟨rfl, hc, r, rfl⟩ | ⟨hn, rfl⟩ := hsel
      · exact ⟨hq, hc⟩
      · refine ⟨hq, fun hc => hn ⟨?_, hc.2⟩⟩
        simpa [hq] using hc.1
    | empty => cases hi; exact ⟨.keep, .inr hq, hfrom .keep fun _ _ => rfl⟩
    | reset => cases hi; exact ⟨.reset, hq, hfrom .reset fun _ _ => rfl⟩
    | direct word => cases hin _ (List.mem_of_mem_head? hq)

/-- A step on an input event is one update, the same from every state with the same candidate and pending input. -/
theorem step_effect {s u : State} (hin : ∀ e ∈ s.inq, e.isInput = true) (h : step s = .next u) :
    ∃ f : InputEffect, f.selectedIn s ∧ u = f.apply { s with inq := s.inq.tail } ∧
      ∀ t, SameCandidate s t → t.inq = s.inq → step t = .next (f.apply { t with inq := t.inq.tail }) := by
  obtain ⟨f, hsel, hstep⟩ := step_same_effect hin h
  have hs := hstep s ⟨rfl, rfl, rfl⟩ rfl
  rw [h] at hs
  exact ⟨f, hsel, Host.Outcome.next.inj hs, hstep⟩

/-! ### What the updates write -/

section Apply
variable {f : InputEffect} {s t : State}

theorem eq_close_of_selectedIn (hf : f.selectedIn s) (h : s.closesNext) : ∃ r, f = .close r := by
  cases f with
  | close r => exact ⟨r, rfl⟩
  | append v => exact absurd h hf.2
  | keep => obtain hf | hf := hf <;> cases h.1.symm.trans hf
  | reset => cases h.1.symm.trans hf

theorem eq_reset_of_selectedIn (hf : f.selectedIn s) (h : s.inq.head? = some .reset) : f = .reset := by
  cases f with
  | reset => rfl
  | keep => obtain hf | hf := hf <;> cases h.symm.trans hf
  | append | close => cases h.symm.trans hf.1

theorem keep_or_append_of_selectedIn (hf : f.selectedIn s) (hc : ¬ s.closesNext) (hr : s.inq.head? ≠ some .reset) :
    f = .keep ∨ ∃ v, f = .append v := by
  cases f with
  | keep => exact .inl rfl
  | append v => exact .inr ⟨v, rfl⟩
  | reset => exact absurd hf hr
  | close r => exact absurd hf hc

/-- The candidate and the pending input after an update depend on those before it alone. -/
theorem apply_same (f : InputEffect) (h : SameCandidate s t) (hq : t.inq = s.inq) :
    SameCandidate (f.apply s) (f.apply t) ∧ (f.apply t).inq = (f.apply s).inq := by
  cases f with
  | keep => exact ⟨h, hq⟩
  | append v => exact ⟨sameCandidate_append h v, hq⟩
  | reset => exact ⟨⟨h.cfg, rfl, rfl⟩, hq⟩
  | close r => exact ⟨⟨by simp [InputEffect.apply, h.cfg], rfl, rfl⟩, by simp [InputEffect.apply, hq]⟩

/-- `OUT` is never read: what it held does not reach the rest of the state. -/
theorem apply_out_unread (f : InputEffect) (s : State) (o : List Record) :
    { f.apply { s with out := o } with out := [] } = { f.apply s with out := [] } := by
  cases f with
  | keep | append | reset => rfl
  | close r => cases r <;> rfl

/-- A close appends the record of the `RES` and `RD` it leaves (30_encoding.md R73). -/
theorem apply_close_out (s : State) (r : Except Reject Reading) :
    (InputEffect.apply s (.close r)).out = s.out ++ [(InputEffect.apply s (.close r)).record] := by
  simp [InputEffect.apply, State.record]

end Apply

/-- Settles O22: the update a step makes is known by the input event it takes. -/
theorem onlyAClosingStepWritesResults : Obligations.OnlyAClosingStepWritesResults := by
  intro s t hin h
  obtain ⟨f, hf, rfl, hstep⟩ := step_effect hin h
  refine ⟨fun hb hc => ?closing, fun hr => ?reset, fun hn hr => ?other, fun o => ?unread⟩
  case closing =>
    obtain ⟨r, rfl⟩ := eq_close_of_selectedIn hf ⟨hb, hc⟩
    exact ⟨_, apply_close_out _ r⟩
  case reset => rw [eq_reset_of_selectedIn hf hr]; rfl
  case other => obtain rfl | ⟨v, rfl⟩ := keep_or_append_of_selectedIn hf hn hr <;> exact ⟨rfl, rfl, rfl⟩
  case unread => exact ⟨_, hstep _ ⟨rfl, rfl, rfl⟩ rfl, apply_out_unread f { s with inq := s.inq.tail } o⟩

/-- Settles O23: both states make the same update, and a close's result is its candidate's. -/
theorem resultsDependOnTheCandidateAlone : Obligations.ResultsDependOnTheCandidateAlone := by
  intro s s' t hin hcfg hbuf hcnt hq h
  obtain ⟨f, hf, rfl, hstep⟩ := step_effect hin h
  obtain ⟨hsame, hinq⟩ := apply_same f (s := { s with inq := s.inq.tail }) (t := { s' with inq := s'.inq.tail })
    ⟨hcfg, hbuf, hcnt⟩ (congrArg List.tail hq)
  refine ⟨_, hstep s' ⟨hcfg, hbuf, hcnt⟩ hq, hsame.cfg, hsame.buf, hsame.cnt, hinq, fun hb hc => ?_⟩
  obtain ⟨r, rfl⟩ := eq_close_of_selectedIn hf ⟨hb, hc⟩
  exact ⟨takeResult_res_eq r _ _, takeResult_rd_eq r _ _, takeResult_rd_eq_of_ok r _ _, apply_close_out _ r,
    apply_close_out _ r⟩

end Sys2Proof.Machine

/-! ## Family 30_encoding: input events, reads and result records

An input event selects its operation by `decodeByteEvent`, one lemma a row of R72. A read is known by the events it adds to
the pending input, and a record by the `RES` and `RD` that processing its candidate leaves. -/

namespace Sys2Proof

section ByteEvent
variable {sentinel v : Byte} {cnt : Nat}

theorem decodeByteEvent_of_ne (h : v ≠ sentinel) : decodeByteEvent sentinel cnt v = .asmByte v := if_neg h

theorem decodeByteEvent_open (h : v = sentinel) (hc : cnt = 0) : decodeByteEvent sentinel cnt v = .asmOpen v := by
  rw [decodeByteEvent, if_pos h, if_pos hc]

theorem decodeByteEvent_close (h : v = sentinel) (hc : 1 ≤ cnt) : decodeByteEvent sentinel cnt v = .asmClose v := by
  rw [decodeByteEvent, if_pos h, if_neg (by omega)]

end ByteEvent

end Sys2Proof

namespace Sys2Proof.Machine

/-! ### The operation an input event selects -/

/-- A step on a pending byte executes the operation the byte selects (30_encoding.md R72). -/
theorem step_byte {s : State} {v : Byte} {rest : List Stimulus} {i : Instr} (hl : s.cfg.legal = true)
    (hq : s.inq = .byte v :: rest) (hi : decodeByteEvent s.cfg.sentinel s.cnt v = i) :
    step s = exec i { s with inq := rest } :=
  step_cons hl hq (congrArg Except.ok hi)

/-- Settles O12: each event decodes to its row of R72, and a step executes the decoded operation. -/
theorem inputEventsSelectTheirOperation : Obligations.InputEventsSelectTheirOperation := by
  intro s rest hl
  refine ⟨fun v hq hv => ?byte, fun v hq hv hc => ?opening, fun v hq hv hc => ?closing, fun hq => ?empty, fun hq => ?reset⟩
  case byte => exact step_byte hl hq (decodeByteEvent_of_ne hv)
  case opening => exact step_byte hl hq (decodeByteEvent_open hv hc)
  case closing => exact step_byte hl hq (decodeByteEvent_close hv hc)
  case empty => exact step_cons hl hq rfl
  case reset => exact step_cons hl hq rfl

/-! ### Reads -/

/-- A read of some bytes is their byte events, in order (30_encoding.md R71). -/
theorem readEvents_of_ne_nil {bs : List Byte} (h : bs ≠ []) : readEvents bs = bs.map .byte := by
  cases bs with
  | nil => exact absurd rfl h
  | cons b bs => rfl

theorem offerRead_of_ne_nil (s : State) {bs : List Byte} (h : bs ≠ []) :
    s.offerRead bs = { s with inq := s.inq ++ bs.map .byte } := by
  rw [State.offerRead, readEvents_of_ne_nil h]

/-- Two reads, neither of them empty, are one read of their bytes. -/
theorem offerRead_offerRead (s : State) {bs cs : List Byte} (hb : bs ≠ []) (hc : cs ≠ []) :
    (s.offerRead bs).offerRead cs = s.offerRead (bs ++ cs) := by
  rw [offerRead_of_ne_nil s hb, offerRead_of_ne_nil _ hc, offerRead_of_ne_nil s (List.append_ne_nil_of_left_ne_nil hb cs),
    List.map_append, List.append_assoc]

/-- A read is its bytes read one at a time: each single read joins the chunk before it. -/
theorem offerRead_cons_eq_foldl (s : State) (b : Byte) (bs : List Byte) :
    s.offerRead (b :: bs) = (b :: bs).foldl (fun u v => u.offerRead [v]) s := by
  induction bs generalizing s b with
  | nil => rfl
  | cons c bs ih =>
    calc s.offerRead (b :: c :: bs)
      _ = (s.offerRead [b]).offerRead (c :: bs) :=
        (offerRead_offerRead s (List.cons_ne_nil b []) (List.cons_ne_nil c bs)).symm
      _ = (b :: c :: bs).foldl (fun u v => u.offerRead [v]) s := ih (s.offerRead [b]) c

/-- Settles O15: reads that are not empty join, so any split of a chunk offers the same events. -/
theorem chunkBoundariesHaveNoEffect : Obligations.ChunkBoundariesHaveNoEffect :=
  ⟨fun s b bs _ hc => (offerRead_offerRead s (List.cons_ne_nil b bs) hc).symm, offerRead_cons_eq_foldl,
    fun _ _ _ => rfl, fun _ => rfl⟩

/-! ### The record of a closed candidate -/

section Closing
variable {s u : State}

theorem sameButResult_of_processCandidate (h : processCandidate s = .ok u) : SameButResult s u := by
  obtain ⟨j, -, rfl⟩ | ⟨rd, -, -, rfl⟩ := processCandidate_cases h
  · exact sameButResult_takeReject s j
  · exact sameButResult_takeReading s rd

theorem processCandidate_res_valid (h : processCandidate s = .ok u) : u.res.valid = true := by
  obtain ⟨j, -, rfl⟩ | ⟨rd, -, -, rfl⟩ := processCandidate_cases h <;> rfl

/-- The record of an accepted candidate has code and context 0 (30_encoding.md R73). -/
theorem processCandidate_record_ok (h : processCandidate s = .ok u) (hok : u.record.ok = true) :
    u.record.code = .ok ∧ u.record.obs = 0#32 ∧ u.record.exp = 0#32 := by
  obtain ⟨j, -, rfl⟩ | ⟨rd, -, -, rfl⟩ := processCandidate_cases h
  · cases hok
  · exact ⟨rfl, rfl, rfl⟩

/-- The record of a failed candidate has a failure code and no Reading (30_encoding.md R73). -/
theorem processCandidate_record_failed (h : processCandidate s = .ok u) (hok : u.record.ok = false) :
    u.record.code ≠ .ok ∧ ∃ kind, u.record.reading = Reading.absent kind := by
  obtain ⟨j, hj, rfl⟩ | ⟨rd, -, -, rfl⟩ := processCandidate_cases h
  · exact ⟨hj, _, rfl⟩
  · cases hok

/-- A close of a filled buffer processes the candidate and finishes it (40_assembler.md R103). -/
theorem execAsmClose_of_filled (v : Byte) (hl : s.cfg.legal = true) (hf : s.bufferFilled) :
    ∃ u, processCandidate (s.append v) = .ok u ∧ execAsmClose v s = .next u.finishCandidate := by
  obtain ⟨u, hu⟩ := processCandidate_ok (s := s.append v) hl (bufferFilled_append v hf)
  exact ⟨u, hu, by rw [execAsmClose, hu]⟩

end Closing

/-- Settles O18: the append keeps the buffer filled, so processing answers; its `RES` and `RD` are the one record. -/
theorem closingEmitsExactlyOneRecord : Obligations.ClosingEmitsExactlyOneRecord := by
  intro s v hl hf
  obtain ⟨u, hu, hclose⟩ := execAsmClose_of_filled v hl hf
  obtain ⟨⟨hcfg, -, -⟩, hout, hinq⟩ := sameButResult_of_processCandidate hu
  have hvalid := processCandidate_res_valid hu
  exact ⟨u.finishCandidate, u.record, hclose, congrArg (· ++ [u.record]) hout, rfl, hvalid, rfl,
    processCandidate_record_ok hu, processCandidate_record_failed hu, hcfg, hinq⟩

end Sys2Proof.Machine

/-! ## Family 40_assembler: the append, the empty read and the close

What an append leaves in the buffer is one lemma, `get?_append`; ASM.BYTE and ASM.OPEN are that lemma, the byte counter and
the append's frame. A run over empty reads takes one step lemma and an induction over their number. ASM.CLOSE processes
its candidate to the very state that VAL.RUN, or DEC.RUN after it, leaves. -/

namespace Sys2Proof.Machine

/-! ### The append -/

/-- An append stores its byte at `CNT` while there is room, and leaves every other entry (40_assembler.md R104). -/
theorem get?_append (s : State) (v : Byte) (i : Nat) :
    (s.append v).buf.get? i =
      if i = s.cnt ∧ s.cnt < s.cfg.bufCap ∧ s.cnt < cntMax s.cfg then some v else s.buf.get? i := by
  rw [append_buf]
  by_cases hroom : s.cnt < s.cfg.bufCap ∧ s.cnt < cntMax s.cfg
  · rw [if_pos hroom, get?_write]
    simp only [hroom, and_true]
  · rw [if_neg hroom, if_neg fun h => hroom h.2]

/-- Settles O16: ASM.BYTE is the append, which writes `BUF` and `CNT` alone. -/
theorem nonSentinelByteIsAppended : Obligations.NonSentinelByteIsAppended := fun s v =>
  ⟨s.append v, rfl, append_cnt v s, get?_append s v, rfl, rfl, rfl, rfl, rfl, rfl, rfl⟩

/-- A legal configuration has room for the first byte of a candidate (10_state.md R28, R29). -/
theorem room_of_empty {s : State} (hl : s.cfg.legal = true) (hc : s.cnt = 0) :
    s.cnt < s.cfg.bufCap ∧ s.cnt < cntMax s.cfg := by
  have hcap := legal_bufCap hl
  have hmax := legal_cntMax hl
  omega

/-- Settles O17: ASM.OPEN is the append, and the empty buffer has room for its byte. -/
theorem sentinelOpensACandidate : Obligations.SentinelOpensACandidate := by
  intro s v hl hc
  have hroom := room_of_empty hl hc
  refine ⟨s.append v, rfl, ?count, ?stored, fun i hi => ?others, rfl, rfl, rfl, rfl, rfl, rfl, rfl⟩
  case count => rw [append_cnt, if_pos hroom.2, hc]
  case stored => rw [get?_append, if_pos ⟨hc.symm, hroom⟩]
  case others => rw [get?_append, if_neg fun h => hi (h.1.trans hc)]

/-! ### Empty reads -/

/-- A step on an empty read takes it and changes nothing else (40_assembler.md R105). -/
theorem step_empty {s : State} {rest : List Stimulus} (hl : s.cfg.legal = true) (hq : s.inq = .empty :: rest) :
    step s = .next { s with inq := rest } :=
  step_cons hl hq rfl

/-- A run of `k + 1` steps continues the run of `k` steps from the state its first step answers. -/
theorem run_succ_of_step {s t : State} (h : step s = .next t) (k : Nat) : core.run (k + 1) s = core.run k t := by
  have hcore : core.step s = .next t := h
  simp only [Host.Core.run, hcore]

/-- A run over pending empty reads takes them and changes nothing else. -/
theorem run_empties (k : Nat) (s : State) (rest : List Stimulus) (hl : s.cfg.legal = true)
    (hq : s.inq = List.replicate k .empty ++ rest) : core.run k s = .next { s with inq := rest } := by
  induction k generalizing s with
  | zero =>
    obtain rfl : s.inq = rest := hq
    rfl
  | succ k ih =>
    rw [List.replicate_succ, List.cons_append] at hq
    rw [run_succ_of_step (step_empty hl hq), ih { s with inq := List.replicate k .empty ++ rest } hl rfl]

/-- Settles O14: ASM.EMPTY answers the state it got, so a step on an empty read only takes it, and so does a run. -/
theorem emptyReadsChangeNothing : Obligations.EmptyReadsChangeNothing :=
  ⟨fun _ => rfl, run_empties⟩

/-! ### The close -/

theorem sameCandidate_passed (s : State) : SameCandidate s s.passed := ⟨rfl, rfl, rfl⟩

section Close
variable {s u w : State}

/-- A candidate that VAL.RUN rejects is processed to the state VAL.RUN leaves (40_assembler.md R103). -/
theorem processCandidate_of_valRun {j : Reject} (hu : execValRun s = .next u) (hj : u.ret = .reject j) :
    processCandidate s = .ok u := by
  obtain ⟨-, rfl⟩ | ⟨i, hv, rfl⟩ := checking_next hu
  · cases hj
  · rw [processCandidate, hv]

/-- A candidate that VAL.RUN accepts is processed to the state DEC.RUN then leaves (40_assembler.md R103). -/
theorem processCandidate_of_decRun (hu : execValRun s = .next u) (hpass : u.ret = .pass)
    (hw : execDecRun u = .next w) : processCandidate s = .ok w := by
  obtain ⟨hv, rfl⟩ | ⟨j, -, rfl⟩ := checking_next hu
  · rw [execDecRun, decodeFrame_congr (sameCandidate_passed s)] at hw
    rw [processCandidate, hv]
    cases hd : decodeFrame s with
    | error e => rw [hd] at hw; cases hw
    | ok r =>
      rw [hd] at hw
      cases r with
      | error j => cases hw; rfl
      | ok rd => cases hw; rfl
  · cases hpass

/-- A close finishes the candidate its append completes. -/
theorem execAsmClose_of_processed {v : Byte} (h : processCandidate (s.append v) = .ok u) :
    execAsmClose v s = .next u.finishCandidate := by
  rw [execAsmClose, h]

end Close

/-- Settles O19: the close processes the candidate to the state of the last of the two runs, and finishes it. -/
theorem closingRunsValidatorThenDecoder : Obligations.ClosingRunsValidatorThenDecoder := by
  intro s a u v ha hu closesWith
  obtain rfl : s.append v = a := Host.Outcome.next.inj ha
  have hclose : ∀ r, processCandidate (s.append v) = .ok r → closesWith r := fun r hr => by
    obtain ⟨⟨hcfg, -, -⟩, hout, hinq⟩ := sameButResult_of_processCandidate hr
    exact ⟨r.finishCandidate, execAsmClose_of_processed hr, rfl, rfl, congrArg (· ++ [r.record]) hout, rfl, hcfg, hinq⟩
  exact ⟨fun j hj => hclose u (processCandidate_of_valRun hu hj),
    fun hpass w hw => hclose w (processCandidate_of_decRun hu hpass hw)⟩

end Sys2Proof.Machine

/-! ## Family 41_crc: the checksum unit

The model's register, shifted one bit at a time, is the bit-serial loop of R121; CRC.X25 returns its value over the range. -/

namespace Sys2Proof.Machine

/-! ### The register as R121's loop -/

/-- The model's test of bit 0 is R121's `crc[0] = 1`. -/
theorem getLsbD_zero_iff (crc : Half) : crc.getLsbD 0 = true ↔ crc &&& 1#16 = 1#16 := by
  rw [BitVec.and_one_eq_setWidth_ofBool_getLsbD]
  cases crc.getLsbD 0 <;> decide

/-- One shift, with the polynomial written out (41_crc.md R121). -/
theorem crcBit_eq (crc : Half) :
    crcBit crc = if crc &&& 1#16 = 1#16 then (crc >>> 1) ^^^ 0x8408#16 else crc >>> 1 :=
  if_congr (getLsbD_zero_iff crc) rfl rfl

/-- A byte is XORed in and shifted eight times (41_crc.md R121). -/
theorem crcByte_eq_iterate (crc : Half) (x : Byte) : crcByte crc x = crcBit^[8] (crc ^^^ x.setWidth 16) := rfl

/-- The register takes the bytes in index order (41_crc.md R121). -/
theorem crcRegister_eq_foldl (crc : Half) (bs : List Byte) : crcRegister crc bs = bs.foldl crcByte crc := by
  induction bs generalizing crc with
  | nil => rfl
  | cons x xs ih => exact ih _

/-- The checksum is the bit-serial loop of R121 for any function that shifts the register as `crcBit` does. -/
theorem crc16x25_eq_foldl {bit : Half → Half} (hbit : ∀ crc, crcBit crc = bit crc) (bs : List Byte) :
    crc16x25 bs = bs.foldl (fun crc x => bit^[8] (crc ^^^ x.setWidth 16)) 0xFFFF#16 ^^^ 0xFFFF#16 := by
  obtain rfl : crcBit = bit := funext hbit
  rw [crc16x25, crcRegister_eq_foldl]
  simp only [funext₂ crcByte_eq_iterate]

/-! ### The operation -/

section Operation
variable {s : State} {lo hi : Nat}

/-- CRC.X25 on held bytes, whatever the bounds of the range. -/
theorem exec_crcX25_of_holds {bs : List Byte} (h : s.holds lo bs) (hl : bs.length = hi + 1 - lo) :
    exec (.crcX25 lo hi) s = .next { s with ret := .half (crc16x25 bs) } :=
  returning_of_ok (crcOfRange_of_holds h hl)

/-- CRC.X25 on an empty range, wherever it lies. -/
theorem exec_crcX25_of_lt (h : hi < lo) : exec (.crcX25 lo hi) s = .next { s with ret := .half 0x0000#16 } :=
  returning_of_ok (crcOfRange_of_lt h)

end Operation

/-- Settles O26: the model's checksum of held bytes is R121's loop; an empty range is answered with no byte read. -/
theorem checksumFollowsTheBitSerialDefinition : Obligations.ChecksumFollowsTheBitSerialDefinition := by
  refine ⟨fun s lo hi bs _ _ hheld hlen => ?held, fun s lo hi _ _ hempty => exec_crcX25_of_lt hempty⟩
  case held => rw [exec_crcX25_of_holds hheld hlen, crc16x25_eq_foldl crcBit_eq]

end Sys2Proof.Machine

/-! ## Family 42_validator: what each check reports, and the order of the checks

What a check answers on held bytes is one equation a check: no failure where its condition holds, else the failure with its
context. `exec_of_test` turns such an equation into the two answers of the operation. `validatorChecks` lists the six
operations with the checks they run; VAL.RUN is that list up to its first failure. -/

namespace Sys2Proof.Machine

/-! ### Context words of held bytes -/

/-- A context word is its own number (60_exceptions.md R231). -/
theorem contextWord_toNat (w : Word) : contextWord w.toNat = w := by
  rw [contextWord_of_lt w.isLt, BitVec.ofNat_toNat, BitVec.setWidth_eq]

/-- A byte appended to a word is its last big-endian digit (00_scope.md R10). -/
theorem toNat_append_byte {w : Nat} (x : BitVec w) (b : Byte) : (x ++ b).toNat = 256 * x.toNat + b.toNat := by
  rw [BitVec.toNat_append, ← Nat.shiftLeft_add_eq_or_of_lt b.isLt, Nat.shiftLeft_eq, Nat.mul_comm]

/-- Four bytes are the context word of their big-endian value (42_validator.md R134). -/
theorem contextWord_bigEndian (a b c d : Byte) : contextWord (bigEndian [a, b, c, d]) = a ++ b ++ c ++ d := by
  have hval : bigEndian [a, b, c, d] = (a ++ b ++ c ++ d).toNat := by
    simp only [toNat_append_byte, bigEndian, List.foldl_cons, List.foldl_nil, Nat.mul_zero, Nat.zero_add]
  rw [hval, contextWord_toNat]

/-- The context word `(a << 8) | b` of two bytes (42_validator.md R131). -/
theorem contextWord_bytePair (a b : Byte) :
    contextWord (256 * a.toNat + b.toNat : Nat) = a.setWidth 32 <<< 8 ||| b.setWidth 32 := by
  have hval : (a.setWidth 32 <<< 8 ||| b.setWidth 32).toNat = 256 * a.toNat + b.toNat := by
    have hshift : (a.setWidth 32 <<< 8).toNat = a.toNat <<< 8 := by
      rw [BitVec.toNat_shiftLeft, BitVec.toNat_setWidth_of_le (by decide), Nat.shiftLeft_eq]
      omega
    rw [BitVec.toNat_or, hshift, BitVec.toNat_setWidth_of_le (by decide), ← Nat.shiftLeft_add_eq_or_of_lt b.isLt,
      Nat.shiftLeft_eq, Nat.mul_comm]
  rw [← hval, contextWord_toNat]

/-! ### The two answers of a check -/

/-- An operation whose check is one test passes where the test holds, and reports the failure elsewhere. -/
theorem exec_of_test {s : State} {i : Instr} {r : Except Fault (Option Reject)} {p : Prop} [Decidable p] {j : Reject}
    (hi : exec i s = checking s r) (hr : r = .ok (if p then none else some j)) :
    (p → exec i s = .next s.passed) ∧ (¬ p → exec i s = .next (s.rejectedAs j.code j.obs j.exp)) :=
  ⟨fun h => hi.trans (checking_pass (by rw [hr, if_pos h])),
    fun h => hi.trans (checking_reject (by rw [hr, if_neg h]))⟩

/-! ### Check 2: framing -/

section Framing
variable {c : Config} {first last : Byte}

theorem framingFails_bothSentinel (h : c.framing = .bothSentinel) :
    framingFails c first last = true ↔ first ≠ c.sentinel ∨ last ≠ c.sentinel := by
  simp [framingFails, h]

theorem framingFails_leadingZero (h : c.framing = .leadingZero) :
    framingFails c first last = true ↔ first = 0#8 ∧ last = c.sentinel := by
  simp [framingFails, h]

theorem framingFails_off (h : c.framing = .off) : framingFails c first last = true ↔ False := by
  simp [framingFails, h]

end Framing

section Checks
variable {s : State}

/-- Check 2 on a held first and last byte (42_validator.md R131). -/
theorem checkFraming_of_holds {first last : Byte} (hfirst : s.holds 0 [first]) (hlast : s.holds (s.cnt - 1) [last]) :
    checkFraming s = .ok (if ¬ framingFails s.cfg first last = true then none else
      some ⟨.framingMismatch, first.setWidth 32 <<< 8 ||| last.setWidth 32,
        s.cfg.sentinel.setWidth 32 <<< 8 ||| s.cfg.sentinel.setWidth 32⟩) := by
  simp only [checkFraming, readByte_of_holds hfirst, readByte_of_holds hlast, contextWord_bytePair, ite_not]
  split <;> rfl

/-! ### Checks 3 and 4: the two checksums -/

/-- Two checksums that are read are compared (42_validator.md R132, R133). -/
theorem compareChecksum_of_ok {computed stored : Except Fault Half} {c t : Half} (code : Code) (hc : computed = .ok c)
    (ht : stored = .ok t) : compareChecksum code computed stored =
      .ok (if c = t then none else some ⟨code, t.setWidth 32, c.setWidth 32⟩) := by
  subst hc ht
  simp only [compareChecksum, ne_eq, ite_not]
  split <;> rfl

/-- Check 3 on held header bytes (42_validator.md R132). -/
theorem checkHcs_of_holds {hdr : List Byte} {lo hi : Byte} (hlen : hdr.length = 5) (h : s.holds 1 (hdr ++ [lo, hi])) :
    checkHcs s = .ok (if crc16x25 hdr = le16 lo hi then none else
      some ⟨.headerChecksumMismatch, (le16 lo hi).setWidth 32, (crc16x25 hdr).setWidth 32⟩) := by
  obtain ⟨hhdr, hstored⟩ := holds_append h
  rw [hlen] at hstored
  exact compareChecksum_of_ok _ (crcOfRange_of_holds hhdr hlen) (readLe16_of_holds hstored)

/-- Check 4 on a held candidate of at least four bytes (42_validator.md R133). -/
theorem checkFcs_of_holds {body : List Byte} {lo hi : Byte} (hcnt : 4 ≤ s.cnt) (hlen : body.length = s.cnt - 4)
    (h : s.holds 1 (body ++ [lo, hi])) :
    checkFcs s = .ok (if crc16x25 body = le16 lo hi then none else
      some ⟨.frameChecksumMismatch, (le16 lo hi).setWidth 32, (crc16x25 body).setWidth 32⟩) := by
  obtain ⟨hbody, hstored⟩ := holds_append h
  rw [show 1 + body.length = s.cnt - 3 by omega] at hstored
  rw [checkFcs, if_neg (by omega)]
  exact compareChecksum_of_ok _ (crcOfRange_of_holds hbody (by omega)) (readLe16_of_holds hstored)

/-! ### Check 5: the payload tag -/

/-- The four bytes of a tag. -/
theorem tag_toList (tag : Bytes 4) : tag.toList = [tag[0], tag[1], tag[2], tag[3]] := by
  obtain ⟨⟨l⟩, hl⟩ := tag
  obtain ⟨a, b, c, d, rfl⟩ := List.length_eq_four.mp hl
  rfl

/-- Check 5 on held tag bytes (42_validator.md R134). -/
theorem checkTag_of_holds {b8 b9 b10 b11 : Byte} (h : s.holds 8 [b8, b9, b10, b11]) :
    checkTag s = .ok (if [b8, b9, b10, b11] = s.cfg.tag.toList then none else
      some ⟨.unexpectedPayloadTag, b8 ++ b9 ++ b10 ++ b11,
        s.cfg.tag[0] ++ s.cfg.tag[1] ++ s.cfg.tag[2] ++ s.cfg.tag[3]⟩) := by
  obtain ⟨r, hr, hl⟩ : ∃ r : Bytes 4, memRead s 8 4 = .ok r ∧ r.toList = [b8, b9, b10, b11] := memRead_of_holds h
  have htag := congrArg (fun bs => contextWord (bigEndian bs)) (tag_toList s.cfg.tag)
  simp only [checkTag, hr, hl, htag, contextWord_bigEndian, ne_eq, ite_not]
  split <;> rfl

end Checks

/-- Settles O30: the test of check 2 is the condition of each mode. -/
theorem framingCheckFollowsItsMode : Obligations.FramingCheckFollowsItsMode := by
  intro s first last hfirst hlast
  obtain ⟨hpass, hfail⟩ := exec_of_test (i := .valFraming) rfl (checkFraming_of_holds hfirst hlast)
  have answers := And.intro (fun h => hfail (not_not_intro h)) hpass
  cases hm : s.cfg.framing with
  | bothSentinel => rwa [framingFails_bothSentinel hm] at answers
  | leadingZero => rwa [framingFails_leadingZero hm] at answers
  | off => rwa [framingFails_off hm] at answers

/-- Settles O31: the header's checksum against the stored one. -/
theorem headerChecksumIsCompared : Obligations.HeaderChecksumIsCompared :=
  fun _ _ _ _ hlen hheld => exec_of_test rfl (checkHcs_of_holds hlen hheld)

/-- Settles O32: the body's checksum against the stored one. -/
theorem frameChecksumIsCompared : Obligations.FrameChecksumIsCompared :=
  fun _ _ _ _ hcnt hlen hheld => exec_of_test rfl (checkFcs_of_holds hcnt hlen hheld)

/-- Settles O33: the four held bytes against `CFG.TAG`. -/
theorem payloadTagIsCompared : Obligations.PayloadTagIsCompared :=
  fun _ _ _ _ _ hheld => exec_of_test rfl (checkTag_of_holds hheld)

/-! ### The sequence -/

/-- The six operations in their order, each with the check it runs (42_validator.md R136). -/
def validatorChecks : List (Instr × (State → Except Fault (Option Reject))) :=
  [(.valSize, checkSize), (.valFraming, checkFraming), (.valHcs, checkHcs), (.valFcs, checkFcs), (.valTag, checkTag),
    (.valLen, checkLen)]

/-- VAL.RUN answers the first failure of the listed checks. -/
theorem exec_valRun (s : State) : exec .valRun s = checking s (firstFailure (validatorChecks.map Prod.snd) s) := rfl

/-- A listed operation answers what its check does. -/
theorem exec_of_mem_validatorChecks {p : Instr × (State → Except Fault (Option Reject))} (h : p ∈ validatorChecks)
    (s : State) : exec p.1 s = checking s (p.2 s) := by
  simp only [validatorChecks, List.mem_cons, List.not_mem_nil, or_false] at h
  obtain rfl | rfl | rfl | rfl | rfl | rfl := h <;> rfl

theorem takeReject_ne_passed (j : Reject) (s : State) : s.takeReject j ≠ s.passed := fun h => by
  cases congrArg State.ret h

section Sequence
variable {s u : State} {ps : List (Instr × (State → Except Fault (Option Reject)))}

/-- A check passes exactly when its operation answers `passed`. -/
theorem checking_eq_passed_iff {r : Except Fault (Option Reject)} : checking s r = .next s.passed ↔ r = .ok none := by
  refine ⟨fun h => ?_, checking_pass⟩
  obtain ⟨hr, -⟩ | ⟨j, -, hj⟩ := checking_next h
  · exact hr
  · exact absurd hj.symm (takeReject_ne_passed j s)

/-- A check whose operation answers anything but `passed` has failed. -/
theorem reject_of_checking_ne_passed {r : Except Fault (Option Reject)} (h : checking s r = .next u)
    (hne : u ≠ s.passed) : ∃ j, r = .ok (some j) ∧ u = s.takeReject j :=
  (checking_next h).resolve_left fun hpass => hne hpass.2

/-- Listed operations that all pass have checks that all pass. -/
theorem checks_pass_of_exec (hps : ∀ p ∈ ps, p ∈ validatorChecks) (h : ∀ p ∈ ps, exec p.1 s = .next s.passed) :
    ∀ c ∈ ps.map Prod.snd, c s = .ok none := by
  intro c hc
  obtain ⟨p, hp, rfl⟩ := List.mem_map.mp hc
  exact checking_eq_passed_iff.mp ((exec_of_mem_validatorChecks (hps p hp) s).symm.trans (h p hp))

/-- A failure ends the sequence: the checks after it are not run (60_exceptions.md R233). -/
theorem firstFailure_cons_of_fails {c : State → Except Fault (Option Reject)} {j : Reject} (h : c s = .ok (some j))
    (cs : List (State → Except Fault (Option Reject))) : firstFailure (c :: cs) s = .ok (some j) := by
  rw [firstFailure, h]

end Sequence

/-- Settles O35: the checks before the failing one are stepped over, and its failure ends the sequence. -/
theorem validatorReportsTheFirstFailure : Obligations.ValidatorReportsTheFirstFailure := by
  intro s
  refine ⟨fun hall => ?accepted, fun pre post i u hsplit hpre hi hu => ?failed⟩
  case accepted =>
    rw [exec_valRun]
    exact checking_pass (firstFailure_none.mpr
      (checks_pass_of_exec (fun _ hp => hp) fun p hp => hall p.1 (List.mem_map_of_mem (f := Prod.fst) hp)))
  case failed =>
    obtain ⟨ps, qs, hlist, rfl, hqs⟩ := List.map_eq_append_iff (f := Prod.fst) (l := validatorChecks).mp hsplit
    obtain ⟨p, rest, rfl, rfl, rfl⟩ := List.map_eq_cons_iff.mp hqs
    have hmem : ∀ q ∈ ps ++ p :: rest, q ∈ validatorChecks := fun q hq => hlist ▸ hq
    rw [exec_of_mem_validatorChecks (hmem p (by simp))] at hi
    obtain ⟨j, hj, rfl⟩ := reject_of_checking_ne_passed hi hu
    have hpass := checks_pass_of_exec (s := s) (ps := ps) (fun q hq => hmem q (List.mem_append_left _ hq))
      fun q hq => hpre q.1 (List.mem_map_of_mem hq)
    refine ⟨?_, j.code, j.obs, j.exp, rfl⟩
    rw [exec_valRun, hlist, List.map_append, List.map_cons]
    exact checking_reject ((firstFailure_append hpass).trans (firstFailure_cons_of_fails hj _))

end Sys2Proof.Machine

/-! ## Family 43_extract: the values of the extraction primitives

Each reader has one equation on held bytes, with its value in the form the rules give: concatenated bytes, BCD nibbles, the
weekday of a raw byte, a timestamp in its coding. An operation returns what its reader answers (`returning_of_ok`). -/

namespace Sys2Proof.Machine

/-! ### Byte order -/

section ByteOrder
variable {s : State} {o : Nat} {a b c d : Byte}

/-- Two big-endian bytes are their concatenation (00_scope.md R10). -/
theorem ofNat_bigEndian_two (a b : Byte) : BitVec.ofNat 16 (bigEndian [a, b]) = a ++ b := by
  have hval : bigEndian [a, b] = (a ++ b).toNat := by
    simp only [toNat_append_byte, bigEndian, List.foldl_cons, List.foldl_nil, Nat.mul_zero, Nat.zero_add]
  rw [hval, BitVec.ofNat_toNat, BitVec.setWidth_eq]

/-- Four big-endian bytes are their concatenation (00_scope.md R10). -/
theorem ofNat_bigEndian_four (a b c d : Byte) : BitVec.ofNat 32 (bigEndian [a, b, c, d]) = a ++ b ++ c ++ d := by
  have hval : bigEndian [a, b, c, d] = (a ++ b ++ c ++ d).toNat := by
    simp only [toNat_append_byte, bigEndian, List.foldl_cons, List.foldl_nil, Nat.mul_zero, Nat.zero_add]
  rw [hval, BitVec.ofNat_toNat, BitVec.setWidth_eq]

/-- Two little-endian bytes are their concatenation, the second in front (00_scope.md R10). -/
theorem le16_eq_append (lo hi : Byte) : le16 lo hi = hi ++ lo := by
  rw [le16, Nat.add_comm, ← toNat_append_byte, BitVec.ofNat_toNat, BitVec.setWidth_eq]

theorem readBe16_eq_append (h : s.holds o [a, b]) : readBe16 s o = .ok (a ++ b) := by
  rw [readBe16_of_holds h, ofNat_bigEndian_two]

theorem readBe32_eq_append (h : s.holds o [a, b, c, d]) : readBe32 s o = .ok (a ++ b ++ c ++ d) := by
  rw [readBe32_of_holds h, ofNat_bigEndian_four]

theorem readLe16_eq_append (h : s.holds o [a, b]) : readLe16 s o = .ok (b ++ a) := by
  rw [readLe16_of_holds h, le16_eq_append]

end ByteOrder

/-- Settles O39: each integer reader answers the concatenation in its byte order. -/
theorem integersAreExtractedInTheirByteOrder : Obligations.IntegersAreExtractedInTheirByteOrder := fun _ _ =>
  ⟨fun _ h => returning_of_ok (readByte_of_holds h), fun _ _ h => returning_of_ok (readBe16_eq_append h),
    fun _ _ _ _ h => returning_of_ok (readBe32_eq_append h), fun _ _ h => returning_of_ok (readLe16_eq_append h)⟩

/-! ### BCD -/

/-- The quotient and remainder by 16 are the two nibbles (43_extract.md R164). -/
theorem bcdByte_eq_nibbles (x : Byte) :
    bcdByte x = 10 * (x.extractLsb' 4 4).toNat + (x.extractLsb' 0 4).toNat := by
  have hx := x.isLt
  have hhigh : (x.extractLsb' 4 4).toNat = x.toNat / 16 := by
    rw [BitVec.extractLsb'_toNat, Nat.shiftRight_eq_div_pow]; omega
  have hlow : (x.extractLsb' 0 4).toNat = x.toNat % 16 := by rw [BitVec.extractLsb'_toNat, Nat.shiftRight_zero]
  rw [hhigh, hlow, bcdByte]

/-- Settles O40: the model's BCD value is the nibble formula, for every byte. -/
theorem bcdIsExtractedByNibbles : Obligations.BcdIsExtractedByNibbles := by
  simp only [Obligations.BcdIsExtractedByNibbles, ← bcdByte_eq_nibbles]
  exact fun s => ⟨fun _ => returning_of_ok rfl, fun _ _ _ h => returning_of_ok (readBcd16_of_holds h)⟩

/-! ### Weekday -/

theorem weekdayFlags_of_weekday {x : Byte} (h : 1 ≤ x.toNat ∧ x.toNat ≤ 7) : weekdayFlags x = (true, x.setWidth 3) := by
  rw [weekdayFlags, if_pos h, BitVec.ofNat_toNat]

theorem weekdayFlags_of_not_weekday {x : Byte} (h : ¬ (1 ≤ x.toNat ∧ x.toNat ≤ 7)) : weekdayFlags x = (false, 0#3) :=
  if_neg h

/-- The presence bit and the weekday as one test of the raw byte (43_extract.md R166). -/
theorem weekdayFlags_eq_decide (x : Byte) : weekdayFlags x =
    (decide (1 ≤ x.toNat ∧ x.toNat ≤ 7), if decide (1 ≤ x.toNat ∧ x.toNat ≤ 7) then x.setWidth 3 else 0#3) := by
  by_cases h : 1 ≤ x.toNat ∧ x.toNat ≤ 7
  · rw [weekdayFlags_of_weekday h, decide_eq_true h, if_pos rfl]
  · rw [weekdayFlags_of_not_weekday h, decide_eq_false h, if_neg Bool.false_ne_true]

/-- Settles O41: the weekday byte is looked up raw, inside 1 to 7 and outside. -/
theorem weekdayByteIsLookedUp : Obligations.WeekdayByteIsLookedUp := by
  intro s x
  have hexec : exec (.extWday (.lit x)) s =
      .next { s with ret := .weekday (weekdayFlags x).1 (weekdayFlags x).2 } := returning_of_ok rfl
  refine ⟨fun hlo hhi => ?inside, fun hout => ?outside⟩
  case inside => rw [hexec, weekdayFlags_of_weekday ⟨hlo, hhi⟩]
  case outside => rw [hexec, weekdayFlags_of_not_weekday (by omega)]

/-! ### Texts and identifiers -/

/-- `MemRead` of held bytes whose number is given apart (20_memory.md R54). -/
theorem memRead_of_holds_length {s : State} {i n : Nat} {bs : List Byte} (hlen : bs.length = n) (h : s.holds i bs) :
    ∃ r : Bytes n, memRead s i n = .ok r ∧ r.toList = bs := by
  subst hlen
  exact memRead_of_holds h

/-- EXT.TEXT on held bytes (43_extract.md R168). -/
theorem exec_extText_of_holds {s : State} {o n : Nat} {bs : List Byte} (hlen : bs.length = n) (h : s.holds o bs) :
    exec (.extText o n) s = .next { s with ret := .bytes bs } := by
  obtain ⟨r, hr, rfl⟩ := memRead_of_holds_length hlen h
  exact returning_of_ok hr

/-- EXT.ID on the six held bytes before its offset (43_extract.md R169). -/
theorem exec_extId_of_holds {s : State} {o : Nat} {ident : Ident} (ho : 6 ≤ o) (h : s.holds (o - 6) ident.toList) :
    exec (.extId o) s = .next { s with ret := .bytes ident.toList } :=
  returning_of_ok (extractIdent_of_holds ho h)

/-- Settles O43: both readers answer the held bytes themselves. -/
theorem textsAndIdentifiersAreReadUnchanged : Obligations.TextsAndIdentifiersAreReadUnchanged := fun _ _ bs =>
  ⟨exec_extText_of_holds rfl, fun ho hlen h => exec_extId_of_holds (ident := ⟨bs.toArray, hlen⟩) (by omega) h⟩

/-! ### Timestamps -/

/-- The year two bytes give in a coding (43_extract.md R167). -/
def yearOfBytes (coding : TsCoding) (a b : Byte) : Half :=
  match coding with
  | .binary => a ++ b
  | .bcd => BitVec.ofNat 16 (100 * bcdByte a + bcdByte b)

/-- The one-byte component a byte gives in a coding (43_extract.md R167). -/
def componentOfByte (coding : TsCoding) (x : Byte) : Byte :=
  match coding with
  | .binary => x
  | .bcd => BitVec.ofNat 8 (bcdByte x)

section Timestamps
variable {s : State} {o : Nat}

theorem extractYear_of_holds {a b : Byte} (h : s.holds (o + s.cfg.tsSub.year) [a, b]) :
    extractYear s o = .ok (yearOfBytes s.cfg.tsCoding a b) := by
  unfold extractYear
  cases s.cfg.tsCoding with
  | binary => exact readBe16_eq_append h
  | bcd => exact readBcd16_of_holds h

theorem extractComponent_of_holds {x : Byte} (h : s.holds o [x]) :
    extractComponent s o = .ok (componentOfByte s.cfg.tsCoding x) := by
  rw [extractComponent, readByte_of_holds h]
  cases s.cfg.tsCoding <;> rfl

/-- A timestamp on the held bytes `TS_SUB` names, in either coding; the weekday byte is taken raw (43_extract.md R167). -/
theorem extractTimestamp_of_holds {y1 y2 mo da wd ho mi se : Byte} (hyear : s.holds (o + s.cfg.tsSub.year) [y1, y2])
    (hmonth : s.holds (o + s.cfg.tsSub.month) [mo]) (hday : s.holds (o + s.cfg.tsSub.day) [da])
    (hweekday : s.holds (o + s.cfg.tsSub.weekday) [wd]) (hhour : s.holds (o + s.cfg.tsSub.hour) [ho])
    (hminute : s.holds (o + s.cfg.tsSub.minute) [mi]) (hsecond : s.holds (o + s.cfg.tsSub.second) [se]) :
    extractTimestamp s o = .ok
      { year := yearOfBytes s.cfg.tsCoding y1 y2, month := componentOfByte s.cfg.tsCoding mo
        day := componentOfByte s.cfg.tsCoding da, hour := componentOfByte s.cfg.tsCoding ho
        minute := componentOfByte s.cfg.tsCoding mi, second := componentOfByte s.cfg.tsCoding se
        wdayP := (weekdayFlags wd).1, wday := (weekdayFlags wd).2 } := by
  rw [extractTimestamp, extractYear_of_holds hyear, extractComponent_of_holds hmonth, extractComponent_of_holds hday,
    extractComponent_of_holds hhour, extractComponent_of_holds hminute, extractComponent_of_holds hsecond,
    readByte_of_holds hweekday]
  rfl

end Timestamps

/-- Settles O44: one timestamp of the held bytes, whose components are read in the coding. -/
theorem timestampComponentsAreExtracted : Obligations.TimestampComponentsAreExtracted := by
  intro s o y1 y2 mo da wd ho mi se hyear hmonth hday hweekday hhour hminute hsecond present weekday binary coded
  have hts := extractTimestamp_of_holds hyear hmonth hday hweekday hhour hminute hsecond
  rw [weekdayFlags_eq_decide] at hts
  refine ⟨fun hcoding => ?binary, fun hcoding => ?bcd⟩
  all_goals
    rw [hcoding] at hts
    exact returning_of_ok hts

/-! ### Fields -/

section Fields
variable {s : State} {f : Field} {o : Nat} {ident : Ident}

theorem map_extractTagged_of_ok {α β : Type} {value : Except Fault α} {v : α} {g : Tagged α → β}
    (hi : extractIdent s o = .ok ident) (hv : value = .ok v) : (extractTagged s o value).map g = .ok (g ⟨ident, v⟩) := by
  rw [extractTagged_of_ok hi hv, Except.map]

theorem extractField_u32 {v : Word} (hk : f.kind = .u32) (hi : extractIdent s o = .ok ident)
    (hv : readBe32 s o = .ok v) : extractField s f o = .ok (.u32 ⟨ident, v⟩) := by
  rw [extractField, hk]
  exact map_extractTagged_of_ok hi hv

theorem extractField_u16 {v : Half} (hk : f.kind = .u16) (hi : extractIdent s o = .ok ident)
    (hv : readBe16 s o = .ok v) : extractField s f o = .ok (.u16 ⟨ident, v⟩) := by
  rw [extractField, hk]
  exact map_extractTagged_of_ok hi hv

theorem extractField_text {n : Nat} {r : Bytes n} (hk : f.kind = .text n) (hi : extractIdent s o = .ok ident)
    (hv : memRead s o n = .ok r) : extractField s f o = .ok (.text ident r.toList) := by
  rw [extractField, hk]
  exact map_extractTagged_of_ok hi hv

theorem extractField_timestamp {ts : Timestamp} (hk : f.kind = .timestamp) (hi : extractIdent s o = .ok ident)
    (hv : extractTimestamp s o = .ok ts) : extractField s f o = .ok (.timestamp ⟨ident, ts⟩) := by
  rw [extractField, hk]
  exact map_extractTagged_of_ok hi hv

end Fields

/-- Settles O45: the kind of a field is its reader, and the identifier is read before every value. -/
theorem fieldsCarryTheirIdentifier : Obligations.FieldsCarryTheirIdentifier := by
  intro s o ident ho hident
  have hi : extractIdent s o = .ok ident := extractIdent_of_holds (by omega) hident
  refine ⟨fun f hf a b c d h => ?u32, fun f hf a b h => ?u16, fun p hp bs hlen h => ?text, fun f hf h => ?timestamp⟩
  case u32 =>
    have hk : f.kind = .u32 := by revert f; decide
    exact returning_of_ok (extractField_u32 hk hi (readBe32_eq_append h))
  case u16 =>
    have hk : f.kind = .u16 := by revert f; decide
    exact returning_of_ok (extractField_u16 hk hi (readBe16_eq_append h))
  case text =>
    have hk : p.1.kind = .text p.2 := by clear hlen; revert p; decide
    obtain ⟨r, hr, rfl⟩ := memRead_of_holds_length hlen h
    exact returning_of_ok (extractField_text hk hi hr)
  case timestamp =>
    have hk : f.kind = .timestamp := by revert f; decide
    obtain ⟨ts, hts⟩ := extractTimestamp_ok h
    exact ⟨ts, returning_of_ok hts, returning_of_ok (extractField_timestamp hk hi hts)⟩

end Sys2Proof.Machine

/-! ## Family 44_decoder: the layout, the blocks of fields and the decode sequence

The laws of the decoder say what each block leaves in a Reading, in terms of `Layout.place`. Here the lists of fields that the
statements write out are tied to the blocks (`ListsBlock`), and the parts of the sequence are said once each: the kind of a
discriminant, the fit of a layout, the answer of `decodeFrame`. -/

namespace Sys2Proof

/-! ### Kinds, codes and blocks -/

section Kinds
variable {k : LayoutKind}

theorem three_iff : k.three = true ↔ k = .shortThreePhase ∨ k = .longThreePhase := by cases k <;> decide

theorem not_three_iff : k.three = false ↔ k = .shortSinglePhase ∨ k = .longSinglePhase := by cases k <;> decide

theorem long_iff : k.long = true ↔ k = .longSinglePhase ∨ k = .longThreePhase := by cases k <;> decide

theorem not_long_iff : k.long = false ↔ k = .shortSinglePhase ∨ k = .shortThreePhase := by cases k <;> decide

/-- Bit 1 of `RD.KIND` (10_state.md R35). -/
theorem getLsbD_one_bits (k : LayoutKind) : k.bits.getLsbD 1 = k.three := by cases k <;> rfl

/-- Bit 0 of `RD.KIND` (10_state.md R35). -/
theorem getLsbD_zero_bits (k : LayoutKind) : k.bits.getLsbD 0 = k.long := by cases k <;> rfl

end Kinds

/-- Settles O8: the blocks are the model's equations, with THREE and LONG by membership. -/
theorem blocksFollowEachOther : Obligations.BlocksFollowEachOther := by
  intro c k three long
  refine ⟨?phaseEnd, rfl, rfl, ?extent⟩
  case phaseEnd => simp only [Config.phaseEnd, three_iff, three]
  case extent => simp only [Config.extent, long_iff, long]

/-- A long block starts right after the phase block of its own kind (44_decoder.md R201). -/
theorem longStart_of_long {c : Config} {k : LayoutKind} (h : k.long = true) :
    c.longStart k = c.layout.ph1End + (if k = .longThreePhase then c.layout.ph23Len else 0) + 1 := by
  obtain rfl | rfl := long_iff.mp h <;> rfl

/-- The discriminant code of a kind, as a number (30_encoding.md R78). -/
def LayoutKind.code : LayoutKind → Nat
  | .shortSinglePhase => 17
  | .longSinglePhase => 27
  | .shortThreePhase => 25
  | .longThreePhase => 35

theorem kindOfDisc_of_code {d : Byte} {k : LayoutKind} (h : d.toNat = k.code) : kindOfDisc d = some k := by
  obtain rfl : d = BitVec.ofNat 8 k.code := by rw [← h, BitVec.ofNat_toNat, BitVec.setWidth_eq]
  cases k <;> rfl

theorem kindOfDisc_of_no_code {d : Byte} (h17 : d.toNat ≠ 17) (h27 : d.toNat ≠ 27) (h25 : d.toNat ≠ 25)
    (h35 : d.toNat ≠ 35) : kindOfDisc d = none := by
  rw [kindOfDisc_eq_none]
  simp [isDiscCode, ← BitVec.toNat_inj, h17, h27, h25, h35]

/-- `fields` lists the fields of a block and no others. -/
def ListsBlock (l : Layout) (b : Block) (fields : List Field) : Prop := ∀ f, f ∈ fields ↔ (l.place f).1 = b

theorem listsBlock_common (l : Layout) : ListsBlock l .common
    [.capTs, .listVersion, .meterSerial, .meterType, .pImp, .pExp, .qImp, .qExp, .currentL1, .voltageL1] := by
  intro f; cases f <;> simp [Layout.place]

theorem listsBlock_three (l : Layout) : ListsBlock l .three [.currentL2, .voltageL2, .currentL3, .voltageL3] := by
  intro f; cases f <;> simp [Layout.place]

theorem listsBlock_long (l : Layout) : ListsBlock l .long [.meterTs, .eaImp, .eaExp, .erImp, .erExp] := by
  intro f; cases f <;> simp [Layout.place]

/-- A single-phase kind has no phase-2/3 field (44_decoder.md R193). -/
theorem off_eq_none_of_three {c : Config} {k : LayoutKind} {f : Field} (hk : k.three = false)
    (hf : (c.layout.place f).1 = .three) : c.off k f = none := by
  have := off_isSome c k f
  rwa [hf, hk, Option.isSome_eq_false_iff, Option.isNone_iff_eq_none] at this

/-- A short kind has no long field (44_decoder.md R193). -/
theorem off_eq_none_of_long {c : Config} {k : LayoutKind} {f : Field} (hk : k.long = false)
    (hf : (c.layout.place f).1 = .long) : c.off k f = none := by
  have := off_isSome c k f
  rwa [hf, hk, Option.isSome_eq_false_iff, Option.isNone_iff_eq_none] at this

end Sys2Proof

namespace Sys2Proof.Machine

/-! ### The discriminant -/

section Disc
variable {s : State} {d : Byte}

theorem exec_decDisc_of_code (k : LayoutKind) (h : s.holds s.cfg.discOff [d]) (hk : d.toNat = k.code) :
    exec .decDisc s = .next { s with ret := .kind k } := by
  simp only [exec, execDecDisc, readByte_of_holds h, kindOfDisc_of_code hk]

theorem exec_decDisc_of_none (h : s.holds s.cfg.discOff [d]) (hk : kindOfDisc d = none) :
    exec .decDisc s = .next (s.rejectedAs .unknownLayout (d.setWidth 32) 0x111B1923#32) := by
  simp only [exec, execDecDisc, readByte_of_holds h, hk]
  rfl

end Disc

/-- Settles O47: each code selects its kind, and a byte that is no code selects none. -/
theorem discriminantSelectsTheLayout : Obligations.DiscriminantSelectsTheLayout := fun _ _ h =>
  ⟨exec_decDisc_of_code .shortSinglePhase h, exec_decDisc_of_code .longSinglePhase h,
    exec_decDisc_of_code .shortThreePhase h, exec_decDisc_of_code .longThreePhase h,
    fun h17 h27 h25 h35 => exec_decDisc_of_none h (kindOfDisc_of_no_code h17 h27 h25 h35)⟩

/-! ### The fit -/

/-- DEC.FIT as one test. A layout that exceeds the frame has both context words below 2^32, since the extent of a legal
configuration is at most 298 (44_decoder.md R198). -/
theorem checkFit_eq {s : State} (hl : s.cfg.legal = true) (hn : 4 ≤ s.cnt) (k : LayoutKind) :
    checkFit k s = if s.cfg.extent k ≤ s.cnt - 4 then none else
      some ⟨.layoutExceedsFrame, BitVec.ofNat 32 (s.cfg.extent k), BitVec.ofNat 32 (s.cnt - 4)⟩ := by
  have hext := legal_extent hl k
  unfold checkFit
  by_cases h : s.cfg.extent k ≤ s.cnt - 4
  · rw [if_pos h, if_neg (by omega)]
  · rw [if_neg h, if_pos (by omega), ← Nat.cast_ofNat (n := 4), ← Nat.cast_sub hn, contextWord_of_lt (by omega),
      contextWord_of_lt (by omega)]

/-- The shortest layout ends at PH1_END, which every frame of at least 180 bytes has (44_decoder.md R194, W2). -/
theorem extent_shortSinglePhase_le {c : Config} (hl : c.legal = true) : c.extent .shortSinglePhase ≤ 176 :=
  legal_ph1End hl

/-- Settles O49: the two answers of the test, and the bound of the shortest layout. -/
theorem layoutMustFitTheFrame : Obligations.LayoutMustFitTheFrame := by
  intro s k hl hn
  obtain ⟨hfits, hexceeds⟩ := exec_of_test (i := .decFit k) rfl (congrArg Except.ok (checkFit_eq hl hn k))
  refine ⟨hfits, fun h => hexceeds (by omega), fun hmin hk => hfits ?_⟩
  subst hk
  have := extent_shortSinglePhase_le hl
  omega

/-! ### The blocks of fields -/

section Blocks
variable {s : State} {b : Block} {start : Nat} {rd rd' : Reading} {fields : List (Field × Nat)}

/-- The listed fields of a decoded block are what EXT.FIELD returns at their offsets; the others are kept. -/
theorem fields_of_blockDecoded (hlists : ListsBlock s.cfg.layout b (fields.map Prod.fst))
    (hoff : ∀ p ∈ fields, p.2 = start + (s.cfg.layout.place p.1).2) (h : BlockDecoded s b start rd rd') :
    (∀ p ∈ fields, ∃ v, exec (.extField p.1 p.2) s = .next { s with ret := .field v } ∧ rd'.field? p.1 = some v) ∧
    ∀ f, f ∉ fields.map Prod.fst → rd'.field? f = rd.field? f := by
  obtain ⟨-, hfield⟩ := h
  refine ⟨fun p hp => ?listed, fun f hf => (hfield f).2 fun hb => hf ((hlists f).mpr hb)⟩
  case listed =>
    obtain ⟨v, hv, hrd⟩ := (hfield p.1).1 ((hlists p.1).mp (List.mem_map_of_mem hp))
    rw [← hoff p hp] at hv
    exact ⟨v, returning_of_ok hv, hrd⟩

/-- The listed fields of a block the kind does not have are `none`; the others are kept. -/
theorem fields_of_blockAbsent (hlists : ListsBlock s.cfg.layout b (fields.map Prod.fst))
    (h : ∀ f, rd'.field? f = if (s.cfg.layout.place f).1 = b then none else rd.field? f) :
    (∀ p ∈ fields, rd'.field? p.1 = none) ∧ ∀ f, f ∉ fields.map Prod.fst → rd'.field? f = rd.field? f :=
  ⟨fun p hp => by rw [h, if_pos ((hlists p.1).mp (List.mem_map_of_mem hp))],
    fun f hf => by rw [h, if_neg fun hb => hf ((hlists f).mpr hb)]⟩

/-- A block that a kind has or not, by its flag: decoded where it has it, `none` where it has not, and nothing else is
written (44_decoder.md R200, R201). -/
theorem fields_of_optionalBlock {flag : Bool} (hlists : ListsBlock s.cfg.layout b (fields.map Prod.fst))
    (hoff : flag = true → ∀ p ∈ fields, p.2 = start + (s.cfg.layout.place p.1).2)
    (hpresent : flag = true → BlockDecoded s b start rd rd')
    (habsent : flag = false → rd'.kind = rd.kind ∧
      ∀ f, rd'.field? f = if (s.cfg.layout.place f).1 = b then none else rd.field? f) :
    rd'.kind = rd.kind ∧
    (flag = true → ∀ p ∈ fields,
      ∃ v, exec (.extField p.1 p.2) s = .next { s with ret := .field v } ∧ rd'.field? p.1 = some v) ∧
    (flag = false → ∀ p ∈ fields, rd'.field? p.1 = none) ∧
    ∀ f, f ∉ fields.map Prod.fst → rd'.field? f = rd.field? f := by
  cases flag with
  | true =>
    obtain ⟨hlisted, hkept⟩ := fields_of_blockDecoded hlists (hoff rfl) (hpresent rfl)
    exact ⟨(hpresent rfl).1, fun _ => hlisted, nofun, hkept⟩
  | false =>
    obtain ⟨hkind, hfield⟩ := habsent rfl
    obtain ⟨hnone, hkept⟩ := fields_of_blockAbsent hlists hfield
    exact ⟨hkind, nofun, fun _ => hnone, hkept⟩

end Blocks

/-- Settles O50: the common block is decoded for every kind alike. -/
theorem commonFieldsAreDecodedAtTheirOffsets : Obligations.CommonFieldsAreDecodedAtTheirOffsets := by
  intro s k hl h off fields
  obtain ⟨rd, hdec, hblock, hthree, hlong⟩ := decodeCommon_ok hl h s.rd
  obtain ⟨hlisted, hkept⟩ := fields_of_blockDecoded (fields := fields) (listsBlock_common _)
    (by simp [fields, off, Layout.place]) hblock
  exact ⟨rd, writingRd_of_ok hdec, hblock.1, hthree, hlong, hlisted, hkept⟩

/-- Settles O51: the phase-2/3 block is present by THREE. -/
theorem phaseFieldsAreDecodedForThreePhaseKinds : Obligations.PhaseFieldsAreDecodedForThreePhaseKinds := by
  intro s k hl h start rel fields
  obtain ⟨rd, hdec, hthree, hlong, hpresent, habsent⟩ := decodeThree_ok hl h s.rd
  obtain ⟨hkind, hlisted, hnone, hkept⟩ := fields_of_optionalBlock (fields := fields) (listsBlock_three _)
    (fun _ => by simp [fields, start, rel, Layout.place, Config.ph23Start]) hpresent habsent
  simp only [← three_iff, ← not_three_iff]
  exact ⟨rd, writingRd_of_ok hdec, hkind, hlong, fun hk => ⟨hthree.trans hk, hlisted hk⟩,
    fun hk => ⟨hthree.trans hk, hnone hk⟩, hkept⟩

/-- Settles O52: the long block is present by LONG, right after the phase block of its kind. -/
theorem longFieldsAreDecodedAfterThePhaseBlock : Obligations.LongFieldsAreDecodedAfterThePhaseBlock := by
  intro s k hl h start rel fields
  obtain ⟨rd, hdec, hlong, hthree, hpresent, habsent⟩ := decodeLong_ok hl h s.rd
  obtain ⟨hkind, hlisted, hnone, hkept⟩ := fields_of_optionalBlock (fields := fields) (listsBlock_long _)
    (fun hk => by simp [fields, start, rel, Layout.place, longStart_of_long hk]) hpresent habsent
  simp only [← long_iff, ← not_long_iff]
  exact ⟨rd, writingRd_of_ok hdec, hkind, hthree, fun hk => ⟨hlong.trans hk, hlisted hk⟩,
    fun hk => ⟨hlong.trans hk, hnone hk⟩, hkept⟩

/-! ### The decode sequence -/

section Sequence
variable {s : State} {d : Byte} {k : LayoutKind} {j : Reject} {rd : Reading}

theorem exec_decRun_of_reject (h : decodeFrame s = .ok (.error j)) : exec .decRun s = .next (s.takeReject j) := by
  simp only [exec, execDecRun, h]

theorem exec_decRun_of_reading (h : decodeFrame s = .ok (.ok rd)) : exec .decRun s = .next (s.takeReading rd) := by
  simp only [exec, execDecRun, h]

theorem decodeFrame_of_unknown (hd : readByte s s.cfg.discOff = .ok d) (hk : kindOfDisc d = none) :
    decodeFrame s = .ok (.error (unknownLayout d)) := by
  simp only [decodeFrame, hd, hk]

theorem decodeFrame_of_exceeds (hd : readByte s s.cfg.discOff = .ok d) (hk : kindOfDisc d = some k)
    (hfit : checkFit k s = some j) : decodeFrame s = .ok (.error j) := by
  simp only [decodeFrame, hd, hk, hfit]

theorem decodeFrame_of_fits (hd : readByte s s.cfg.discOff = .ok d) (hk : kindOfDisc d = some k)
    (hfit : checkFit k s = none) (hrd : decodeBlocks k s = .ok rd) : decodeFrame s = .ok (.ok rd) := by
  simp only [decodeFrame, hd, hk, hfit, hrd, Except.map]

end Sequence

/-- Settles O53: the sequence stops at an unknown discriminant or a layout that does not fit; else it answers the blocks. -/
theorem decodeRunFollowsItsSequence : Obligations.DecodeRunFollowsItsSequence := by
  intro s d hl hstored hn hget
  have hd : readByte s s.cfg.discOff = .ok d := readByte_of_get? (by have := legal_discOff hl; omega) hget
  refine ⟨fun h17 h27 h25 h35 => ?unknown, fun k hcode => ?known⟩
  case unknown => exact exec_decRun_of_reject (decodeFrame_of_unknown hd (kindOfDisc_of_no_code h17 h27 h25 h35))
  case known =>
    have hk : kindOfDisc d = some k := kindOfDisc_of_code <| by
      obtain ⟨h, rfl⟩ | ⟨h, rfl⟩ | ⟨h, rfl⟩ | ⟨h, rfl⟩ := hcode <;> exact h
    have hfit := checkFit_eq hl (by omega) k
    refine ⟨fun hexceeds => ?exceeds, fun hfits => ?fits⟩
    case exceeds =>
      rw [if_neg (by omega)] at hfit
      exact exec_decRun_of_reject (decodeFrame_of_exceeds hd hk hfit)
    case fits =>
      rw [if_pos hfits] at hfit
      obtain ⟨rd, hrd, hkind, hthree, hlong, hfields⟩ :=
        decodeBlocks_ok hl (readable_of_stored hstored (i := 1) (n := s.cfg.extent k) (by omega))
      have hnone : ∀ f, s.cfg.off k f = none → rd.field? f = none := fun f hoff => by
        have hf := hfields f; rwa [hoff] at hf
      have hvalue : ∀ f o, s.cfg.off k f = some o → ∃ v, extractField s f o = .ok v ∧ rd.field? f = some v :=
        fun f o hoff => by have hf := hfields f; rwa [hoff] at hf
      refine ⟨rd, exec_decRun_of_reading (decodeFrame_of_fits hd hk hfit hrd), hkind,
        by rw [hkind, getLsbD_one_bits, hthree], by rw [hkind, getLsbD_zero_bits, hlong],
        fun h f hf => hnone f (off_eq_none_of_three (hthree ▸ h) ((listsBlock_three _ f).mp hf)),
        fun h f hf => hnone f (off_eq_none_of_long (hlong ▸ h) ((listsBlock_long _ f).mp hf)),
        fun f => ⟨hnone f, fun o hoff => ?_⟩⟩
      obtain ⟨v, hv, hrdf⟩ := hvalue f o hoff
      exact ⟨v, returning_of_ok hv, hrdf⟩

end Sys2Proof.Machine

/-! ## Family 60_exceptions: failures, and that none of them stops the engine

A close answers on every filled buffer, and no other input event can fail, so every input event is answered. A failed
candidate is processed to `takeReject` of its failure, whichever of VAL.RUN and DEC.RUN reports it. -/

namespace Sys2Proof.Machine

/-! ### Every input event is answered -/

section Answers
variable {s : State}

/-- The operation a byte selects answers: the two appends always, the close on a filled buffer (30_encoding.md R72). -/
theorem exec_byteEvent_answers (hl : s.cfg.legal = true) (hf : s.bufferFilled) (v : Byte) :
    ∃ t, exec (decodeByteEvent s.cfg.sentinel s.cnt v) s = .next t := by
  by_cases hv : v = s.cfg.sentinel
  · obtain hc | hc := Nat.eq_zero_or_pos s.cnt
    · exact ⟨s.append v, by rw [decodeByteEvent_open hv hc]; rfl⟩
    · obtain ⟨u, -, hclose⟩ := execAsmClose_of_filled v hl hf
      exact ⟨u.finishCandidate, by rw [decodeByteEvent_close hv hc]; exact hclose⟩
  · exact ⟨s.append v, by rw [decodeByteEvent_of_ne hv]; rfl⟩

/-- An input event selects an operation, and that operation answers (30_encoding.md R72). -/
theorem exec_inputEvent_answers (hl : s.cfg.legal = true) (hf : s.bufferFilled) {e : Stimulus} (he : e.isInput = true) :
    ∃ i, decodeStimulus s.cfg.sentinel s.cnt e = .ok i ∧ ∃ t, exec i s = .next t := by
  cases e with
  | byte v => exact ⟨_, rfl, exec_byteEvent_answers hl hf v⟩
  | empty => exact ⟨.asmEmpty, rfl, s, rfl⟩
  | reset => exact ⟨.reset, rfl, _, rfl⟩
  | direct word => cases he

/-- Where only input events are pending, the event a step takes is one: the first of them, or an empty read. -/
theorem fetch_isInput (hin : ∀ e ∈ s.inq, e.isInput = true) : (fetch s).1.isInput = true := by
  cases hq : s.inq with
  | nil => rw [fetch_nil hq]; rfl
  | cons e rest => rw [fetch_cons hq]; exact hin e (by simp [hq])

/-- A legal configuration, a filled buffer and input events alone are all a step needs to answer. -/
theorem step_answers (hl : s.cfg.legal = true) (hf : s.bufferFilled) (hin : ∀ e ∈ s.inq, e.isInput = true) :
    ∃ t, step s = .next t := by
  obtain ⟨i, hi, t, ht⟩ :=
    exec_inputEvent_answers (s := { s with inq := s.inq.tail }) hl hf (fetch_isInput hin)
  exact ⟨t, by rw [step_of_decode hl hi, fetch_frame, ht]⟩

end Answers

/-- Settles O4: the invariant's configuration, buffer and pending input are what a step needs to answer. -/
theorem engineNeverStopsOnAnyInput : Obligations.EngineNeverStopsOnAnyInput := fun _ hinv =>
  step_answers hinv.legal hinv.filled hinv.input

/-! ### What a failed candidate leaves -/

/-- An absent Reading has no field (10_state.md R36). -/
@[simp] theorem field?_absent (kind : BitVec 2) (f : Field) : (Reading.absent kind).field? f = none := by
  cases f <;> rfl

/-- A candidate whose processing returns a failure is left as that failure leaves it (60_exceptions.md R234). -/
theorem processCandidate_eq_takeReject {s u : State} {j : Reject} (h : processCandidate s = .ok u)
    (hj : u.ret = .reject j) : u = s.takeReject j ∧ j.code ≠ .ok := by
  obtain ⟨i, hcode, rfl⟩ | ⟨rd, -, -, rfl⟩ := processCandidate_cases h
  · obtain rfl : i = j := Ret.reject.inj hj
    exact ⟨rfl, hcode⟩
  · cases hj

/-- Settles O21: whichever run reports the failure, the close finishes the candidate in the state that failure leaves. -/
theorem failedCandidateLeavesOnlyItsRecord : Obligations.FailedCandidateLeavesOnlyItsRecord := by
  intro s a u v j ha hreport
  obtain rfl : s.append v = a := Host.Outcome.next.inj ha
  have hprocessed : processCandidate (s.append v) = .ok u ∧ u.ret = .reject j := by
    obtain ⟨hval, hj⟩ | ⟨p, hval, hpass, hdec, hj⟩ := hreport
    · exact ⟨processCandidate_of_valRun hval hj, hj⟩
    · exact ⟨processCandidate_of_decRun hval hpass hdec, hj⟩
  obtain ⟨hu, hj⟩ := hprocessed
  obtain ⟨rfl, hcode⟩ := processCandidate_eq_takeReject hu hj
  exact ⟨_, execAsmClose_of_processed hu, rfl, hcode, field?_absent _, rfl, rfl, rfl, rfl, rfl, rfl, rfl, rfl⟩

end Sys2Proof.Machine

/-! ## Family 70_reset_and_hazards: the reset input

A RESET is a power-on under the same configuration that keeps the pending input, so R260 and R44 speak of one state. -/

namespace Sys2Proof.Machine

/-- A RESET powers the engine on under its configuration and keeps the pending input (70_reset_and_hazards.md R260). -/
theorem exec_reset (s : State) :
    exec .reset s = .next { State.powerOn s.cfg with inq := s.inq, draws := s.draws } := rfl

/-- `RD` at power-on is absent, so no field holds a value (10_state.md R44). -/
@[simp] theorem powerOn_field? (c : Config) (f : Field) : (State.powerOn c).rd.field? f = none :=
  field?_absent _ f

/-- Settles O1: what a RESET leaves is the power-on state, whose registers are those of R44. -/
theorem resetInputRestoresResetValues : Obligations.ResetInputRestoresResetValues := by
  refine ⟨fun s => ?operation, fun s rest hl hq => ?step, fun c => ?powerOn⟩
  case operation =>
    exact ⟨_, exec_reset s, rfl, rfl, powerOn_field? s.cfg, rfl, rfl, rfl, rfl, rfl, rfl, rfl⟩
  case step => exact step_cons hl hq rfl
  case powerOn => exact ⟨rfl, rfl, rfl, powerOn_field? c, rfl, rfl, rfl, rfl, rfl⟩

end Sys2Proof.Machine

/-! ## Family other: the engine invariant

`State.Inv` at a reset, after an append and after a close is one lemma each. A step takes its event, which leaves the
invariant, and an input event selects one of those three or an empty read. -/

namespace Sys2Proof.Machine

/-! ### The frame buffer -/

/-- What ASM.CLOSE answers holds an empty buffer (10_state.md R30). -/
theorem execAsmClose_buf {v : Byte} {s t : State} (h : execAsmClose v s = .next t) : t.buf = [] := by
  obtain ⟨u, -, rfl⟩ := execAsmClose_next h
  rfl

/-- Settles O5: an append keeps the form, a close and a reset leave no entry, and nothing else writes `BUF`. -/
theorem everyOperationKeepsBufferCanonical : Obligations.EveryOperationKeepsBufferCanonical := by
  intro i s t hs h
  obtain ⟨v, rfl⟩ | ⟨v, hclose⟩ | hreset | hsame := exec_next_cases h
  · exact wf_append s v hs
  · rw [execAsmClose_buf hclose]; rfl
  · cases hreset; rfl
  · rw [hsame.buf]; exact hs

/-- Settles O20: both operations leave the empty buffer, which has no entry. -/
theorem closedBufferHoldsNoValue : Obligations.ClosedBufferHoldsNoValue := by
  intro s t v h a
  obtain hclose | hreset := h
  · rw [execAsmClose_buf hclose]; rfl
  · cases hreset; rfl

/-- An empty buffer and `CNT = 0` fill each other (10_state.md R32). -/
theorem bufferFilled_of_empty {s : State} (hb : s.buf = []) (hc : s.cnt = 0) : s.bufferFilled := by
  intro i
  simp [hb, hc, Memory.get?]

/-! ### Records -/

/-- The Reading of an accepted stored candidate is complete (10_state.md R35, R36, R38). -/
theorem complete_of_decodeFrame {s : State} {rd : Reading} (hl : s.cfg.legal = true) (hs : s.candidateStored)
    (hn : 180 ≤ s.cnt) (h : decodeFrame s = .ok (.ok rd)) : rd.complete s.cfg := by
  obtain ⟨d, -, ⟨-, hd⟩ | ⟨k, -, ⟨j, -, hd⟩ | ⟨hfit, rd', hb, hd⟩⟩⟩ := decodeFrame_cases hl hs hn
  · rw [hd] at h; cases h
  · rw [hd] at h; cases h
  · obtain rfl : rd' = rd := by rw [hd] at h; cases h; rfl
    obtain ⟨rd, hrd, hkind, hthree, hlong, hfields⟩ :=
      decodeBlocks_ok hl (k := k) (readable_of_stored hs (i := 1) (by omega))
    obtain rfl : rd' = rd := Except.ok.inj (hb.symm.trans hrd)
    refine ⟨k, hkind, hthree, hlong, fun f => ?_⟩
    have hf := hfields f
    cases hoff : s.cfg.off k f with
    | none => rw [hoff] at hf; rw [hf]; rfl
    | some o =>
      rw [hoff] at hf
      obtain ⟨v, -, hv⟩ := hf
      rw [hv]; rfl

/-- Processing a candidate of a filled buffer leaves a record in the form of R73. -/
theorem record_wf_of_processCandidate {s u : State} (hl : s.cfg.legal = true) (hf : s.bufferFilled)
    (h : processCandidate s = .ok u) : u.record.wf s.cfg := by
  obtain ⟨j, hj, rfl⟩ | ⟨rd, hv, hd, rfl⟩ := processCandidate_cases h
  · exact ⟨nofun, fun _ => ⟨hj, _, rfl⟩⟩
  · have hn := cnt_of_accepted hv
    have hcap := legal_bufCap hl
    exact ⟨fun _ => ⟨rfl, rfl, rfl, complete_of_decodeFrame hl (stored_of_filled hf (by omega)) hn.1 hd⟩, nofun⟩

/-! ### The invariant -/

/-- The state after a power-on or a RESET meets the invariant, whatever input is pending. -/
theorem inv_powerOn {c : Config} {q : List Stimulus} (hl : c.legal = true) (hq : ∀ e ∈ q, e.isInput = true) (n : Nat) :
    State.Inv { State.powerOn c with inq := q, draws := n } where
  legal := hl
  canonical := rfl
  filled := bufferFilled_of_empty rfl rfl
  bounded := Nat.zero_le _
  records := List.forall_mem_nil _
  latest := rfl
  untouched := fun _ => ⟨rfl, _, rfl⟩
  input := hq
  idle := rfl

theorem legal_ref : Config.ref.legal = true := by decide

/-- Settles O2: `State.reset` is the power-on with REF, which is legal. -/
theorem powerOnSatisfiesTheEngineInvariant : Obligations.PowerOnSatisfiesTheEngineInvariant :=
  ⟨inv_powerOn legal_ref (List.forall_mem_nil _) 0, fun _ hl => inv_powerOn hl (List.forall_mem_nil _) 0⟩

section Inv
variable {s t : State}

/-- Taking the next input event keeps the invariant. -/
theorem inv_tail (h : s.Inv) : State.Inv { s with inq := s.inq.tail } :=
  { h with input := fun e he => h.input e (List.mem_of_mem_tail he) }

/-- An append keeps the invariant: it writes `BUF` and `CNT` alone, and both stay in step. -/
theorem inv_append (h : s.Inv) (v : Byte) : (s.append v).Inv :=
  { h with
    canonical := wf_append s v h.canonical
    filled := bufferFilled_append v h.filled
    bounded := bounded_append v h.bounded }

/-- A close keeps the invariant: the record it emits is well-formed and is the latest. -/
theorem inv_close (h : s.Inv) {v : Byte} (hclose : execAsmClose v s = .next t) : t.Inv := by
  obtain ⟨u, hu, rfl⟩ := execAsmClose_next hclose
  have hrec := record_wf_of_processCandidate (s := s.append v) h.legal (bufferFilled_append v h.filled) hu
  obtain ⟨⟨hcfg, -, -⟩, hout, hinq⟩ := sameButResult_of_processCandidate hu
  have hvalid := processCandidate_res_valid hu
  simp only [append_cfg, append_out, append_inq] at hrec hcfg hout hinq
  exact
    { legal := by rw [finishCandidate_cfg, hcfg]; exact h.legal
      canonical := rfl
      filled := bufferFilled_of_empty rfl rfl
      bounded := Nat.zero_le _
      records := by
        intro r hr
        rw [finishCandidate_out, hout, List.mem_append, List.mem_singleton] at hr
        rw [finishCandidate_cfg, hcfg]
        obtain hr | rfl := hr
        · exact h.records r hr
        · exact hrec
      latest := by
        rw [finishCandidate_out, List.getLast?_concat, finishCandidate_res, if_pos hvalid]
        rfl
      untouched := fun hn => absurd (hvalid.symm.trans hn) Bool.noConfusion
      input := by rw [finishCandidate_inq, hinq]; exact h.input
      idle := rfl }

/-- The operation a byte selects keeps the invariant (30_encoding.md R72). -/
theorem inv_byteEvent (h : s.Inv) {v : Byte} (hx : exec (decodeByteEvent s.cfg.sentinel s.cnt v) s = .next t) :
    t.Inv := by
  by_cases hv : v = s.cfg.sentinel
  · obtain hc | hc := Nat.eq_zero_or_pos s.cnt
    · rw [decodeByteEvent_open hv hc] at hx; cases hx; exact inv_append h v
    · rw [decodeByteEvent_close hv hc] at hx; exact inv_close h hx
  · rw [decodeByteEvent_of_ne hv] at hx; cases hx; exact inv_append h v

/-- The operation an input event selects keeps the invariant. -/
theorem inv_inputEvent (h : s.Inv) {e : Stimulus} (he : e.isInput = true) {i : Instr}
    (hi : decodeStimulus s.cfg.sentinel s.cnt e = .ok i) (hx : exec i s = .next t) : t.Inv := by
  cases e with
  | byte v => cases hi; exact inv_byteEvent h hx
  | empty => cases hi; cases hx; exact h
  | reset => cases hi; rw [exec_reset] at hx; cases hx; exact inv_powerOn h.legal h.input s.draws
  | direct word => cases he

end Inv

/-- Settles O3: the step takes an input event, and the operation it selects keeps the invariant. -/
theorem everyStepKeepsTheEngineInvariant : Obligations.EveryStepKeepsTheEngineInvariant := by
  intro s t h hstep
  obtain ⟨-, i, hi, hx⟩ := step_next hstep
  rw [fetch_frame] at hx
  exact inv_inputEvent (inv_tail h) (fetch_isInput h.input) hi hx

end Sys2Proof.Machine

/-! ## Family other: operation words

Each operand reader undoes the operand bytes, and whatever bytes it takes, its operand meets the bounds of `Instr.wf`; an
operation word is a row number and such operands. -/

namespace Sys2Proof

/-! ### Operands that are encoded are read back -/

section Encoded
variable {o : Nat} (rest : List Byte)

theorem withOffset_offsetBytes (mk : Nat → Instr) (h : offsetFits o = true) :
    withOffset mk (offsetBytes o ++ rest) = .ok (mk o, rest) := by
  rw [withOffset, takeOffset_offsetBytes h, Except.map]

theorem withByteOperand_bytes {x : ByteOperand} (mk : ByteOperand → Instr) (h : x.wf = true) :
    withByteOperand mk (byteOperandBytes x ++ rest) = .ok (mk x, rest) := by
  rw [withByteOperand, takeByteOperand_bytes h, Except.map]

theorem withKind_kindNumber (mk : LayoutKind → Instr) (k : LayoutKind) :
    withKind mk (kindNumber k :: rest) = .ok (mk k, rest) := by
  rw [withKind, takeKind_kindNumber, Except.map]

theorem takeCrc_offsetBytes {lo hi : Nat} (h : (Instr.crcX25 lo hi).wf = true) :
    takeCrc (offsetBytes lo ++ (offsetBytes hi ++ rest)) = .ok (.crcX25 lo hi, rest) := by
  simp only [Instr.wf, Bool.and_eq_true, decide_eq_true_eq] at h
  obtain ⟨⟨hstart, hlo⟩, hhi⟩ := h
  simp only [takeCrc, takeOffset_offsetBytes hlo, takeOffset_offsetBytes hhi, if_pos hstart]

theorem takeText_offsetBytes {n : Nat} (h : (Instr.extText o n).wf = true) :
    takeText (offsetBytes o ++ BitVec.ofNat 8 n :: rest) = .ok (.extText o n, rest) := by
  simp only [Instr.wf, Bool.and_eq_true, Bool.or_eq_true, beq_iff_eq] at h
  obtain ⟨ho, (rfl | rfl) | rfl⟩ := h <;> simp [takeText, takeOffset_offsetBytes ho, takeByte]

theorem takeIdent_offsetBytes (h : (Instr.extId o).wf = true) :
    takeIdent (offsetBytes o ++ rest) = .ok (.extId o, rest) := by
  simp only [Instr.wf, Bool.and_eq_true, decide_eq_true_eq] at h
  simp only [takeIdent, takeOffset_offsetBytes h.1, if_pos h.2]

theorem takeFieldAt_offsetBytes {f : Field} (h : (Instr.extField f o).wf = true) :
    takeFieldAt (fieldNumber f :: (offsetBytes o ++ rest)) = .ok (.extField f o, rest) := by
  simp only [Instr.wf, Bool.and_eq_true, decide_eq_true_eq] at h
  simp only [takeFieldAt, takeField_fieldNumber, takeOffset_offsetBytes h.1, if_pos h.2]

theorem takeUnknown_cons {d : Byte} (h : (Instr.discUnknown d).wf = true) :
    takeUnknown (d :: rest) = .ok (.discUnknown d, rest) := by
  have hd : kindOfDisc d = none := (kindOfDisc_eq_none d).mpr (by simpa [Instr.wf] using h)
  simp only [takeUnknown, takeByte, if_pos hd]

theorem takeAbsent_cons {x : Byte} (h : (Instr.wdayAbsent x).wf = true) :
    takeAbsent (x :: rest) = .ok (.wdayAbsent x, rest) := by
  have hx : ¬ isWdayCode x = true := by simpa [Instr.wf] using h
  simp only [takeAbsent, takeByte, if_neg hx]

end Encoded

/-- Settles O54: a word is its row number and its operands, and the row's reader undoes the operands. -/
theorem decodingUndoesEncoding : Obligations.DecodingUndoesEncoding := by
  intro i rest h
  cases i with
  | extU8 | extBe16 | extBe32 | extLe16 | extBcd16 | extTs => exact withOffset_offsetBytes rest _ h
  | extBcd8 | extWday => exact withByteOperand_bytes rest _ h
  | decFit | decCommon | decThree | decLong => exact withKind_kindNumber rest _ _
  | crcX25 => exact takeCrc_offsetBytes rest h
  | extText => exact takeText_offsetBytes rest h
  | extId => exact takeIdent_offsetBytes rest h
  | extField => exact takeFieldAt_offsetBytes rest h
  | discUnknown => exact takeUnknown_cons rest h
  | wdayAbsent => exact takeAbsent_cons rest h
  | asmByte | asmOpen | asmClose | asmEmpty | reset | valSize | valFraming | valHcs | valFcs | valTag | valLen | valRun
  | decDisc | decRun | discShortSinglePhase | discLongSinglePhase | discShortThreePhase | discLongThreePhase
  | wdayMonday | wdayTuesday | wdayWednesday | wdayThursday | wdayFriday | wdaySaturday | wdaySunday => rfl

/-! ### Operands that are read are well-formed -/

section Read
variable {bs rest : List Byte} {i : Instr}

/-- Four bytes are below 2^32 (log entry 9). -/
theorem offsetFits_of_takeOffset {o : Nat} (h : takeOffset bs = .ok (o, rest)) : offsetFits o = true := by
  unfold takeOffset at h
  split at h
  · next a b c d _ =>
    cases h
    have := a.isLt; have := b.isLt; have := c.isLt; have := d.isLt
    simp only [offsetFits, decide_eq_true_eq]
    omega
  · cases h

/-- A mapped result is a result, mapped. -/
theorem ok_of_map_ok {ε α β : Type} {f : α → β} {r : Except ε α} {b : β} (h : r.map f = .ok b) :
    ∃ a, r = .ok a ∧ b = f a := by
  cases r with
  | error e => cases h
  | ok a => cases h; exact ⟨a, rfl, rfl⟩

theorem withByte_eq_ok {mk : Byte → Instr} (h : withByte mk bs = .ok (i, rest)) : ∃ x, i = mk x := by
  obtain ⟨p, -, hp⟩ := ok_of_map_ok h
  cases hp
  exact ⟨_, rfl⟩

theorem withKind_eq_ok {mk : LayoutKind → Instr} (h : withKind mk bs = .ok (i, rest)) : ∃ k, i = mk k := by
  obtain ⟨p, -, hp⟩ := ok_of_map_ok h
  cases hp
  exact ⟨_, rfl⟩

theorem withOffset_eq_ok {mk : Nat → Instr} (h : withOffset mk bs = .ok (i, rest)) :
    ∃ o, offsetFits o = true ∧ i = mk o := by
  obtain ⟨p, hp, hi⟩ := ok_of_map_ok h
  cases hi
  exact ⟨_, offsetFits_of_takeOffset hp, rfl⟩

theorem wf_of_takeByteOperand {x : ByteOperand} (h : takeByteOperand bs = .ok (x, rest)) : x.wf = true := by
  unfold takeByteOperand at h
  repeat' split at h
  · cases h
  · obtain ⟨p, -, hx⟩ := ok_of_map_ok h
    cases hx; rfl
  · obtain ⟨p, hp, hx⟩ := ok_of_map_ok h
    cases hx; exact offsetFits_of_takeOffset hp
  · cases h

theorem withByteOperand_eq_ok {mk : ByteOperand → Instr} (h : withByteOperand mk bs = .ok (i, rest)) :
    ∃ x : ByteOperand, x.wf = true ∧ i = mk x := by
  obtain ⟨p, hp, hi⟩ := ok_of_map_ok h
  cases hi
  exact ⟨_, wf_of_takeByteOperand hp, rfl⟩

theorem wf_of_takeCrc (h : takeCrc bs = .ok (i, rest)) : i.wf = true := by
  unfold takeCrc at h
  split at h
  · cases h
  · next hlo =>
    split at h
    · cases h
    · next hhi =>
      split at h
      · next hstart =>
        cases h
        simp [Instr.wf, hstart, offsetFits_of_takeOffset hlo, offsetFits_of_takeOffset hhi]
      · cases h

theorem wf_of_takeText (h : takeText bs = .ok (i, rest)) : i.wf = true := by
  unfold takeText at h
  split at h
  · cases h
  · next ho =>
    split at h
    · cases h
    · split at h
      · next hn =>
        cases h
        obtain rfl | rfl | rfl := hn <;> simp [Instr.wf, offsetFits_of_takeOffset ho]
      · cases h

theorem wf_of_takeIdent (h : takeIdent bs = .ok (i, rest)) : i.wf = true := by
  unfold takeIdent at h
  split at h
  · cases h
  · next ho =>
    split at h
    · next h7 => cases h; simp [Instr.wf, h7, offsetFits_of_takeOffset ho]
    · cases h

theorem wf_of_takeFieldAt (h : takeFieldAt bs = .ok (i, rest)) : i.wf = true := by
  unfold takeFieldAt at h
  split at h
  · cases h
  · split at h
    · cases h
    · next ho =>
      split at h
      · next h7 => cases h; simp [Instr.wf, h7, offsetFits_of_takeOffset ho]
      · cases h

theorem wf_of_takeUnknown (h : takeUnknown bs = .ok (i, rest)) : i.wf = true := by
  unfold takeUnknown at h
  split at h
  · cases h
  · split at h
    · next hd => cases h; simp [Instr.wf, (kindOfDisc_eq_none _).mp hd]
    · cases h

theorem wf_of_takeAbsent (h : takeAbsent bs = .ok (i, rest)) : i.wf = true := by
  unfold takeAbsent at h
  split at h
  · cases h
  · split at h
    · cases h
    · next hx => cases h; simp [Instr.wf, hx]

/-- A row's operation is well-formed, whatever its operand bytes. -/
theorem wf_of_decodeRow {op : Byte} (h : decodeRow op bs = .ok (i, rest)) : i.wf = true := by
  unfold decodeRow at h
  split at h
  case h_1 | h_2 | h_3 => obtain ⟨x, rfl⟩ := withByte_eq_ok h; rfl
  case h_6 => exact wf_of_takeCrc h
  case h_14 | h_15 | h_16 | h_17 | h_19 | h_21 => obtain ⟨o, ho, rfl⟩ := withOffset_eq_ok h; exact ho
  case h_18 | h_20 => obtain ⟨x, hx, rfl⟩ := withByteOperand_eq_ok h; exact hx
  case h_22 => exact wf_of_takeText h
  case h_23 => exact wf_of_takeIdent h
  case h_24 => exact wf_of_takeFieldAt h
  case h_26 | h_27 | h_28 | h_29 => obtain ⟨k, rfl⟩ := withKind_eq_ok h; rfl
  case h_31 => exact wf_of_takeUnknown h
  case h_32 => exact wf_of_takeAbsent h
  all_goals cases h
  all_goals rfl

/-- The row a weekday byte selects is well-formed: only 1 to 7 are weekdays (30_encoding.md R81). -/
theorem decodeWday_wf (x : Byte) : (decodeWday x).wf = true := by
  revert x; decide

theorem wf_of_decodeWord (h : decodeWord bs = .ok (i, rest)) : i.wf = true := by
  unfold decodeWord at h
  split at h
  · cases h
  · split at h
    · split at h
      · cases h
      · exact wf_of_decodeRow h
    · split at h
      · cases h; exact decodeDisc_wf _
      · split at h
        · cases h; exact decodeWday_wf _
        · cases h

theorem wf_of_decodeWholeWord (h : decodeWholeWord bs = .ok i) : i.wf = true := by
  unfold decodeWholeWord at h
  split at h
  · cases h
  · next hw =>
    split at h
    · cases h; exact wf_of_decodeWord hw
    · cases h

theorem decodeByteEvent_wf (sentinel : Byte) (cnt : Nat) (v : Byte) : (decodeByteEvent sentinel cnt v).wf = true := by
  unfold decodeByteEvent
  repeat' split
  all_goals rfl

end Read

/-- Settles O55: a word's operation is a row's or a table code's, and an input event has no operand to bound. -/
theorem decoderAnswersOnlyWellFormedOperations : Obligations.DecoderAnswersOnlyWellFormedOperations := by
  refine ⟨fun _ _ _ => wf_of_decodeWord, fun sentinel cnt e i h => ?_⟩
  cases e with
  | byte v => cases h; exact decodeByteEvent_wf sentinel cnt v
  | empty | reset => cases h; rfl
  | direct word => exact wf_of_decodeWholeWord h

/-- A whole operation word is the operation it encodes. -/
theorem decodeWholeWord_encode {i : Instr} (h : i.wf = true) : decodeWholeWord (encode i) = .ok i := by
  have hw := decodingUndoesEncoding i [] h
  rw [List.append_nil] at hw
  simp only [decodeWholeWord, hw, List.all_nil, if_true]

end Sys2Proof

namespace Sys2Proof.Machine

/-- Settles O13: the fetch is the head and the tail of the pending input, and an encoded operation decodes to itself. -/
theorem stepExecutesTheDecodedOperation : Obligations.StepExecutesTheDecodedOperation := by
  refine ⟨fun s i => step_of_decode, fun s => ⟨?event, fetch_frame s⟩, fun s hl hq => ?empty, fun s i rest hl hi hq => ?port⟩
  case event => rw [fetch_event, List.headD_eq_head?_getD]
  case empty => rw [step_of_decode (i := .asmEmpty) hl (by rw [fetch_nil hq]; rfl), fetch_nil hq]; rfl
  case port => exact step_cons hl hq (decodeWholeWord_encode hi)

/-- Settles O56: the two tables' exact bytes are their rows; the other lone bytes are input bytes under REF. -/
theorem tableWordsDecodeToTheirRows : Obligations.TableWordsDecodeToTheirRows := by
  unfold Obligations.TableWordsDecodeToTheirRows
  decide

/-- Settles O57: the codes are numbered in the order of R230, the kinds in that of R35. -/
theorem codesAndKindsHaveTheirNumbers : Obligations.CodesAndKindsHaveTheirNumbers := by
  refine ⟨by decide, fun c => ?_, rfl⟩
  cases c <;> decide

end Sys2Proof.Machine

/-! ## Family other: the checksum

A register whose low byte is 0 shifts that byte out (`crcShift8_shiftLeft`), so a register followed by its own complement
comes to one constant. Eight shifts are linear and keep registers apart, so a changed byte stays visible. -/

namespace Sys2Proof.Machine

/-! ### The residue -/

/-- One shift of a byte above bit 0 moves it one place down: the polynomial is not taken. -/
theorem crcBit_shiftLeft_succ (x : Byte) {k : Nat} (hk : k < 8) :
    crcBit (x.setWidth 16 <<< (k + 1)) = x.setWidth 16 <<< k := by
  have hlow : (x.setWidth 16 <<< (k + 1)).getLsbD 0 = false := by simp
  rw [crcBit, hlow, if_neg Bool.false_ne_true]
  ext i hi
  have hwidth : x.getLsbD (i - k) = true → i - k < 8 := BitVec.lt_of_getLsbD
  grind

/-- Eight shifts move a high byte to the low place. -/
theorem crcShift8_shiftLeft (x : Byte) : crcShift8 (x.setWidth 16 <<< 8) = x.setWidth 16 := by
  unfold crcShift8
  iterate 8 rw [crcBit_shiftLeft_succ x (by decide)]
  rw [BitVec.shiftLeft_zero]

/-- A register without its low byte is its high byte. -/
theorem xor_lowByte (c : Half) :
    c ^^^ (c.extractLsb' 0 8).setWidth 16 = (c.extractLsb' 8 8).setWidth 16 <<< 8 := by
  ext i hi
  grind

/-- The complement of a register, low byte first, leaves the same residue in every register (41_crc.md R124). -/
theorem crcRegister_complement (c : Half) :
    crcRegister (c ^^^ 0xFFFF#16) [c.extractLsb' 0 8, c.extractLsb' 8 8] = 0xF0B8#16 := by
  have hlow : crcByte (c ^^^ 0xFFFF#16) (c.extractLsb' 0 8) = (c.extractLsb' 8 8).setWidth 16 ^^^ crcShift8 0xFFFF#16 := by
    rw [crcByte, BitVec.xor_assoc, BitVec.xor_comm 0xFFFF#16, ← BitVec.xor_assoc, BitVec.zeroExtend, xor_lowByte,
      crcShift8_xor, crcShift8_shiftLeft]
  calc crcRegister (c ^^^ 0xFFFF#16) [c.extractLsb' 0 8, c.extractLsb' 8 8]
    _ = crcByte (crcByte (c ^^^ 0xFFFF#16) (c.extractLsb' 0 8)) (c.extractLsb' 8 8) := rfl
    _ = crcShift8 (crcShift8 0xFFFF#16) := by
      rw [hlow, crcByte, BitVec.zeroExtend, BitVec.xor_comm, ← BitVec.xor_assoc, BitVec.xor_self, BitVec.zero_xor]
    _ = 0xF0B8#16 := by simp [crcShift8, crcBit, crcPoly]

/-- Settles O27: the register over the bytes is the complement of their checksum. -/
theorem checksumResidueIsConstant : Obligations.ChecksumResidueIsConstant := by
  intro bs
  have hreg : crcRegister 0xFFFF#16 bs = crc16x25 bs ^^^ 0xFFFF#16 := by
    rw [crc16x25, BitVec.xor_assoc, BitVec.xor_self, BitVec.xor_zero]
  rw [crcRegister_append, hreg, crcRegister_complement]

/-! ### A changed byte -/

theorem crcShift8_injective : Function.Injective crcShift8 := fun a b h =>
  BitVec.xor_eq_zero_iff.mp (crcShift8_eq_zero (by rw [crcShift8_xor, h, BitVec.xor_self]))

/-- Different bytes leave a register in different states. -/
theorem crcByte_byte_injective (c : Half) : Function.Injective (crcByte c) := fun x y h => by
  have hxor : x.setWidth 16 = y.setWidth 16 := BitVec.xor_right_inj c |>.mp (crcShift8_injective h)
  simpa using congrArg (·.setWidth 8) hxor

/-- The bytes that follow keep different registers different. -/
theorem crcRegister_injective (bs : List Byte) : Function.Injective fun c => crcRegister c bs := by
  induction bs with
  | nil => exact fun _ _ h => h
  | cons x bs ih => exact fun _ _ h => crcByte_injective (ih h)

/-- Settles O28: the two registers differ after the changed byte, and so after the bytes that follow. -/
theorem checksumDetectsOneChangedByte : Obligations.ChecksumDetectsOneChangedByte := by
  intro as bs x y hne h
  have hreg : crcRegister 0xFFFF#16 (as ++ x :: bs) = crcRegister 0xFFFF#16 (as ++ y :: bs) :=
    BitVec.xor_left_inj _ |>.mp h
  rw [crcRegister_append, crcRegister_append] at hreg
  exact hne (crcByte_byte_injective _ (crcRegister_injective bs hreg))

/-- Settles O58: CRC.X25 looks at no bound, only at what is held and at whether the range is empty. -/
theorem checksumRangeMayPassItsBounds : Obligations.ChecksumRangeMayPassItsBounds := fun _ _ _ _ =>
  ⟨fun _ => exec_crcX25_of_holds, exec_crcX25_of_lt⟩

end Sys2Proof.Machine

/-! ## Family other: the checks on a candidate's bytes

`accepted_iff` says what VAL.RUN accepts, in the candidate's bytes as a function of their index; a failing check after
passing ones gives its code. One changed byte breaks a stored checksum exactly where it is one of the bytes it covers or is
stored in. -/

namespace Sys2Proof.Machine

/-! ### The length -/

/-- VAL.SIZE as its one test (42_validator.md R130). -/
theorem exec_valSize (s : State) : exec .valSize s = .next (if s.cnt < 180 ∨ 302 < s.cnt then
    s.rejectedAs .sizeOutOfRange (contextWord s.cnt) 0x00B4012E#32 else s.passed) := by
  rw [exec, execValSize, checkSize_eq]
  split
  · simp only [checking, takeReject_eq]
  · rfl

/-- Settles O29: check 1 is one test, and the observed word is the length's context word. -/
theorem sizeCheckBoundsTheLength : Obligations.SizeCheckBoundsTheLength := fun s =>
  ⟨contextWord s.cnt, contextWord_of_lt, exec_valSize s⟩

/-- The 12-bit length field as a number (30_encoding.md R76). -/
theorem toNat_lengthField (b1 b2 : Byte) :
    (((b1 &&& 0x0F#8).setWidth 12 <<< 8) ||| b2.setWidth 12).toNat = 256 * (b1.toNat % 16) + b2.toNat := by
  have hlow : (b1 &&& 0x0F#8).toNat = b1.toNat % 16 := Nat.and_two_pow_sub_one_eq_mod b1.toNat 4
  have hshift : ((b1 &&& 0x0F#8).setWidth 12 <<< 8).toNat = (b1.toNat % 16) <<< 8 := by
    rw [BitVec.toNat_shiftLeft, BitVec.toNat_setWidth_of_le (by decide), hlow, Nat.shiftLeft_eq]
    omega
  rw [BitVec.toNat_or, hshift, BitVec.toNat_setWidth_of_le (by decide), ← Nat.shiftLeft_add_eq_or_of_lt b2.isLt,
    Nat.shiftLeft_eq, Nat.mul_comm]

/-- Check 6 on held length bytes (42_validator.md R135). -/
theorem checkLen_of_holds {s : State} {b1 b2 : Byte} (h : s.holds 1 [b1, b2]) :
    checkLen s = .ok (if declaredLength b1 b2 = s.cnt then none else
      some ⟨.lengthFieldMismatch, contextWord (declaredLength b1 b2), contextWord s.cnt⟩) := by
  obtain ⟨h1, h2⟩ := holds_cons h
  simp only [checkLen, readByte_of_holds h1, readByte_of_holds h2, ne_eq, ite_not]
  split <;> rfl

/-- Settles O34: the declared length of the held bytes against the length. -/
theorem declaredLengthIsCompared : Obligations.DeclaredLengthIsCompared := by
  intro s b1 b2 hheld decl
  obtain ⟨hpass, hfail⟩ := exec_of_test (i := .valLen) rfl (checkLen_of_holds hheld)
  have hdecl : declaredLength b1 b2 = decl := congrArg (· + 2) (toNat_lengthField b1 b2).symm
  have hobs : contextWord decl = BitVec.ofNat 32 decl := contextWord_of_lt (by omega)
  simp only [hdecl, hobs] at hpass hfail
  exact ⟨hpass, fun h => ⟨contextWord s.cnt, contextWord_of_lt, hfail h⟩⟩

/-! ### VAL.RUN answers -/

/-- On a wrong length VAL.RUN is check 1's failure, whatever `BUF` holds (42_validator.md R137). -/
theorem exec_valRun_of_size {s : State} (h : s.cnt < 180 ∨ 302 < s.cnt) :
    exec .valRun s = .next (s.rejectedAs .sizeOutOfRange (contextWord s.cnt) 0x00B4012E#32) := by
  rw [exec, execValRun, validate_size h]
  simp only [checking, takeReject_eq]

theorem bits_of_validate {s : State} {j : Reject} (h : validate s = .ok (some j)) :
    1 ≤ j.code.bits.toNat ∧ j.code.bits.toNat ≤ 6 := by
  obtain h | h | h | h | h | h := validate_code h <;> rw [h] <;> decide

/-- Settles O36: the validator answers on a filled buffer, and on a wrong length with check 1's failure. -/
theorem validatorAnswersOnEveryCandidate : Obligations.ValidatorAnswersOnEveryCandidate := by
  refine ⟨fun s hl hf => ?answers, fun s hn => ?size⟩
  case answers =>
    obtain ⟨r, hr⟩ := validate_ok hl hf
    cases r with
    | none => exact ⟨_, checking_pass hr, .inl rfl⟩
    | some j =>
      obtain ⟨hlo, hhi⟩ := bits_of_validate hr
      exact ⟨_, checking_reject hr, .inr ⟨j.code, j.obs, j.exp, hlo, hhi, takeReject_eq j s⟩⟩
  case size =>
    have hsize := exec_valSize s
    rw [if_pos hn] at hsize
    exact ⟨_, hsize, rfl, exec_valRun_of_size hn⟩

/-! ### The candidate's bytes -/

/-- The candidate's bytes are `b 0, b 1, …`, all of them held (20_memory.md R51). -/
def State.hasBytes (s : State) (b : Nat → Byte) : Prop := ∀ i, i < s.cnt → s.buf.get? i = some (b i)

/-- The checksum of the `n` bytes from `lo` on is stored right behind them (42_validator.md R132, R133). -/
def ChecksumStored (b : Nat → Byte) (lo n : Nat) : Prop :=
  crc16x25 ((List.range' lo n).map b) = le16 (b (lo + n)) (b (lo + n + 1))

/-- What the six checks ask of a candidate of `n` bytes (42_validator.md R138). -/
structure Accepted (c : Config) (n : Nat) (b : Nat → Byte) : Prop where
  size : 180 ≤ n ∧ n ≤ 302
  framing : ¬ framingFails c (b 0) (b (n - 1)) = true
  header : ChecksumStored b 1 5
  frame : ChecksumStored b 1 (n - 4)
  tag : [b 8, b 9, b 10, b 11] = c.tag.toList
  length : declaredLength (b 1) (b 2) = n

/-- An answer that is one test is no failure exactly where the test holds. -/
theorem eq_none_iff_of_test {r : Except Fault (Option Reject)} {p : Prop} {_ : Decidable p} {j : Reject}
    (h : r = .ok (if p then none else some j)) : r = .ok none ↔ p := by
  subst h
  by_cases hp : p
  · simp [hp]
  · simp [hp]

section Candidate
variable {s : State} {b : Nat → Byte} (hb : s.hasBytes b)
include hb

theorem stored_of_hasBytes : s.candidateStored := fun i hi => by rw [hb i hi]; rfl

theorem holds_of_hasBytes {i n : Nat} (hn : i + n ≤ s.cnt) : s.holds i ((List.range' i n).map b) := by
  refine ⟨by simpa using hn, fun k hk => ?_⟩
  have hk : k < n := by simpa using hk
  rw [hb (i + k) (by omega)]
  simp [hk]

/-- A run of bytes and the two behind it, as a checksum check reads them. -/
theorem holds_checksum_of_hasBytes {lo n : Nat} (hn : lo + n + 2 ≤ s.cnt) :
    s.holds lo ((List.range' lo n).map b ++ [b (lo + n), b (lo + n + 1)]) := by
  have := holds_of_hasBytes hb (i := lo) (n := n + 2) hn
  rwa [← List.range'_append_1, List.map_append] at this

theorem checkFraming_eq_none_iff (hn : 1 ≤ s.cnt) :
    checkFraming s = .ok none ↔ ¬ framingFails s.cfg (b 0) (b (s.cnt - 1)) = true :=
  eq_none_iff_of_test (checkFraming_of_holds (holds_of_hasBytes hb (i := 0) (n := 1) (by omega))
    (holds_of_hasBytes hb (i := s.cnt - 1) (n := 1) (by omega)))

theorem checkHcs_eq_none_iff (hn : 8 ≤ s.cnt) : checkHcs s = .ok none ↔ ChecksumStored b 1 5 :=
  eq_none_iff_of_test (checkHcs_of_holds (by simp) (holds_checksum_of_hasBytes hb hn))

theorem checkFcs_eq_none_iff (hn : 4 ≤ s.cnt) : checkFcs s = .ok none ↔ ChecksumStored b 1 (s.cnt - 4) :=
  eq_none_iff_of_test (checkFcs_of_holds hn (by simp) (holds_checksum_of_hasBytes hb (by omega)))

theorem checkTag_eq_none_iff (hn : 12 ≤ s.cnt) :
    checkTag s = .ok none ↔ [b 8, b 9, b 10, b 11] = s.cfg.tag.toList :=
  eq_none_iff_of_test (checkTag_of_holds (holds_of_hasBytes hb (i := 8) (n := 4) hn))

theorem checkLen_eq_none_iff (hn : 3 ≤ s.cnt) : checkLen s = .ok none ↔ declaredLength (b 1) (b 2) = s.cnt :=
  eq_none_iff_of_test (checkLen_of_holds (holds_of_hasBytes hb (i := 1) (n := 2) hn))

/-- VAL.RUN accepts exactly the candidates that meet all six checks. -/
theorem accepted_iff : validate s = .ok none ↔ Accepted s.cfg s.cnt b := by
  have hsize : checkSize s = .ok none ↔ 180 ≤ s.cnt ∧ s.cnt ≤ 302 := by
    rw [checkSize_eq]
    split <;> simp <;> omega
  rw [validate, firstFailure_none]
  simp only [List.forall_mem_cons, List.not_mem_nil, false_implies, implies_true, and_true]
  constructor
  · rintro ⟨h1, h2, h3, h4, h5, h6⟩
    have hn := hsize.mp h1
    exact ⟨hn, (checkFraming_eq_none_iff hb (by omega)).mp h2, (checkHcs_eq_none_iff hb (by omega)).mp h3,
      (checkFcs_eq_none_iff hb (by omega)).mp h4, (checkTag_eq_none_iff hb (by omega)).mp h5,
      (checkLen_eq_none_iff hb (by omega)).mp h6⟩
  · rintro ⟨hn, h2, h3, h4, h5, h6⟩
    exact ⟨hsize.mpr hn, (checkFraming_eq_none_iff hb (by omega)).mpr h2, (checkHcs_eq_none_iff hb (by omega)).mpr h3,
      (checkFcs_eq_none_iff hb (by omega)).mpr h4, (checkTag_eq_none_iff hb (by omega)).mpr h5,
      (checkLen_eq_none_iff hb (by omega)).mpr h6⟩

end Candidate

/-- Settles O37: acceptance is the six checks; each mode's condition is the negation of its failure. -/
theorem acceptedCandidateMeetsEveryCheck : Obligations.AcceptedCandidateMeetsEveryCheck := by
  intro s b hb hrun
  obtain ⟨hn, hframing, hheader, hframe, htag, hlen⟩ := (accepted_iff hb).mp (checking_eq_passed_iff.mp hrun)
  refine ⟨hn.1, hn.2, fun hm => ?both, fun hm => ?zero, hheader, ?frame, htag, hlen⟩
  case both => rw [framingFails_bothSentinel hm] at hframing; tauto
  case zero => rw [framingFails_leadingZero hm] at hframing; tauto
  case frame =>
    rw [ChecksumStored, show 1 + (s.cnt - 4) = s.cnt - 3 by omega, show s.cnt - 3 + 1 = s.cnt - 2 by omega] at hframe
    exact hframe

/-! ### One changed byte -/

section Changed
variable {b : Nat → Byte} {lo n j : Nat} {x : Byte}

/-- A run of bytes without the changed one. -/
theorem map_range'_update_outside (hj : j < lo ∨ lo + n ≤ j) :
    (List.range' lo n).map (Function.update b j x) = (List.range' lo n).map b :=
  List.map_congr_left fun i hi => Function.update_of_ne (by rw [List.mem_range'_1] at hi; omega) _ _

/-- A byte outside the covered and the storing bytes does not matter. -/
theorem checksumStored_update_outside (hj : j < lo ∨ lo + n + 1 < j) :
    ChecksumStored (Function.update b j x) lo n ↔ ChecksumStored b lo n := by
  rw [ChecksumStored, map_range'_update_outside (by omega), Function.update_of_ne (by omega), Function.update_of_ne (by omega), ChecksumStored]

/-- A run of bytes, cut at one of them. -/
theorem map_range'_update (h1 : lo ≤ j) (h2 : j < lo + n) :
    (List.range' lo n).map (Function.update b j x) =
      (List.range' lo (j - lo)).map b ++ x :: (List.range' (j + 1) (lo + n - j - 1)).map b := by
  obtain ⟨k, rfl⟩ : ∃ k, j = lo + k := ⟨j - lo, by omega⟩
  obtain ⟨m, rfl⟩ : ∃ m, n = k + (m + 1) := ⟨n - k - 1, by omega⟩
  have hcut : List.range' lo (k + (m + 1)) = List.range' lo k ++ (lo + k) :: List.range' (lo + k + 1) m := by
    rw [← List.range'_append_1, List.range'_succ]
  rw [hcut, List.map_append, List.map_cons, map_range'_update_outside (by omega), map_range'_update_outside (by omega),
    Function.update_self, Nat.add_sub_cancel_left, show lo + (k + (m + 1)) - (lo + k) - 1 = m by omega]

theorem le16_inj {a b c d : Byte} (h : le16 a b = le16 c d) : a = c ∧ b = d := by
  have hval := congrArg BitVec.toNat h
  rw [le16_eq_append, le16_eq_append, toNat_append_byte, toNat_append_byte] at hval
  have := a.isLt
  have := c.isLt
  exact ⟨BitVec.eq_of_toNat_eq (by omega), BitVec.eq_of_toNat_eq (by omega)⟩

/-- A changed byte among the covered and the storing bytes is noticed (41_crc.md R125). -/
theorem not_checksumStored_update (h : ChecksumStored b lo n) (hx : x ≠ b j) (h1 : lo ≤ j) (h2 : j ≤ lo + n + 1) :
    ¬ ChecksumStored (Function.update b j x) lo n := by
  intro hnew
  unfold ChecksumStored at h hnew
  by_cases hj : j < lo + n
  · have hold := map_range'_update (b := b) (x := b j) h1 hj
    rw [Function.update_eq_self] at hold
    rw [map_range'_update h1 hj, Function.update_of_ne (by omega), Function.update_of_ne (by omega), ← h, hold] at hnew
    exact checksumDetectsOneChangedByte _ _ x (b j) hx hnew
  · rw [map_range'_update_outside (by omega), h] at hnew
    obtain ⟨hlow, hhigh⟩ := le16_inj hnew
    obtain rfl | rfl : j = lo + n ∨ j = lo + n + 1 := by omega
    · rw [Function.update_self] at hlow; exact hx hlow.symm
    · rw [Function.update_self] at hhigh; exact hx hhigh.symm

end Changed

section Failing
variable {s t : State} {b : Nat → Byte}

/-- VAL.RUN answers on a stored candidate that has the bytes the checks name. -/
theorem exec_valRun_answers (hs : s.candidateStored) (hn : 12 ≤ s.cnt) : ∃ t, exec .valRun s = .next t := by
  obtain ⟨h2, h3, h4, h5, h6⟩ := checks_ok hs hn
  have hchecks : ∀ c ∈ validatorChecks.map Prod.snd, ∃ r, c s = .ok r := by
    simp only [validatorChecks, List.map_cons, List.map_nil, List.forall_mem_cons, List.not_mem_nil, false_implies,
      implies_true, and_true]
    exact ⟨⟨_, checkSize_eq⟩, h2, h3, h4, h5, h6⟩
  obtain ⟨r, hr⟩ := firstFailure_ok hchecks
  rw [exec_valRun, hr]
  cases r with
  | none => exact ⟨_, rfl⟩
  | some j => exact ⟨_, rfl⟩

/-- The first check that does not pass gives VAL.RUN its code (42_validator.md R136). -/
theorem code_of_valRun {pre post : List (State → Except Fault (Option Reject))}
    {c : State → Except Fault (Option Reject)} {code : Code} (hrun : exec .valRun s = .next t)
    (hsplit : validatorChecks.map Prod.snd = pre ++ c :: post) (hpre : ∀ d ∈ pre, d s = .ok none)
    (hcode : ∀ j, c s = .ok (some j) → j.code = code) (hfails : c s ≠ .ok none) : t.res.code = code := by
  rw [exec_valRun, hsplit, firstFailure_append hpre, firstFailure] at hrun
  cases hc : c s with
  | error e => rw [hc] at hrun; cases hrun
  | ok r =>
    cases r with
    | none => exact absurd hc hfails
    | some j => rw [hc] at hrun; cases hrun; exact hcode j hc

theorem checkSize_eq_none (hn : 180 ≤ s.cnt ∧ s.cnt ≤ 302) : checkSize s = .ok none := by
  rw [checkSize_eq, if_neg (by omega)]

variable (hb : s.hasBytes b) (hn : 180 ≤ s.cnt ∧ s.cnt ≤ 302) (hrun : exec .valRun s = .next t)
include hb hn hrun

theorem code_of_framing (hframing : framingFails s.cfg (b 0) (b (s.cnt - 1)) = true) :
    t.res.code = .framingMismatch := by
  refine code_of_valRun (pre := [checkSize]) hrun rfl ?_ (fun j => ?_) ?_
  · simpa using checkSize_eq_none hn
  · obtain ⟨-, hcode, -⟩ := check_codes (s := s) (j := j)
    exact hcode
  · rw [ne_eq, checkFraming_eq_none_iff hb (by omega)]
    exact not_not_intro hframing

theorem code_of_header (hframing : ¬ framingFails s.cfg (b 0) (b (s.cnt - 1)) = true)
    (hheader : ¬ ChecksumStored b 1 5) : t.res.code = .headerChecksumMismatch := by
  refine code_of_valRun (pre := [checkSize, checkFraming]) hrun rfl ?_ (fun j => ?_) ?_
  · simpa using ⟨checkSize_eq_none hn, (checkFraming_eq_none_iff hb (by omega)).mpr hframing⟩
  · obtain ⟨-, -, hcode, -⟩ := check_codes (s := s) (j := j)
    exact hcode
  · rwa [ne_eq, checkHcs_eq_none_iff hb (by omega)]

theorem code_of_frame (hframing : ¬ framingFails s.cfg (b 0) (b (s.cnt - 1)) = true) (hheader : ChecksumStored b 1 5)
    (hframe : ¬ ChecksumStored b 1 (s.cnt - 4)) : t.res.code = .frameChecksumMismatch := by
  refine code_of_valRun (pre := [checkSize, checkFraming, checkHcs]) hrun rfl ?_ (fun j => ?_) ?_
  · simpa using ⟨checkSize_eq_none hn, (checkFraming_eq_none_iff hb (by omega)).mpr hframing,
      (checkHcs_eq_none_iff hb (by omega)).mpr hheader⟩
  · obtain ⟨-, -, -, hcode, -⟩ := check_codes (s := s) (j := j)
    exact hcode
  · rwa [ne_eq, checkFcs_eq_none_iff hb (by omega)]

end Failing

/-- Byte 0 is read by the framing check alone. -/
theorem accepted_update_zero {c : Config} {n : Nat} {b : Nat → Byte} {x : Byte} (h : Accepted c n b)
    (hframing : ¬ framingFails c x (b (n - 1)) = true) : Accepted c n (Function.update b 0 x) := by
  have hn := h.size
  refine ⟨hn, ?_, (checksumStored_update_outside (by omega)).mpr h.header,
    (checksumStored_update_outside (by omega)).mpr h.frame, ?_, ?_⟩
  · rwa [Function.update_self, Function.update_of_ne (by omega)]
  · simpa using h.tag
  · simpa using h.length

/-- Settles O38: the changed byte is one of those that exactly one check, or none, first misses. -/
theorem oneCorruptedByteIsReportedByItsCheck : Obligations.OneCorruptedByteIsReportedByItsCheck := by
  intro s s' b j x hb hrun hcfg hcnt hj hx hb'
  have ha : Accepted s'.cfg s'.cnt b := by
    rw [hcfg, hcnt]; exact (accepted_iff hb).mp (checking_eq_passed_iff.mp hrun)
  have hnew : s'.hasBytes (Function.update b j x) := fun i hi => by
    rw [hb' i (hcnt ▸ hi), Function.update_apply]
  have hn := ha.size
  obtain ⟨t, ht⟩ := exec_valRun_answers (stored_of_hasBytes hnew) (by omega)
  have hpass : j = 0 → ¬ framingFails s'.cfg x (b (s'.cnt - 1)) = true → t = s'.passed := by
    rintro rfl hframing
    have hacc := (accepted_iff hnew).mpr (accepted_update_zero ha hframing)
    exact Host.Outcome.next.inj (ht.symm.trans (checking_pass hacc))
  have hinside : 0 < j → j < s'.cnt - 1 → ¬ framingFails s'.cfg (Function.update b j x 0)
      (Function.update b j x (s'.cnt - 1)) = true := fun h0 h1 => by
    rw [Function.update_of_ne (by omega), Function.update_of_ne (by omega)]; exact ha.framing
  have hboth : s'.cfg.framing = .bothSentinel → b 0 = s'.cfg.sentinel ∧ b (s'.cnt - 1) = s'.cfg.sentinel := fun hm => by
    have := ha.framing
    rw [framingFails_bothSentinel hm] at this
    tauto
  simp only [← hcfg, ← hcnt] at hj ⊢
  refine ⟨t, ht, fun h0 hm => ?firstBoth, fun h0 hm hlast hzero => ?firstZero, fun h0 hm hzero => hpass h0 ?leading,
    fun h0 hm => hpass h0 ?off, fun h1 h7 => ?header, fun h8 h2 => ?frame, fun hl hm => ?last⟩
  case firstBoth =>
    subst h0
    refine code_of_framing hnew hn ht ((framingFails_bothSentinel hm).mpr (.inl ?_))
    rw [Function.update_self, ← (hboth hm).1]
    exact hx
  case firstZero =>
    subst h0
    refine code_of_framing hnew hn ht ((framingFails_leadingZero hm).mpr ?_)
    rw [Function.update_self, Function.update_of_ne (by omega)]
    exact ⟨hzero, hlast⟩
  case leading => rw [framingFails_leadingZero hm]; exact fun h => hzero h.1
  case off => rw [framingFails_off hm]; exact id
  case header =>
    exact code_of_header hnew hn ht (hinside (by omega) (by omega)) (not_checksumStored_update ha.header hx h1 h7)
  case frame =>
    exact code_of_frame hnew hn ht (hinside (by omega) (by omega))
      ((checksumStored_update_outside (by omega)).mpr ha.header)
      (not_checksumStored_update ha.frame hx (by omega) (by omega))
  case last =>
    subst hl
    refine code_of_framing hnew hn ht ((framingFails_bothSentinel hm).mpr (.inr ?_))
    rw [Function.update_self, ← (hboth hm).2]
    exact hx

end Sys2Proof.Machine

/-! ## Family other: runs of the assembler

A byte that closes nothing is appended, and an append keeps `State.Received`: `CNT` counts the bytes so far and `BUF` holds
the first of them. Two sentinels on an empty buffer are a candidate of length 2, one record. -/

namespace Sys2Proof.Machine

/-! ### Bytes that close no candidate -/

/-- A step on a byte that closes nothing appends it (40_assembler.md R101, R102). -/
theorem step_append {s : State} {v : Byte} {rest : List Stimulus} (hl : s.cfg.legal = true)
    (hq : s.inq = .byte v :: rest) (hv : v ≠ s.cfg.sentinel ∨ s.cnt = 0) :
    step s = .next { s.append v with inq := rest } := by
  by_cases hs : v = s.cfg.sentinel
  · exact step_byte hl hq (decodeByteEvent_open hs (hv.resolve_left (not_not_intro hs)))
  · exact step_byte hl hq (decodeByteEvent_of_ne hs)

/-- The bytes `bs` have arrived since the buffer was empty: `CNT` counts them up to its largest value, and `BUF` holds the
first `min(CNT, BUF_CAP)` of them (10_state.md R32). -/
structure State.Received (s : State) (bs : List Byte) : Prop where
  count : s.cnt = min bs.length (cntMax s.cfg)
  held : ∀ i, i < min s.cnt s.cfg.bufCap → s.buf.get? i = bs[i]?

theorem received_append {s : State} {bs : List Byte} (h : s.Received bs) (v : Byte) :
    (s.append v).Received (bs ++ [v]) := by
  have hc := h.count
  refine ⟨?_, fun i hi => ?_⟩
  · rw [append_cnt, append_cfg, List.length_append, List.length_singleton]
    split <;> omega
  · rw [append_cnt, append_cfg] at hi
    rw [get?_append]
    by_cases hnew : i = s.cnt ∧ s.cnt < s.cfg.bufCap ∧ s.cnt < cntMax s.cfg
    · have hlen : i = bs.length := by omega
      rw [if_pos hnew, hlen, List.getElem?_concat_length]
    · have hold : i < min s.cnt s.cfg.bufCap := by split at hi <;> omega
      rw [if_neg hnew, h.held i hold, List.getElem?_append_left (by omega)]

/-- What a run over bytes that close nothing leaves: they are received, and nothing else but the input has changed. -/
theorem run_received {s : State} {as bs : List Byte} {rest : List Stimulus} (hl : s.cfg.legal = true)
    (hbs : ∀ x ∈ bs, x ≠ s.cfg.sentinel) (hq : s.inq = bs.map .byte ++ rest) (h : s.Received as) :
    ∃ t, core.run bs.length s = .next t ∧ t.Received (as ++ bs) ∧
      t.cfg = s.cfg ∧ t.inq = rest ∧ t.out = s.out ∧ t.res = s.res ∧ t.rd = s.rd := by
  induction bs generalizing s as with
  | nil => exact ⟨s, rfl, by rwa [List.append_nil], rfl, hq, rfl, rfl, rfl⟩
  | cons b bs ih =>
    obtain ⟨hb, hbs⟩ := List.forall_mem_cons.mp hbs
    have hstep := step_append (rest := bs.map Stimulus.byte ++ rest) hl hq (.inl hb)
    obtain ⟨hcount, hheld⟩ := received_append h b
    obtain ⟨t, hrun, hrec, hframe⟩ :=
      ih (s := { s.append b with inq := bs.map Stimulus.byte ++ rest }) (as := as ++ [b]) hl hbs rfl ⟨hcount, hheld⟩
    exact ⟨t, (run_succ_of_step hstep bs.length).trans hrun, by simpa using hrec, hframe⟩

/-- Settles O25: the first byte is appended, whatever it is, and so are the bytes after it. -/
theorem bufferHoldsTheFirstBytesInOrder : Obligations.BufferHoldsTheFirstBytesInOrder := by
  intro b bs s rest hl hc _ hbs hq
  have hempty : s.Received [] := ⟨hc.trans (Nat.zero_min _).symm, fun i hi => absurd hi (by rw [hc]; omega)⟩
  obtain ⟨hone, hfirst⟩ := received_append hempty b
  have hstep := step_append (rest := bs.map Stimulus.byte ++ rest) hl hq (.inr hc)
  obtain ⟨t, hrun, ⟨hcount, hheld⟩, hcfg, hinq, hout, hres, hrd⟩ :=
    run_received (s := { s.append b with inq := bs.map Stimulus.byte ++ rest }) (as := [b]) hl hbs rfl ⟨hone, hfirst⟩
  have hcfg : t.cfg = s.cfg := hcfg
  refine ⟨t, (run_succ_of_step hstep bs.length).trans hrun, ?count, ?held, hinq, hout, hres, hrd, fun hcap m => ?tooLong⟩
  case count => rw [hcount, hcfg]; rfl
  case held => rw [← hcfg]; exact hheld
  case tooLong =>
    have hlarge := legal_bufCap hl
    exact ⟨_, exec_valRun_of_size (s := { t with buf := m }) (.inr (by simp only; omega)), rfl⟩

/-! ### Sentinels -/

/-- The record of a candidate of two bytes (40_assembler.md R110). -/
def twoByteRecord (kind : BitVec 2) : Record :=
  { ok := false, code := .sizeOutOfRange, obs := 2#32, exp := 0x00B4012E#32, reading := Reading.absent kind }

/-- A candidate of length 2 is closed by check 1 (40_assembler.md R110). -/
theorem execAsmClose_of_one {s : State} (hl : s.cfg.legal = true) (hc : s.cnt = 1) (v : Byte) :
    ∃ t kind, execAsmClose v s = .next t ∧ t.cnt = 0 ∧ t.inq = s.inq ∧ t.cfg = s.cfg ∧
      t.out = s.out ++ [twoByteRecord kind] := by
  have hmax := legal_cntMax hl
  have hcnt : (s.append v).cnt = 2 := by rw [append_cnt, if_pos (by omega), hc]
  have hval := validate_size (s := s.append v) (.inl (by omega))
  have hword : contextWord (2 : Nat) = 2#32 := contextWord_of_lt (by decide)
  rw [hcnt, hword] at hval
  have hproc : processCandidate (s.append v) = .ok ((s.append v).takeReject ⟨.sizeOutOfRange, 2#32, 0x00B4012E#32⟩) := by
    rw [processCandidate, hval]
  exact ⟨_, _, execAsmClose_of_processed hproc, rfl, rfl, rfl, rfl⟩

/-- Two sentinels on an empty buffer take two steps and emit one record (40_assembler.md R110). -/
theorem run_two_sentinels {s : State} {rest : List Stimulus} (hl : s.cfg.legal = true) (hc : s.cnt = 0)
    (hq : s.inq = .byte s.cfg.sentinel :: .byte s.cfg.sentinel :: rest) :
    ∃ t kind, (∀ k, core.run (k + 2) s = core.run k t) ∧ t.cnt = 0 ∧ t.inq = rest ∧ t.cfg = s.cfg ∧
      t.out = s.out ++ [twoByteRecord kind] := by
  have hopened : (s.append s.cfg.sentinel).cnt = 1 := by rw [append_cnt, if_pos (room_of_empty hl hc).2, hc]
  have hopen := step_append hl hq (.inr hc)
  obtain ⟨t, kind, hclose, ht⟩ :=
    execAsmClose_of_one (s := { s.append s.cfg.sentinel with inq := rest }) hl hopened s.cfg.sentinel
  have hstep := (step_byte (s := { s.append s.cfg.sentinel with inq := .byte s.cfg.sentinel :: rest })
    (v := s.cfg.sentinel) hl rfl (decodeByteEvent_close rfl hopened.ge)).trans hclose
  exact ⟨t, kind, fun k => (run_succ_of_step hopen (k + 1)).trans (run_succ_of_step hstep k), ht⟩

/-- A run of `k` sentinels on an empty buffer (40_assembler.md R110). -/
theorem run_sentinels (k : Nat) {s : State} {rest : List Stimulus} (hl : s.cfg.legal = true) (hc : s.cnt = 0)
    (hq : s.inq = List.replicate k (.byte s.cfg.sentinel) ++ rest) :
    ∃ t, core.run k s = .next t ∧ t.cnt = k % 2 ∧ t.inq = rest ∧ t.cfg = s.cfg ∧
      ∃ recs, t.out = s.out ++ recs ∧ recs.length = k / 2 ∧ ∀ r ∈ recs, ∃ kind, r = twoByteRecord kind := by
  induction k using Nat.twoStepInduction generalizing s with
  | zero => exact ⟨s, rfl, hc, hq, rfl, [], by simp⟩
  | one =>
    refine ⟨_, run_succ_of_step (step_append hl hq (.inr hc)) 0, ?_, rfl, rfl, [], by simp⟩
    exact (append_cnt s.cfg.sentinel s).trans (by rw [if_pos (room_of_empty hl hc).2, hc])
  | more k ih _ =>
    obtain ⟨u, kind, hrun, hcnt, hinq, hcfg, hout⟩ :=
      run_two_sentinels (rest := List.replicate k (Stimulus.byte s.cfg.sentinel) ++ rest) hl hc hq
    rw [← hcfg] at hinq hl ⊢
    obtain ⟨t, ht, htcnt, htinq, htcfg, recs, hrecs, hlen, hform⟩ := ih hl hcnt hinq
    exact ⟨t, (hrun k).trans ht, by omega, htinq, htcfg, twoByteRecord kind :: recs, by simp [hrecs, hout],
      by rw [List.length_cons, hlen]; omega, List.forall_mem_cons.mpr ⟨⟨kind, rfl⟩, hform⟩⟩

/-- Settles O24: an empty buffer is opened by one sentinel, and closed and emptied by the next. -/
theorem sentinelRunEmitsHalfAsManyRecords : Obligations.SentinelRunEmitsHalfAsManyRecords :=
  fun k _ _ hl hc _ hq => run_sentinels k hl hc hq

end Sys2Proof.Machine

/-! ## Family other: the layout

What makes a configuration legal is a list of Boolean tests (`legal_iff`); each test is put in the words of R194 once. The
offsets follow from `Layout.place`. -/

namespace Sys2Proof

/-! ### W1, W3 and W4 -/

/-- The tests of all fields are one condition a block, the two optional blocks not being empty (44_decoder.md R194). -/
theorem fieldsInBlocks_iff {c : Config} (h3 : 1 ≤ c.layout.ph23Len) (hl : 1 ≤ c.layout.longLen) :
    (∀ f, c.fieldInBlock f = true) ↔
      (∀ f o, c.layout.place f = (.common, o) → 7 ≤ o ∧ o + c.width f - 1 ≤ c.layout.ph1End) ∧
      (∀ f r, c.layout.place f = (.three, r) → 6 ≤ r ∧ r + c.width f - 1 ≤ c.layout.ph23Len - 1) ∧
      (∀ f r, c.layout.place f = (.long, r) → 6 ≤ r ∧ r + c.width f - 1 ≤ c.layout.longLen - 1) := by
  constructor
  · intro h
    refine ⟨fun f o hp => ?_, fun f o hp => ?_, fun f o hp => ?_⟩
    all_goals
      have hf := h f
      rw [Config.fieldInBlock, hp] at hf
      simp only [Bool.and_eq_true, decide_eq_true_eq] at hf
      omega
  · rintro ⟨hcommon, hthree, hlong⟩ f
    rw [Config.fieldInBlock]
    split
    · next o hp => have := hcommon f o hp; simp only [Bool.and_eq_true, decide_eq_true_eq]; omega
    · next r hp => have := hthree f r hp; simp only [Bool.and_eq_true, decide_eq_true_eq]; omega
    · next r hp => have := hlong f r hp; simp only [Bool.and_eq_true, decide_eq_true_eq]; omega

/-! ### W5 -/

theorem allDistinct_iff (l : List Nat) : allDistinct l = true ↔ l.Nodup := by
  induction l with
  | nil => simp [allDistinct]
  | cons a l ih =>
    simp only [allDistinct, Bool.and_eq_true, List.all_eq_true, bne_iff_ne, ih, List.nodup_cons]
    exact and_congr_left' ⟨fun h ha => h a ha rfl, fun h x hx e => h (e ▸ hx)⟩

theorem allApart_iff (l : List (Nat × Nat)) : allApart l = true ↔ l.Pairwise fun a b => rangesApart a b = true := by
  induction l with
  | nil => simp [allApart]
  | cons a l ih => simp [allApart, ih]

/-- Two ranges that are not empty are apart exactly when no byte is in both. -/
theorem rangesApart_iff {o w p v : Nat} (hw : 1 ≤ w) (hv : 1 ≤ v) :
    rangesApart (o, w) (p, v) = true ↔ ∀ i, o ≤ i → i < o + w → p ≤ i → ¬ i < p + v := by
  simp only [rangesApart, Bool.or_eq_true, decide_eq_true_eq]
  exact ⟨fun h i => by omega, fun h => by have := h (max o p); omega⟩

/-- No field is empty (44_decoder.md R195). -/
theorem width_pos (c : Config) (f : Field) : 1 ≤ c.width f := by
  cases f <;> simp [Config.width, Field.kind, TsSub.len]

theorem field_mem_all (f : Field) : f ∈ Field.all := by cases f <;> decide

/-- Two fields of a kind, where it has both, share no byte (44_decoder.md R194). -/
def Config.FieldsApart (c : Config) (k : LayoutKind) (f g : Field) : Prop :=
  ∀ o, c.off k f = some o → ∀ p, c.off k g = some p → rangesApart (o, c.width f) (p, c.width g) = true

theorem fieldsApart_symm {c : Config} {k : LayoutKind} {f g : Field} (h : c.FieldsApart k f g) :
    c.FieldsApart k g f := by
  intro o ho p hp
  have := h p hp o ho
  simp only [rangesApart, Bool.or_eq_true, decide_eq_true_eq] at this ⊢
  omega

/-- The pairwise test of a kind's value ranges is one of any two different fields. -/
theorem allApart_valueRanges_iff (c : Config) (k : LayoutKind) :
    allApart (c.valueRanges k) = true ↔ ∀ f g, f ≠ g → c.FieldsApart k f g := by
  have hpairs : allApart (c.valueRanges k) = true ↔ Field.all.Pairwise (c.FieldsApart k) := by
    rw [allApart_iff, Config.valueRanges, List.pairwise_filterMap]
    simp only [Option.map_eq_some_iff, forall_exists_index, and_imp, forall_apply_eq_imp_iff₂]
    rfl
  have : Std.Symm (c.FieldsApart k) := ⟨fun _ _ => fieldsApart_symm⟩
  have hnodup : Field.all.Nodup := by decide
  rw [hpairs]
  exact ⟨fun h f g hne => h.forall (field_mem_all f) (field_mem_all g) hne,
    fun h => hnodup.pairwise_of_forall_ne fun f _ g _ hne => h f g hne⟩

theorem mem_valueRanges_iff {c : Config} {k : LayoutKind} {a : Nat × Nat} :
    a ∈ c.valueRanges k ↔ ∃ f o, c.off k f = some o ∧ (o, c.width f) = a := by
  simp [Config.valueRanges, field_mem_all]

/-- W5 for one kind: no byte in two fields, and none of them is the discriminant (44_decoder.md R194). -/
theorem rangesDisjoint_iff (c : Config) (k : LayoutKind) : c.rangesDisjoint k = true ↔
    (∀ f g o p i, c.off k f = some o → c.off k g = some p → o ≤ i → i < o + c.width f →
      p ≤ i → i < p + c.width g → f = g) ∧
    (∀ f o, c.off k f = some o → ¬ (o ≤ c.discOff ∧ c.discOff < o + c.width f)) := by
  rw [Config.rangesDisjoint, Bool.and_eq_true, allApart_valueRanges_iff]
  refine and_congr ⟨fun h f g o p i ho hp h1 h2 h3 h4 => ?_, fun h f g hne o ho p hp => ?_⟩ ?_
  · by_contra hne
    exact (rangesApart_iff (width_pos c f) (width_pos c g)).mp (h f g hne o ho p hp) i h1 h2 h3 h4
  · exact (rangesApart_iff (width_pos c f) (width_pos c g)).mpr fun i h1 h2 h3 h4 =>
      hne (h f g o p i ho hp h1 h2 h3 h4)
  · simp only [List.all_eq_true, mem_valueRanges_iff, forall_exists_index, and_imp]
    refine ⟨fun h f o ho => ?_, fun h a f o ho ha => ?_⟩
    · have := h _ f o ho rfl
      simp only [rangesApart, Bool.or_eq_true, decide_eq_true_eq] at this
      omega
    · have := h f o ho
      subst ha
      simp only [rangesApart, Bool.or_eq_true, decide_eq_true_eq]
      omega

theorem cntW_iff (w : Nat) : 302 < 2 ^ w - 1 ↔ 9 ≤ w := by
  constructor
  · intro h
    by_contra hw
    have := Nat.pow_le_pow_right (n := 2) (by decide) (show w ≤ 8 by omega)
    omega
  · intro h
    have := Nat.pow_le_pow_right (n := 2) (by decide) h
    omega

end Sys2Proof

namespace Sys2Proof.Machine

section Refused
variable {s : State} {e : Refusal}

theorem returning_ne_refused {α : Type} {r : Except Fault α} {f : α → Ret} : returning s r f ≠ .refused e := by
  cases r <;> exact nofun

theorem checking_ne_refused {r : Except Fault (Option Reject)} : checking s r ≠ .refused e := by
  rcases r with _ | _ | _ <;> exact nofun

theorem writingRd_ne_refused {r : Except Fault Reading} : writingRd s r ≠ .refused e := by
  cases r <;> exact nofun

theorem execAsmClose_ne_refused {v : Byte} : execAsmClose v s ≠ .refused e := by
  unfold execAsmClose
  split <;> exact nofun

theorem execDecDisc_ne_refused : execDecDisc s ≠ .refused e := by
  unfold execDecDisc
  split
  · exact nofun
  · split <;> exact nofun

theorem execDecRun_ne_refused : execDecRun s ≠ .refused e := by
  unfold execDecRun
  split <;> exact nofun

/-- No operation refuses: only a step does (log entry 14). -/
theorem exec_ne_refused {i : Instr} : exec i s ≠ .refused e := by
  cases i with
  | asmClose v => exact execAsmClose_ne_refused
  | crcX25 | extU8 | extBe16 | extBe32 | extLe16 | extBcd8 | extBcd16 | extWday | extTs | extText | extId | extField =>
    exact returning_ne_refused
  | valSize | valFraming | valHcs | valFcs | valTag | valLen | valRun | decFit => exact checking_ne_refused
  | decCommon | decThree | decLong => exact writingRd_ne_refused
  | decDisc => exact execDecDisc_ne_refused
  | decRun => exact execDecRun_ne_refused
  | asmByte | asmOpen | asmEmpty | reset | discShortSinglePhase | discLongSinglePhase | discShortThreePhase
  | discLongThreePhase | discUnknown | wdayMonday | wdayTuesday | wdayWednesday | wdayThursday | wdayFriday
  | wdaySaturday | wdaySunday | wdayAbsent => exact nofun

/-- A step refuses a configuration exactly where it is not legal (70_reset_and_hazards.md R263). -/
theorem step_eq_illegal_iff : step s = .refused .illegalConfiguration ↔ ¬ s.cfg.legal = true := by
  unfold step
  by_cases hl : s.cfg.legal = true
  · rw [if_pos hl]
    split
    · exact iff_of_false exec_ne_refused (not_not_intro hl)
    · exact iff_of_false nofun (not_not_intro hl)
  · rw [if_neg hl]
    exact iff_of_true rfl hl

end Refused

/-- Settles O7: each Boolean test of legality is its rule in the words of R194 and R263. -/
theorem illegalConfigurationsAreRefused : Obligations.IllegalConfigurationsAreRefused := by
  intro s
  have hranges := (forall_congr' fun k => rangesDisjoint_iff s.cfg k).trans forall_and
  rw [step_eq_illegal_iff, not_iff_not, legal_iff, TsSub.legal, allDistinct_iff, hranges, cntW_iff]
  constructor
  · rintro ⟨hd, hd', hts, hfields, h3, hl, hph1, ⟨hapart, hdisc⟩, hsum, hcap, hcnt⟩
    obtain ⟨hw1, hw3, hw4⟩ := (fieldsInBlocks_iff h3 hl).mp hfields
    exact ⟨hd, hd', hts, hw1, hph1, h3, hw3, hl, hw4, hapart, hdisc, hsum, hcap, hcnt⟩
  · rintro ⟨hd, hd', hts, hw1, hph1, h3, hw3, hl, hw4, hapart, hdisc, hsum, hcap, hcnt⟩
    exact ⟨hd, hd', hts, (fieldsInBlocks_iff h3 hl).mpr ⟨hw1, hw3, hw4⟩, h3, hl, hph1, ⟨hapart, hdisc⟩, hsum, hcap, hcnt⟩

end Sys2Proof.Machine

namespace Sys2Proof

/-! ### The offsets -/

/-- A phase-2/3 field is behind `ph23_start` in the kinds that have it (44_decoder.md R193). -/
theorem off_of_three {c : Config} {k : LayoutKind} {f : Field} {r : Nat} (h : c.layout.place f = (.three, r)) :
    c.off k f = if k = .shortThreePhase ∨ k = .longThreePhase then some (c.ph23Start + r) else none := by
  simp only [Config.off, h, three_iff]

/-- A long field is behind `long_start` in the kinds that have it (44_decoder.md R193). -/
theorem off_of_long {c : Config} {k : LayoutKind} {f : Field} {r : Nat} (h : c.layout.place f = (.long, r)) :
    c.off k f = if k = .longSinglePhase ∨ k = .longThreePhase then some (c.longStart k + r) else none := by
  simp only [Config.off, h, long_iff]

/-- Settles O9: the table of R195 gives each field's block and offset there. -/
theorem fieldOffsetsAreComputedFromBlocks : Obligations.FieldOffsetsAreComputedFromBlocks := by
  intro c k three long lay
  simp only [List.forall_mem_cons, List.not_mem_nil, false_implies, implies_true, and_true]
  exact ⟨⟨rfl, rfl, rfl, rfl, rfl, rfl, rfl, rfl, rfl, rfl⟩,
    ⟨off_of_three rfl, off_of_three rfl, off_of_three rfl, off_of_three rfl⟩,
    ⟨off_of_long rfl, off_of_long rfl, off_of_long rfl, off_of_long rfl, off_of_long rfl⟩⟩

/-- The long block of a three-phase kind starts `PH23_LEN` later (44_decoder.md R197). -/
theorem longStart_longThreePhase (c : Config) :
    c.longStart .longThreePhase = c.longStart .longSinglePhase + c.layout.ph23Len :=
  Nat.add_right_comm ..

/-- Settles O10: every long field shifts with its block. -/
theorem longBlockShiftsByThePhaseBlock : Obligations.LongBlockShiftsByThePhaseBlock := by
  refine ⟨⟨rfl, rfl, rfl, rfl⟩, fun c f hf => ?_⟩
  have hblock := (listsBlock_long c.layout f).mp hf
  obtain ⟨r, hr⟩ : ∃ r, c.layout.place f = (.long, r) := ⟨(c.layout.place f).2, by rw [← hblock]⟩
  refine ⟨c.longStart .longSinglePhase + r, off_of_long hr, ?_⟩
  rw [off_of_long hr, if_pos (.inr rfl), longStart_longThreePhase, Nat.add_right_comm]

end Sys2Proof

namespace Sys2Proof.Machine

/-- Settles O11: REF is one configuration, whose offsets are computed. -/
theorem referenceLayoutHasTheTabulatedOffsets : Obligations.ReferenceLayoutHasTheTabulatedOffsets := by
  refine ⟨legal_ref, rfl, rfl, rfl, rfl, ?_⟩
  decide

end Sys2Proof.Machine

/-! ## Family other: operations run by themselves

The rows of the code tables return their entry, a byte operand is the byte it names, and a read whose first byte lies outside
the candidate stops before anything is returned. -/

namespace Sys2Proof.Machine

section Rows
variable {s : State}

/-! ### The code tables -/

/-- The row a held discriminant selects does what DEC.DISC does (30_encoding.md R78). -/
theorem exec_decodeDisc {d : Byte} (h : s.holds s.cfg.discOff [d]) : exec (decodeDisc d) s = exec .decDisc s := by
  simp only [exec, execDecDisc, readByte_of_holds h, decodeDisc]
  cases kindOfDisc d with
  | none => rfl
  | some k => cases k <;> rfl

/-- The weekday table, row by row: a code has its row, any other byte the row ABSENT (30_encoding.md R81). -/
theorem exec_decodeWday (x : Byte) : exec (decodeWday x) s =
    .next { s with ret := .weekday (weekdayFlags x).1 (weekdayFlags x).2 } := by
  unfold decodeWday
  iterate 7
    split
    · next h => subst h; rfl
  have hout : weekdayFlags x = (false, 0#3) := weekdayFlags_of_not_weekday (by bv_omega)
  rw [hout]; rfl

end Rows

/-- Settles O48: each row is its entry by definition, and the two look-ups select by the same tables. -/
theorem codeTableRowsReturnTheirEntry : Obligations.CodeTableRowsReturnTheirEntry := fun _ =>
  ⟨rfl, rfl, rfl, rfl, fun _ => rfl, rfl, rfl, rfl, rfl, rfl, rfl, rfl, fun _ => rfl, fun _ => exec_decodeDisc,
    exec_decodeWday⟩

/-! ### Byte operands -/

/-- An offset operand on a held byte is read as the byte itself (log entry 15). -/
theorem readOperand_byteAt {s : State} {o : Nat} {x : Byte} (h : s.holds o [x]) :
    readOperand s (.byteAt o) = readOperand s (.lit x) :=
  readByte_of_holds h

/-- Settles O42: the two operations look at the byte their operand gives, not at its form. -/
theorem byteOperandsAreReadAtTheirOffset : Obligations.ByteOperandsAreReadAtTheirOffset := by
  intro s o x h
  have hoperand := readOperand_byteAt h
  refine ⟨?_, ?_, _, returning_of_ok hoperand⟩
  · rw [exec, exec, execExtBcd8, execExtBcd8, hoperand]
  · rw [exec, exec, execExtWday, execExtWday, hoperand]

/-! ### Reads outside the candidate -/

section Outside
variable {s : State} {o : Nat}

theorem readByte_outside (h : s.cnt ≤ o) : readByte s o = .error .readOutsideCandidate := if_neg (by omega)

theorem memRead_outside {n : Nat} (h : s.cnt < o + n) : memRead s o n = .error .readOutsideCandidate :=
  if_neg (by omega)

theorem returning_outside {α : Type} {r : Except Fault α} {f : α → Ret} (h : r = .error .readOutsideCandidate) :
    returning s r f = .fault .readOutsideCandidate := by
  subst h; rfl

theorem readBe16_outside (h : s.cnt < o + 2) : readBe16 s o = .error .readOutsideCandidate := by
  rw [readBe16, memRead_outside h, Except.map]

theorem readBe32_outside (h : s.cnt < o + 4) : readBe32 s o = .error .readOutsideCandidate := by
  rw [readBe32, memRead_outside h, Except.map]

theorem readLe16_outside (h : s.cnt ≤ o) : readLe16 s o = .error .readOutsideCandidate := by
  rw [readLe16, readByte_outside h]

theorem readBcd16_outside (h : s.cnt ≤ o) : readBcd16 s o = .error .readOutsideCandidate := by
  rw [readBcd16, readByte_outside h]

theorem extractIdent_outside (h : s.cnt < o) : extractIdent s o = .error .readOutsideCandidate := by
  unfold extractIdent
  split
  · rfl
  · exact memRead_outside (by omega)

/-- A timestamp reads its year first, in either coding (43_extract.md R167). -/
theorem extractTimestamp_outside (h : s.cnt ≤ o) : extractTimestamp s o = .error .readOutsideCandidate := by
  have hyear : extractYear s o = .error .readOutsideCandidate := by
    unfold extractYear
    split
    · exact readBe16_outside (by omega)
    · exact readBcd16_outside (by omega)
  rw [extractTimestamp, hyear]
  rfl

/-- A field reads its identifier before its value (43_extract.md R170). -/
theorem extractField_outside (f : Field) (h : s.cnt < o) : extractField s f o = .error .readOutsideCandidate := by
  have htagged : ∀ {α : Type} (value : Except Fault α), extractTagged s o value = .error .readOutsideCandidate :=
    fun _ => by rw [extractTagged, extractIdent_outside h]; rfl
  unfold extractField
  split
  · rw [extractU32, htagged, Except.map]
  · rw [extractU16, htagged, Except.map]
  · rw [extractText, htagged, Except.map]
  · rw [extractTs, htagged, Except.map]

theorem crcOfRange_outside {hi : Nat} (h : o ≤ hi) (hhi : s.cnt ≤ hi) :
    crcOfRange s o hi = .error .readOutsideCandidate := by
  rw [crcOfRange, if_neg (by omega), memRead_outside (by omega), Except.map]

end Outside

/-- Settles O46: every reader stops at its first read, which lies outside. -/
theorem readsOutsideTheCandidateFault : Obligations.ReadsOutsideTheCandidateFault := by
  intro s o
  refine ⟨?first, fun h => returning_outside (readBe16_outside h), fun h => returning_outside (readBe32_outside h),
    fun n h => returning_outside (memRead_outside h), fun h => returning_outside (extractIdent_outside h),
    fun f h => returning_outside (extractField_outside f h), fun hi h hhi => returning_outside (crcOfRange_outside h hhi),
    fun h => ?fcs⟩
  case first =>
    simp only [List.forall_mem_cons, List.not_mem_nil, false_implies, implies_true, and_true]
    exact ⟨fun h => returning_outside (readByte_outside h), fun h => returning_outside (readBe16_outside (by omega)),
      fun h => returning_outside (readBe32_outside (by omega)), fun h => returning_outside (readLe16_outside h),
      fun h => returning_outside (readByte_outside h), fun h => returning_outside (readBcd16_outside h),
      fun h => returning_outside (readByte_outside h), fun h => returning_outside (extractTimestamp_outside h),
      fun h => returning_outside (memRead_outside (by omega)), fun h => returning_outside (memRead_outside (by omega)),
      fun h => returning_outside (memRead_outside (by omega))⟩
  case fcs => rw [exec, execValFcs, checkFcs, if_pos h]; rfl

end Sys2Proof.Machine
